-- ==== Sys2Proof/Word.lean ====
section
/-! DEFINITION. The register word and the byte of the block (spec/00_scope.md R6). -/

namespace Sys2Proof

/-- A register word: 32 bits, bit 0 least significant (R6). -/
abbrev Word := BitVec 32

/-- A byte of the little-endian view of a register word (R52). -/
abbrev Byte := BitVec 8

end Sys2Proof
end

