-- ==== Sys2Proof/Syntax.lean ====
section
/-! DEFINITION. The eleven commands of the block (spec/opcode_table.json, 30_encoding.md R70, R71). Their operands
are always the registers IN0 to IN2 (R79), so only the sector operand of VTIME and CMAP stands in the syntax. -/

namespace Sys2Proof

/-- One constructor per row of the opcode table; `sec` is the SEC field `CMD[6:4]` (R70, R72). -/
inductive Instr where
  | sin
  | cos
  | norm
  | clarke
  | iclarke
  | park
  | ipark
  | sector
  | vtime (sec : BitVec 3)
  | cmap (sec : BitVec 3)
  | svpwm
deriving DecidableEq, Repr

end Sys2Proof
end

