-- ==== Sys2Proof/WellFormed.lean ====
section
/-! DEFINITION. Which command terms are legal (spec/30_encoding.md R72): a sector operand is 1 to 6. The decoder
reads the illegal sectors too, and the meanings of VTIME and CMAP report them (R71, R200). -/

namespace Sys2Proof

/-- R72: "A value in `1..6` is legal." -/
def sectorLegal (sec : BitVec 3) : Bool := sec != 0 && sec != 7

/-- The command is well-formed: its sector operand, where it has one, is legal (R72). -/
def Instr.wellFormed : Instr → Bool
  | .sin => true
  | .cos => true
  | .norm => true
  | .clarke => true
  | .iclarke => true
  | .park => true
  | .ipark => true
  | .sector => true
  | .vtime sec => sectorLegal sec
  | .cmap sec => sectorLegal sec
  | .svpwm => true

end Sys2Proof
end

