-- ==== Sys2Proof/Decode.lean ====
section
/-! DEFINITION. The command word's decoder and encoder (spec/30_encoding.md R70 to R75), and the little-endian byte
layout of a word (20_memory.md R52). -/

namespace Sys2Proof

/-- Why a word is no command, each by name. R202 numbers the first three checks in this order. -/
inductive Reject where
  /-- `CMD[31:7] != 0` (R73). -/
  | reservedBits
  /-- OP is 0x0 or 0xC to 0xF (R74). -/
  | reservedOpcode
  /-- SEC is not 0 on a command that has no sector (R72). -/
  | sectorField
  /-- Not the four bytes of one word (R70: one word, always). -/
  | notOneWord
deriving DecidableEq, Repr

/-- `CMD[3:0]` (R70). -/
def opField (w : Word) : BitVec 4 := w.extractLsb' 0 4

/-- `CMD[6:4]` (R70). -/
def secField (w : Word) : BitVec 3 := w.extractLsb' 4 3

/-- `CMD[31:7]` (R70). -/
def reservedField (w : Word) : BitVec 25 := w.extractLsb' 7 25

/-- A command that has no sector operand: SEC must be 0 (R72). -/
def withoutSector (i : Instr) (sec : BitVec 3) : Except Reject Instr :=
  if sec = 0 then .ok i else .error .sectorField

/-- The decoder of R71, in the order of its checks: reserved bits, then the opcode, then SEC. -/
def decode (w : Word) : Except Reject Instr :=
  if reservedField w ≠ 0 then .error .reservedBits
  else
    match (opField w).toNat with
    | 1 => withoutSector .sin (secField w)
    | 2 => withoutSector .cos (secField w)
    | 3 => withoutSector .norm (secField w)
    | 4 => withoutSector .clarke (secField w)
    | 5 => withoutSector .iclarke (secField w)
    | 6 => withoutSector .park (secField w)
    | 7 => withoutSector .ipark (secField w)
    | 8 => withoutSector .sector (secField w)
    | 9 => .ok (.vtime (secField w))
    | 10 => .ok (.cmap (secField w))
    | 11 => withoutSector .svpwm (secField w)
    | _ => .error .reservedOpcode

/-- The operation code of a command (R71). -/
def opcode : Instr → BitVec 4
  | .sin => 0x1
  | .cos => 0x2
  | .norm => 0x3
  | .clarke => 0x4
  | .iclarke => 0x5
  | .park => 0x6
  | .ipark => 0x7
  | .sector => 0x8
  | .vtime _ => 0x9
  | .cmap _ => 0xA
  | .svpwm => 0xB

/-- The SEC field of a command: its sector operand, or 0 (R70). -/
def sectorOperand : Instr → BitVec 3
  | .sin => 0
  | .cos => 0
  | .norm => 0
  | .clarke => 0
  | .iclarke => 0
  | .park => 0
  | .ipark => 0
  | .sector => 0
  | .vtime sec => sec
  | .cmap sec => sec
  | .svpwm => 0

/-- The command word of R70: RSV = 0, SEC, OP from high to low. -/
def encode (i : Instr) : Word := (0 : BitVec 25) ++ sectorOperand i ++ opcode i

/-- The bytes of a word in address order (R52: byte `b` is bits `[8b+7 : 8b]`). -/
def bytesOfWord (w : Word) : List Byte :=
  [w.extractLsb' 0 8, w.extractLsb' 8 8, w.extractLsb' 16 8, w.extractLsb' 24 8]

/-- The word that four bytes in address order make (R52). -/
def wordOfBytes (b0 b1 b2 b3 : Byte) : Word := b3 ++ b2 ++ b1 ++ b0

/-- The decoder on the bytes of a command as a byte-addressed host lays them out (R52, R70). -/
def decodeBytes : List Byte → Except Reject Instr
  | [b0, b1, b2, b3] => decode (wordOfBytes b0 b1 b2 b3)
  | _ => .error .notOneWord

/-- The command read from a word numbered as the opcode table numbers it. A command is one 32-bit word (R70), so a longer
row or a number of more than 32 bits is none. -/
def decodeTableWord (nbits w : Nat) : Option Instr :=
  if nbits ≤ 32 ∧ w < 2 ^ 32 then
    match decodeBytes (bytesOfWord (BitVec.ofNat 32 w)) with
    | .ok i => some i
    | .error _ => none
  else none

end Sys2Proof
end

