-- ==== Sys2Proof/Config.lean ====
section
/-! DEFINITION. The parameters of one block instance (spec/00_scope.md R5) and the values the spec leaves free. -/

namespace Sys2Proof

/-- A parameter that R5 calls a real number: a rational written out, or the real number `Config.realParameter k`, of
which nothing is known (log 10). -/
inductive RealParam where
  | rat (q : Rat)
  | real (k : Nat)
deriving DecidableEq, Repr

/-- `ENC` (R5, R77): its default, round to nearest with ties to even, or the function `Config.otherRounding k`, of
which nothing is known (log 13). -/
inductive Rounding where
  | nearestEven
  | other (k : Nat)
deriving DecidableEq, Repr

/-- The sine ROM of an instance: the exact reference table (40_trig.md R100), or the entries an implementation
stores (R101, `LUT_IMPL`). -/
inductive Rom where
  | reference
  | stored (entries : List RealParam)
deriving DecidableEq, Repr

/-- `TOL_OP`, one tolerance per command that writes a numeric result (R5, R78). All 0 is the exact model. -/
structure TolOp where
  sin     : RealParam := .rat 0
  cos     : RealParam := .rat 0
  norm    : RealParam := .rat 0
  clarke  : RealParam := .rat 0
  iclarke : RealParam := .rat 0
  park    : RealParam := .rat 0
  ipark   : RealParam := .rat 0
  vtime   : RealParam := .rat 0
  cmap    : RealParam := .rat 0
  svpwm   : RealParam := .rat 0
deriving DecidableEq, Repr

/-- The parameters of R5, fixed for one instance. The defaults are R5's where it gives one; `ts`, `udc` and `base`
are OPEN there (DESIGN CHOICE, log 4). `LAT_MAX` is left out (log 11). -/
structure Config where
  /-- `N = 2 ^ logN` (R5). -/
  logN       : Nat := 9
  /-- The binary32 word of `Ts`, which CFG_TS reads as (R29). -/
  ts         : Word := 0x3F800000
  /-- The binary32 word of `Udc`, which CFG_UDC reads as (R29). -/
  udc        : Word := 0x3F800000
  /-- `MAX_COUNTER` (R5, R29). -/
  maxCounter : Word := 5000
  /-- `BASE`, the window's host address (R55). -/
  base       : Nat := 0
  rom        : Rom := .reference
  tolLut     : RealParam := .rat 0
  tolOp      : TolOp := {}
  tolSector  : RealParam := .rat 0
  tolSat     : RealParam := .rat 0
  /-- `X_ACC`; `none` is infinity (R5, R112). -/
  xAcc       : Option RealParam := none
  enc        : Rounding := .nearestEven
  /-- The model's own switch between the two behaviours R210 states for an operand never written: the model-only
  fault (true), or the chip, which computes with the unspecified contents (false). DESIGN CHOICE true, log 7. -/
  operandCheck : Bool := true
deriving DecidableEq, Repr

/-- FREE VALUE. The real parameters that are not written out as rationals (R5: "real"). Log 10. -/
opaque Config.realParameter (k : Nat) : ℝ

/-- FREE VALUE. The roundings that are not the default (R5: "a total function ℝ → binary32"). Log 13. -/
opaque Config.otherRounding (k : Nat) : ℝ → Word

/-- FREE VALUE. What a register that nothing has written since the last reset holds (R26, R27): the argument is
the number of resets so far and the register's slot (IN0 to IN2 are 0 to 2, OUT0 to OUT5 are 3 to 8). Log 3. -/
opaque Config.unspecified (resets slot : Nat) : Word

/-- FREE VALUE. The word a tolerant implementation delivers for output `j` of a command (R78: "a draw that depends
only on the operands"); it is used only where it conforms. Arguments: the instance, the command word, the operand
words read, the output. Log 6. -/
opaque Config.tolerantWord (c : Config) (cmd : Word) (operands : List Word) (j : Nat) : Word

/-- FREE VALUE. A discrete choice of a tolerant implementation inside its band (R155, R164). Log 6. -/
opaque Config.tolerantBit (c : Config) (cmd : Word) (operands : List Word) (j : Nat) : Bool

/-- FREE VALUE. The word for a result on which the spec's rules contradict each other: `ENC` of the exact result
leaves a range that another rule promises. It is limited to that range. Log 22. -/
opaque Config.unstated (c : Config) (cmd : Word) (operands : List Word) (j : Nat) : Word

end Sys2Proof
end

