-- ==== Sys2Proof/Machine/Binary32.lean ====
section
/-! DEFINITION. The binary32 words: `DEC` (spec/30_encoding.md R76) and the rounding of `ENC` (R77), over any exact
number that can be compared with rationals. -/

namespace Sys2Proof.Machine

/-- The value of the sign-free word `n`, with `e = n[30:23]` and `m = n[22:0]` (R76). At `e = 255`, `m = 0` it is
`2^128`, the bound that the rounding of R77 needs above the greatest finite word. -/
def magValue (n : Nat) : Rat :=
  let e : Nat := n / 2 ^ 23
  let m : Nat := n % 2 ^ 23
  if e = 0 then (m : Rat) / ((2 ^ 149 : Nat) : Rat)
  else if 150 ≤ e then (((2 ^ 23 + m) * 2 ^ (e - 150) : Nat) : Rat)
  else ((2 ^ 23 + m : Nat) : Rat) / ((2 ^ (150 - e) : Nat) : Rat)

/-- The sign-free part `w[30:0]` of a word. -/
def magOf (w : Word) : Nat := w.toNat % 2 ^ 31

/-- `e < 255`: the word is a number (R76). -/
def isFinite (w : Word) : Bool := magOf w < 0x7F800000

/-- `DEC(w)`, or none where it is non-finite (R76). `-0` decodes to 0. -/
def decodeReal (w : Word) : Option Rat :=
  if isFinite w then some (if w.getLsbD 31 then -magValue (magOf w) else magValue (magOf w)) else none

/-- The greatest finite sign-free word. -/
def maxMag : Nat := 0x7F7FFFFF

/-- Bit by bit from bit `b - 1` down: the greatest finite sign-free word, with `acc` as its higher bits, whose value
`le` says the number reaches. -/
def findMag (le : Rat → Bool) : Nat → Nat → Nat
  | 0, acc => acc
  | b + 1, acc =>
    let t := acc + 2 ^ b
    findMag le b (if t ≤ maxMag && le (magValue t) then t else acc)

/-- `(2 - 2^-24) * 2^127`, from which on R77's rounding gives infinity. -/
def overflowBound : Rat := (((2 ^ 25 - 1) * 2 ^ 103 : Nat) : Rat)

/-- Round to nearest, ties to the even significand (R77), of a number `>= 0` given by its comparison with every
rational; none where the rounding gives infinity. -/
def encMag (cmp : Rat → Ordering) : Option Nat :=
  if cmp overflowBound != .lt then none
  else
    let m := findMag (fun q => cmp q != .lt) 31 0
    match cmp ((magValue m + magValue (m + 1)) / 2) with
    | .lt => some m
    | .gt => some (m + 1)
    | .eq => some (m + m % 2)

/-- The word of a sign and a sign-free word. A zero is always `+0` (R77: "never -0, also for tiny negative x"). -/
def joinSign (negative : Bool) (n : Nat) : Word :=
  if negative && n != 0 then BitVec.ofNat 32 (2 ^ 31 + n) else BitVec.ofNat 32 n

/-- The comparison of two rationals. -/
def cmpRat (x q : Rat) : Ordering := if x < q then .lt else if x = q then .eq else .gt

/-- `ENC(x)` of a rational, or none where the command ends with OVERFLOW (R77). -/
def encRat (x : Rat) : Option Word :=
  if x < 0 then (encMag (cmpRat (-x))).map (joinSign true) else (encMag (cmpRat x)).map (joinSign false)

end Sys2Proof.Machine
end

