-- ==== Sys2Proof/Machine/Enclosure.lean ====
section
/-! DEFINITION. Rational enclosures: of π, of the sines of the reference table (spec/40_trig.md R100), and from them
of the table interpolation (R102) and of the wrapped angle (41_angle.md R120). The exact results of SIN, COS, NORM,
PARK and IPARK lie in them (log 5). -/

namespace Sys2Proof.Machine

/-- A closed interval of rationals. -/
structure Ival where
  lo : Rat
  hi : Rat
deriving DecidableEq, Repr

namespace Ival

def point (q : Rat) : Ival := ⟨q, q⟩

def add (x y : Ival) : Ival := ⟨x.lo + y.lo, x.hi + y.hi⟩

def sub (x y : Ival) : Ival := ⟨x.lo - y.hi, x.hi - y.lo⟩

/-- `r * x` for a rational `r`; exactly 0 where `r = 0`. -/
def scale (r : Rat) (x : Ival) : Ival :=
  if r = 0 then point 0 else if 0 < r then ⟨r * x.lo, r * x.hi⟩ else ⟨r * x.hi, r * x.lo⟩

/-- `f * x` for an `f` that is never negative. -/
def mulNonneg (f x : Ival) : Ival :=
  ⟨if 0 ≤ x.lo then f.lo * x.lo else f.hi * x.lo, if 0 ≤ x.hi then f.hi * x.hi else f.lo * x.hi⟩

/-- `ENC` of a number in the interval, where the interval decides it: rounding is monotone, so both ends round to the
one word, or both overflow on one side of 0. -/
def enc (x : Ival) : Option (Option Word) :=
  let a := encRat x.lo
  if a = encRat x.hi ∧ (a ≠ none ∨ 0 ≤ x.lo ∨ x.hi ≤ 0) then some a else none

/-- Whether a number in the interval lies within `tol` of `v`, where the interval decides it. -/
def near (x : Ival) (v tol : Rat) : Option Bool :=
  if v - tol ≤ x.lo && x.hi ≤ v + tol then some true
  else if x.hi < v - tol || v + tol < x.lo then some false
  else none

end Ival

/-- How many binary places the fixed-point enclosures carry (log 5). -/
def precision : Nat := 512

/-- The grid of the fixed-point enclosures: the integer that stands for 1. -/
def unit : Int := 2 ^ precision

/-- `π * 2^512` rounded down. -/
def piScaled : Nat :=
  0x3243f6a8885a308d313198a2e03707344a4093822299f31d0082efa98ec4e6c89452821e638d01377be5466cf34e90c6cc0ac29b7c97c50dd3f84d5b5b5470917

/-- The lower end of the enclosure of π. -/
def piLo : Rat := (piScaled : Rat) / ((2 ^ precision : Nat) : Rat)

/-- The upper end of the enclosure of π. -/
def piHi : Rat := ((piScaled + 1 : Nat) : Rat) / ((2 ^ precision : Nat) : Rat)

/-- `q < 2π` for the value `q` of a binary32 word: no such value lies in the enclosure of 2π, whose neighbours are
0x40C90FDA and 0x40C90FDB (R120, R136). -/
def belowTwoPi (q : Rat) : Bool := decide (q ≤ 2 * piLo)

/-- A fixed-point enclosure: the integers `lo` and `hi` stand for `lo / 2^512` and `hi / 2^512`. -/
structure Fixed where
  lo : Int
  hi : Int
deriving DecidableEq, Repr

namespace Fixed

/-- A whole number. -/
def exact (n : Int) : Fixed := ⟨n * unit, n * unit⟩

def add (x y : Fixed) : Fixed := ⟨x.lo + y.lo, x.hi + y.hi⟩

def sub (x y : Fixed) : Fixed := ⟨x.lo - y.hi, x.hi - y.lo⟩

/-- The product, its lower end rounded down to the grid and its upper end up. -/
def mul (x y : Fixed) : Fixed :=
  let a := x.lo * y.lo
  let b := x.lo * y.hi
  let c := x.hi * y.lo
  let d := x.hi * y.hi
  ⟨min (min a b) (min c d) / unit, -(-max (max a b) (max c d) / unit)⟩

def toIval (x : Fixed) : Ival := ⟨(x.lo : Rat) / (unit : Rat), (x.hi : Rat) / (unit : Rat)⟩

end Fixed

/-- Newton's iteration for the integer square root of `n`, from `r` down. -/
def sqrtLoop (n : Nat) : Nat → Nat → Nat
  | 0, r => r
  | fuel + 1, r =>
    let r' := (r + n / r) / 2
    if r' < r then sqrtLoop n fuel r' else r

/-- The integer square root of `n`, as the iteration finds it. -/
def sqrtGuess (n : Nat) : Nat := if n = 0 then 0 else sqrtLoop n 600 (2 ^ (n.log2 / 2 + 1))

/-- A lower bound of the square root: the guess where its square confirms it. -/
def sqrtLo (n : Nat) : Nat := let r := sqrtGuess n; if r * r ≤ n then r else 0

/-- An upper bound of the square root: one above the guess where its square confirms it. -/
def sqrtHi (n : Nat) : Nat := let r := sqrtGuess n + 1; if n ≤ r * r then r else n + 1

/-- The enclosure of `√((1 + x) / 2)` for `x` in `[-1, 1]`. -/
def halfRoot (x : Fixed) : Fixed :=
  ⟨(sqrtLo (((unit + x.lo) * unit / 2).toNat) : Nat), (sqrtHi (((unit + x.hi) * unit / 2 + 1).toNat) : Nat)⟩

/-- The cosine and sine of half an angle in `[0, π]`, from the cosine of the angle. -/
def halfAngle (c : Fixed) : Fixed × Fixed := (halfRoot c, halfRoot (Fixed.sub (Fixed.exact 0) c))

/-- The cosine and sine of a sum of two angles, from those of the angles. -/
def rotate (x y : Fixed × Fixed) : Fixed × Fixed :=
  (Fixed.sub (Fixed.mul x.1 y.1) (Fixed.mul x.2 y.2), Fixed.add (Fixed.mul x.1 y.2) (Fixed.mul x.2 y.1))

/-- Cosine and sine of an angle summed bit by bit: `step` encloses the cosine and sine of the angle of bit `t`, `acc`
those of the bits above it, and each lower bit stands for half the angle of the bit above. -/
def sineLoop (i : Nat) : Nat → Fixed × Fixed → Fixed × Fixed → Fixed × Fixed
  | 0, _, acc => acc
  | t + 1, step, acc => sineLoop i t (halfAngle step.1) (if i.testBit t then rotate acc step else acc)

/-- Cosine and sine of `q` quarter turns, exactly. -/
def quarterTurns (q : Nat) : Fixed × Fixed :=
  match q % 4 with
  | 0 => (.exact 1, .exact 0)
  | 1 => (.exact 0, .exact 1)
  | 2 => (.exact (-1), .exact 0)
  | _ => (.exact 0, .exact (-1))

/-- Cosine and sine of `2πi / 2^logN`, for `logN >= 2`: the top two bits of `i` are quarter turns. -/
def cosSin (logN i : Nat) : Fixed × Fixed :=
  sineLoop i (logN - 2) (halfAngle (.exact 0)) (quarterTurns (i / 2 ^ (logN - 2)))

/-- `N` (R5). -/
def tableSize (cfg : Config) : Nat := 2 ^ cfg.logN

/-- `LUT[i]`, `0 <= i <= N` (R57, R100, R101); `LUT[N] = LUT[0]`, the wrap sentinel of the reference table. None is a
stored entry that is no rational. -/
def lut (cfg : Config) (i : Nat) : Option Ival :=
  match cfg.rom with
  | .reference => some (cosSin cfg.logN (i % tableSize cfg)).2.toIval
  | .stored entries =>
    match entries.getD i (.rat 0) with
    | .rat q => some (.point q)
    | .real _ => none

/-- `x / (2π)`. -/
def turns (x : Rat) : Ival :=
  if 0 ≤ x then ⟨x / (2 * piHi), x / (2 * piLo)⟩ else ⟨x / (2 * piLo), x / (2 * piHi)⟩

/-- The enclosure of `a * TSIN(s) + b * TSIN(s + N/4)` with `s = x * N / (2π)` (R102, R106), or none where the
enclosure of `s` does not decide the floor or an entry is no rational. With `k = floor(s)` and `f = s - k`, `TSIN(s)` is
`LUT[i] + f * (LUT[i+1] - LUT[i])`; the quarter period shifts the index alone, since `N/4` is whole. -/
def tableSum (cfg : Config) (x a b : Rat) : Option Ival :=
  let n := tableSize cfg
  let s := (turns x).scale n
  let k := s.lo.floor
  if s.hi.floor = k then
    let f : Ival := ⟨s.lo - k, s.hi - k⟩
    let i := (k % (n : Int)).toNat
    let j := (i + n / 4) % n
    match lut cfg i, lut cfg (i + 1), lut cfg j, lut cfg (j + 1) with
    | some y, some y', some z, some z' =>
      let start := (y.scale a).add (z.scale b)
      let slope := ((y'.sub y).scale a).add ((z'.sub z).scale b)
      some (start.add (Ival.mulNonneg f slope))
    | _, _, _, _ => none
  else none

/-- The enclosure of `θ - 2π * floor(θ / (2π))` (R120), or none where the enclosure of `θ / (2π)` does not decide the
floor. -/
def wrapped (θ : Rat) : Option Ival :=
  let m := (turns θ).lo.floor
  if (turns θ).hi.floor = m then
    some ((Ival.point θ).sub (Ival.scale (2 * m) ⟨piLo, piHi⟩))
  else none

end Sys2Proof.Machine
end

