-- ==== Sys2Proof/Machine/Surd.lean ====
section
/-! DEFINITION. The exact numbers `p + q*√3` with rational `p` and `q`: the field in which the results of CLARKE,
ICLARKE, SECTOR, VTIME, CMAP and SVPWM lie (spec/42_clarke_park.md, 43_svpwm.md). Every comparison is exact. -/

namespace Sys2Proof.Machine

/-- The number `p + q*√3`. -/
structure Surd where
  p : Rat
  q : Rat
deriving DecidableEq, Repr

namespace Surd

/-- A rational. -/
def ofRat (p : Rat) : Surd := ⟨p, 0⟩

/-- `r * √3`. -/
def sqrt3 (r : Rat) : Surd := ⟨0, r⟩

def add (x y : Surd) : Surd := ⟨x.p + y.p, x.q + y.q⟩

def neg (x : Surd) : Surd := ⟨-x.p, -x.q⟩

def sub (x y : Surd) : Surd := ⟨x.p - y.p, x.q - y.q⟩

/-- `r * x` for a rational `r`. -/
def scale (r : Rat) (x : Surd) : Surd := ⟨r * x.p, r * x.q⟩

def mul (x y : Surd) : Surd := ⟨x.p * y.p + 3 * (x.q * y.q), x.p * y.q + x.q * y.p⟩

/-- `x / y`, by the conjugate of `y`; 0 where `y = 0`, which no rule forms (R84). -/
def div (x y : Surd) : Surd := scale (1 / (y.p * y.p - 3 * (y.q * y.q))) (mul x ⟨y.p, -y.q⟩)

/-- `x = 0`; √3 is irrational. -/
def isZero (x : Surd) : Bool := x.p == 0 && x.q == 0

/-- `x > 0`, decided by squaring where the two parts have opposite signs. -/
def pos (x : Surd) : Bool :=
  if x.q = 0 then decide (0 < x.p)
  else if 0 < x.q then decide (0 ≤ x.p) || decide (x.p * x.p < 3 * (x.q * x.q))
  else decide (0 < x.p) && decide (3 * (x.q * x.q) < x.p * x.p)

/-- The comparison with a rational. -/
def cmp (x : Surd) (r : Rat) : Ordering :=
  let d : Surd := ⟨x.p - r, x.q⟩
  if d.pos then .gt else if d.isZero then .eq else .lt

/-- `|x - v| <= tol`. -/
def near (x : Surd) (v tol : Rat) : Bool := x.cmp (v + tol) != .gt && x.cmp (v - tol) != .lt

/-- `ENC(x)`, or none where the command ends with OVERFLOW (R77). -/
def enc (x : Surd) : Option Word :=
  if x.neg.pos then (encMag x.neg.cmp).map (joinSign true) else (encMag x.cmp).map (joinSign false)

end Surd

end Sys2Proof.Machine
end

