-- ==== Sys2Proof/Machine/Reals.lean ====
section
/-! DEFINITION. The spec's exact reals, over Mathlib's `ℝ` (spec/00_scope.md R8): the table interpolation of 40_trig.md,
the wrapped angle of 41_angle.md, the results the machine rounds, and what `ENC` makes of a real (30_encoding.md R77). The
machine computes with rationals and reads these where rationals do not decide (Machine/Specified.lean). -/

namespace Sys2Proof.Machine

/-- An exact result before rounding. -/
inductive Exact where
  /-- `p + q*√3` (42_clarke_park.md R130, R132; 43_svpwm.md). -/
  | surd (x : Surd)
  /-- `a * TSIN(s) + b * TSIN(s + N/4)` with `s = x * N / (2π)` (40_trig.md R105, R106; 42_clarke_park.md R134,
  R135). -/
  | table (x a b : Rat)
  /-- `θ - 2π * floor(θ / (2π))` (41_angle.md R120). -/
  | wrap (θ : Rat)
deriving DecidableEq, Repr

namespace Reference

/-- The real a parameter stands for (R5). -/
noncomputable def param : RealParam → ℝ
  | .rat q => q
  | .real k => Config.realParameter k

/-- `LUT[i]`, `0 <= i <= N` (R100, R101). -/
noncomputable def lut (cfg : Config) (i : Nat) : ℝ :=
  match cfg.rom with
  | .reference => if i = tableSize cfg then 0 else Real.sin (2 * Real.pi * i / tableSize cfg)
  | .stored entries => param (entries.getD i (.rat 0))

/-- `TSIN(s)`, as R102 writes it. -/
noncomputable def tsin (cfg : Config) (s : ℝ) : ℝ :=
  let k := ⌊s⌋
  let f := s - k
  let i := (k % (tableSize cfg : ℤ)).toNat
  (1 - f) * lut cfg i + f * lut cfg (i + 1)

/-- The angle in index space, `x * N / (2π)` (R102, R105). -/
noncomputable def indexSpace (cfg : Config) (x : ℝ) : ℝ := x * tableSize cfg / (2 * Real.pi)

/-- The normalized angle of NORM (R120). -/
noncomputable def normalized (θ : ℝ) : ℝ := θ - 2 * Real.pi * ⌊θ / (2 * Real.pi)⌋

/-- The real that a surd stands for. -/
noncomputable def surd (x : Surd) : ℝ := x.p + x.q * Real.sqrt 3

/-- The real that an exact result stands for. -/
noncomputable def value (cfg : Config) : Exact → ℝ
  | .surd x => surd x
  | .table x a b => a * tsin cfg (indexSpace cfg x) + b * tsin cfg (indexSpace cfg x + (tableSize cfg / 4 : ℕ))
  | .wrap θ => normalized θ

/-- `w` is the binary32 word nearest to `x`, ties to the even word, a zero always `+0` (R77). -/
def NearestEven (x : ℝ) (w : Word) : Prop :=
  ∃ v, decodeReal w = some v ∧ (v = 0 → w = 0) ∧
    ∀ w' v', decodeReal w' = some v' →
      |(v : ℝ) - x| ≤ |(v' : ℝ) - x| ∧
        (|(v : ℝ) - x| = |(v' : ℝ) - x| → v' ≠ v → w.getLsbD 0 = false)

/-- The default `ENC` as R77 states it: the nearest word, or OVERFLOW (none) from `(2 - 2^-24) * 2^127` on. -/
def IsEnc (x : ℝ) : Option Word → Prop
  | some w => |x| < (2 - 2 ^ (-24 : ℤ)) * 2 ^ (127 : ℤ) ∧ NearestEven x w
  | none => (2 - 2 ^ (-24 : ℤ)) * 2 ^ (127 : ℤ) ≤ |x|

/-- What a command makes of a rounded word (R77): a zero is `+0`, and a word that is no number is OVERFLOW. -/
def finished (w : Word) : Option Word := if isFinite w then some (if magOf w = 0 then 0 else w) else none

/-- `r` is `ENC(x)` of an instance, none where the command ends with OVERFLOW (R5, R77): the default, or another
rounding under R77's rules for zeros and for words that are no numbers. -/
def Encodes (enc : Rounding) (x : ℝ) (r : Option Word) : Prop :=
  match enc with
  | .nearestEven => IsEnc x r
  | .other k => (x = 0 → r = some 0) ∧ (x ≠ 0 → r = finished (Config.otherRounding k x))

end Reference

end Sys2Proof.Machine
end

