-- ==== Sys2Proof/Machine/Specified.lean ====
section
/-! DEFINITION. Values that a statement fixes and no computation finds: how the model holds to the spec's exact reals
(spec/00_scope.md R8) where rational arithmetic does not decide (log 5). -/

namespace Sys2Proof.Machine

/-- A member of a type that has one. In the logic it is some member, and nothing but its type is known of it; as a
program it is a search that does not end. The model comes here only where its rational arithmetic has not decided. -/
def specified {α : Type} [Nonempty α] (search : Unit) : α := specified search
partial_fixpoint

/-- A value that satisfies `P`, where one does. -/
def suchThat {α : Type} [Nonempty α] (P : α → Prop) : α :=
  (@specified { a : α // (∃ b, P b) → P a }
    (by
      by_cases h : ∃ b, P b
      · exact ⟨h.choose, fun _ => h.choose_spec⟩
      · exact ⟨Classical.ofNonempty, fun h' => absurd h' h⟩) ()).val

/-- Whether `P` holds. -/
def holds (P : Prop) : Bool := suchThat fun b => b = true ↔ P

/-- Whether `P` holds: the answer that arithmetic gives, and where it gives none, the truth. -/
def decideBy (computed : Option Bool) (P : Prop) : Bool :=
  match computed with
  | some b => b
  | none => holds P

end Sys2Proof.Machine
end

