-- ==== Sys2Proof/Machine/Parameters.lean ====
section
/-! DEFINITION. Questions about the real parameters of an instance (spec/00_scope.md R5): by arithmetic where the parameter
is a rational, and else by the real it stands for. -/

namespace Sys2Proof.RealParam

open Sys2Proof.Machine.Reference (param)

/-- A question about a parameter: by arithmetic where it is a rational. -/
def test (p : RealParam) (onRat : Rat → Bool) (P : ℝ → Prop) : Bool :=
  match p with
  | .rat q => onRat q
  | .real _ => Machine.holds (P (param p))

/-- The parameter is 0. -/
def isZero (p : RealParam) : Bool := p.test (fun q => q.num == 0) (fun x => x = 0)

/-- The parameter is `>= 0`. -/
def isNonneg (p : RealParam) : Bool := p.test (fun q => 0 ≤ q.num) (fun x => 0 ≤ x)

/-- The parameter is `> 0`. -/
def isPos (p : RealParam) : Bool := p.test (fun q => 0 < q.num) (fun x => 0 < x)

/-- The parameter is below a rational. -/
def isBelow (p : RealParam) (y : Rat) : Bool := p.test (fun q => q < y) (fun x => x < y)

/-- Two parameters are one real. -/
def same : RealParam → RealParam → Bool
  | .rat p, .rat q => p == q
  | .rat p, .real k => Machine.holds (param (.rat p) = param (.real k))
  | .real k, q => Machine.holds (param (.real k) = param q)

end Sys2Proof.RealParam
end

