-- ==== Sys2Proof/Machine/Exact.lean ====
section
/-! DEFINITION. The rounding of the exact results: `ENC` (spec/30_encoding.md R77), and for a tolerant implementation R78
and 41_angle.md R124. Rational arithmetic answers where it decides; elsewhere the answer is the one that the exact reals
fix (log 5). -/

namespace Sys2Proof.Machine

open Reference (value param)

namespace Exact

/-- The enclosure of a result that involves π, where its floor is decided. -/
def enclosure (cfg : Config) : Exact → Option Ival
  | .surd _ => none
  | .table x a b => tableSum cfg x a b
  | .wrap θ => wrapped θ

/-- The default `ENC` of the result where rational arithmetic decides it: a word, or none inside for OVERFLOW (R77). A
surd is always decided. -/
def encDecided (cfg : Config) : Exact → Option (Option Word)
  | .surd x => some x.enc
  | .table x a b => (tableSum cfg x a b).bind Ival.enc
  | .wrap θ => (wrapped θ).bind Ival.enc

/-- `ENC` of the result (R77); none is OVERFLOW. -/
def enc (cfg : Config) (e : Exact) : Option Word :=
  match cfg.enc, e.encDecided cfg with
  | .nearestEven, some r => r
  | .nearestEven, none => suchThat (Reference.Encodes .nearestEven (value cfg e))
  | .other k, _ => suchThat (Reference.Encodes (.other k) (value cfg e))

/-- Whether the result lies within the rational `tol` of `v`, where rational arithmetic decides it. -/
def nearDecided (cfg : Config) (v tol : Rat) : Exact → Option Bool
  | .surd x => some (x.near v tol)
  | .table x a b => (tableSum cfg x a b).bind fun i => i.near v tol
  | .wrap θ => (wrapped θ).bind fun i => i.near v tol

/-- Whether the result lies within `tol` of `v` (R78, R155, R164). -/
def near (cfg : Config) (v : Rat) (tol : RealParam) (e : Exact) : Bool :=
  decideBy (match tol with | .rat t => e.nearDecided cfg v t | .real _ => none) (|value cfg e - v| ≤ param tol)

/-- Whether the result lies within the rational `tol` of `v` the other way round the circle, where the enclosure decides
it. -/
def nearAroundDecided (cfg : Config) (v tol : Rat) (e : Exact) : Option Bool :=
  match e.enclosure cfg with
  | none => none
  | some i =>
    if 2 * piHi - tol ≤ v - i.hi || 2 * piHi - tol ≤ i.lo - v then some true
    else if v - i.lo < 2 * piLo - tol && i.hi - v < 2 * piLo - tol then some false
    else none

/-- Whether `2π - |v - r| <= tol` (R124). -/
def nearAround (cfg : Config) (v : Rat) (tol : RealParam) (e : Exact) : Bool :=
  decideBy (match tol with | .rat t => e.nearAroundDecided cfg v t | .real _ => none)
    (2 * Real.pi - |v - value cfg e| ≤ param tol)

end Exact

/-! ### Which words conform -/

/-- How a command's result words conform (R78). -/
inductive Conformance where
  /-- Within `tol`. -/
  | plain (tol : RealParam)
  /-- SIN and COS: in `[-1, 1]` besides, and only that where `far` says `|x| > X_ACC` (R112). -/
  | unitRange (tol : RealParam) (far : Bool)
  /-- NORM: in `[0, 2π)`, and within `tol` on the circle (R124). -/
  | circle (tol : RealParam)
  /-- A result that R201 says cannot overflow, since R161 or R169 promise it in `[0, hi]`: within `tol`. The promise is
  read only where the result would overflow (log 22). -/
  | bounded (tol : RealParam) (hi : Rat)
deriving DecidableEq, Repr

namespace Conformance

/-- Whether any word but the exact model's is admitted (R78: "With all tolerances 0 the model is deterministic"). -/
def tolerant : Conformance → Bool
  | .plain tol => !tol.isZero
  | .unitRange tol far => far || !tol.isZero
  | .circle tol => !tol.isZero
  | .bounded tol _ => !tol.isZero

/-- The range the rules promise for the value of a result: `[-1, 1]` (R78, R107), `[0, 2π)` (R123), `[0, hi]` (R161,
R169). -/
def inRange (k : Conformance) (w : Word) : Bool :=
  match decodeReal w with
  | none => false
  | some v =>
    match k with
    | .plain _ => true
    | .unitRange _ _ => -1 ≤ v && v ≤ 1
    | .circle _ => 0 ≤ v && belowTwoPi v
    | .bounded _ hi => 0 ≤ v && v ≤ max 0 hi

/-- Whether a word conforms (R78, R112, R124). -/
def conforms (cfg : Config) (k : Conformance) (e : Exact) (w : Word) : Bool :=
  match decodeReal w with
  | none => false
  | some v =>
    match k with
    | .plain tol => e.near cfg v tol
    | .unitRange tol far => k.inRange w && (far || e.near cfg v tol)
    | .circle tol => k.inRange w && (e.near cfg v tol || e.nearAround cfg v tol)
    | .bounded tol _ => e.near cfg v tol

/-- Whether `ENC` of a result may stand: only SIN, COS and NORM are held to their range (R78, R123). DESIGN CHOICE
(log 22): on a stored table with entries outside `[-1, 1]`, which R5 and R233 allow, R105 says `ENC(r)` where R78, R107 and
R201 say a word in `[-1, 1]`; the latter are followed. -/
def keeps (k : Conformance) (w : Word) : Bool :=
  match k with
  | .plain _ => true
  | .unitRange _ _ => k.inRange w
  | .circle _ => k.inRange w
  | .bounded _ _ => true

/-- Whether the result may end the command with OVERFLOW (R201). -/
def mayOverflow : Conformance → Bool
  | .plain _ => true
  | .unitRange _ _ => false
  | .circle _ => false
  | .bounded _ _ => false

/-- Whether a word may stand in for a result whose `ENC` breaks its range: a word in the range, not `-0` ("a zero result is
always `+0`", R85), and a conforming one where some word in the range conforms (log 22). -/
def admissible (cfg : Config) (k : Conformance) (e : Exact) (w : Word) : Bool :=
  k.inRange w && w != 0x80000000 && (k.conforms cfg e w || holds (¬ ∃ u, k.inRange u = true ∧ k.conforms cfg e u = true))

/-- The word for a result whose `ENC` breaks the range the rules promise: the free value where that is admissible, and
else a word that is. DESIGN CHOICE (log 22). -/
def standIn (cfg : Config) (free : Word) (k : Conformance) (e : Exact) : Word :=
  if k.admissible cfg e free then free else suchThat fun w => k.admissible cfg e w = true

end Conformance

/-- The last line of R120: a NORM result that rounds to `2π` or above is 0. -/
def clampTwoPi (w : Word) : Word :=
  match decodeReal w with
  | none => w
  | some v => if belowTwoPi v then w else 0

/-- The word that `ENC` gives a result, with NORM's last line (R77, R120); none is OVERFLOW. -/
def roundedWord (cfg : Config) (k : Conformance) (e : Exact) : Option Word :=
  match k with
  | .plain _ => e.enc cfg
  | .unitRange _ _ => e.enc cfg
  | .circle _ => (e.enc cfg).map clampTwoPi
  | .bounded _ _ => e.enc cfg

/-- The exact model's word for a result; none is OVERFLOW. -/
def exactWord (cfg : Config) (free : Word) (k : Conformance) (e : Exact) : Option Word :=
  match roundedWord cfg k e with
  | some w => some (if k.keeps w then w else k.standIn cfg free e)
  | none => if k.mayOverflow then none else some (k.standIn cfg free e)

/-- The word delivered for output `j` of a command: in a tolerant instance the free word where that conforms (R78; log
6), and the exact model's otherwise. DESIGN CHOICE (log 23): the exact model's word is delivered also where it lies outside
the tolerance itself, as it can where the tolerance is smaller than a rounding error. -/
def deliveredWord (cfg : Config) (cmd : Word) (operands : List Word) (k : Conformance) (j : Nat) (e : Exact) :
    Option Word :=
  if k.tolerant && k.conforms cfg e (cfg.tolerantWord cmd operands j) then some (cfg.tolerantWord cmd operands j)
  else exactWord cfg (cfg.unstated cmd operands j) k e

end Sys2Proof.Machine
end

