-- ==== Sys2Proof/Machine/State.lean ====
section
/-! DEFINITION. The state of the block and of its host (spec/10_state.md R20 to R31, 60_exceptions.md R213), the
reasons a step can stop, and the state after reset (70_reset_and_hazards.md R230). -/

namespace Sys2Proof.Machine

/-- An operand register (R26). -/
inductive InReg where
  | in0 | in1 | in2
deriving DecidableEq, Repr

/-- A result register (R27). -/
inductive OutReg where
  | out0 | out1 | out2 | out3 | out4 | out5
deriving DecidableEq, Repr

/-- The sixteen registers of the window (R23). -/
inductive WindowReg where
  | cmd | status | inp (r : InReg) | sector | out (r : OutReg) | cfgN | cfgTs | cfgUdc | cfgMaxc
deriving DecidableEq, Repr

/-- A register whose contents are unspecified until it is written: its word and its written mark (R26, R27, R31).
While the mark is false the stored word stands for nothing and no read gives it (log 3). -/
structure Reg where
  word    : Word
  written : Bool
deriving DecidableEq, Repr

/-- IN0 to IN2, or their latches LIN0 to LIN2 (R26, R30). -/
structure InRegs where
  in0 : Reg
  in1 : Reg
  in2 : Reg
deriving DecidableEq, Repr

/-- OUT0 to OUT5 (R27). -/
structure OutRegs where
  out0 : Reg
  out1 : Reg
  out2 : Reg
  out3 : Reg
  out4 : Reg
  out5 : Reg
deriving DecidableEq, Repr

/-- The completion codes of R200; "Codes 6 to 15 are never written". -/
inductive Code where
  | ok | illegalOp | illegalSector | nonfinite | angleRange | overflow
deriving DecidableEq, Repr

/-- What a host write stores (R83): a word, a host variable, or the command word that `VTIME @SECTOR` and
`CMAP @SECTOR` form from `s[2:0]` of a variable and an operation code. -/
inductive Source where
  | word (w : Word)
  | var (name : Nat)
  | sectorCommand (op : BitVec 4) (name : Nat)
deriving DecidableEq, Repr

/-- One line of a host script (R83): WR, RD and BNZ, with the access's address and size in bytes written out, since
the bus also carries accesses the block does not define (R51). -/
inductive HostOp where
  | write (addr size : Nat) (src : Source)
  | read (addr size : Nat) (dst : Nat)
  | branchIfSet (name bit target : Nat)
deriving DecidableEq, Repr

/-- The host agent (R213): its script, the position of its next line, and its variables in rising order of name. -/
structure HostAgent where
  script : List HostOp
  next   : Nat
  vars   : List (Nat × Word)
deriving DecidableEq, Repr

/-- Who makes a move: the host (one script line), the block (`complete()`), or the platform's reset line
(R213, R230). -/
inductive Move where
  | host | block | reset
deriving DecidableEq, Repr

/-- The whole state (R20). -/
structure State where
  /-- CMD (R24). -/
  cmd    : Word
  /-- STATUS.BUSY, also the hidden flag BUSY (R25, R30). -/
  busy   : Bool
  /-- STATUS.FAULT, sticky (R25). -/
  fault  : Bool
  /-- STATUS.OVR, sticky (R25, R207). -/
  ovr    : Bool
  /-- STATUS.SAT (R25, R164). -/
  sat    : Bool
  /-- STATUS.CODE (R25, R200). -/
  code   : Code
  /-- IN0 to IN2 with their written marks (R26, R31). -/
  inp    : InRegs
  /-- SECTOR[2:0] (R28). -/
  sector : BitVec 3
  /-- OUT0 to OUT5 with the model's written marks (R27; log 3). -/
  out    : OutRegs
  /-- The configuration constants and the ROM (R21, R22, R29). -/
  cfg    : Config
  /-- The latched command LCMD (R30). -/
  lcmd   : Word
  /-- The latched operands LIN0 to LIN2 with the marks copied at acceptance (R30, R31). -/
  lin    : InRegs
  /-- The model's own: how many resets have happened, the argument of the unspecified contents (log 3). -/
  resets : Nat
  /-- The model's own: the moves to come, oldest first (log 1). -/
  agenda : List Move
  /-- The host agent (R213; log 2). -/
  host   : HostAgent
deriving DecidableEq, Repr

/-- Why the machine stops with a fault. -/
inductive Fault where
  /-- UNWRITTEN_OPERAND (R210), raised by every command that reads an operand never written since reset while
  `Config.operandCheck` holds. Safe: the chip goes on, so the model only proves less. -/
  | unwrittenOperand
deriving DecidableEq, Repr

/-- Why a step is refused. -/
inductive Refusal where
  /-- An instruction that has no meaning yet, by its mnemonic. No arm of `exec` is refused so. -/
  | notModelled (mnemonic : String)
  /-- BUS_ERROR_POLICY (R51): a host access that is not 32 bits wide, aligned and inside the window, raised by the
  host's own move. "A model refuses such an access: the host agent is stuck on it." Safe. -/
  | busError (addr size : Nat)
  /-- A configuration R233 does not allow, raised by `step` ("no machine is built for it"). Safe. -/
  | illegalConfiguration
  /-- A host script uses a variable it has not read into, raised by the host's own move (log 2). Safe. -/
  | hostVariableUnset (name : Nat)
deriving DecidableEq, Repr

/-- A register that nothing has written since reset (R26, R27, R230; the stored 0 is DESIGN CHOICE, log 3). -/
def Reg.unwritten : Reg := ⟨0, false⟩

/-- IN0 to IN2, or the latches, at reset (R230). -/
def InRegs.unwritten : InRegs := ⟨.unwritten, .unwritten, .unwritten⟩

/-- OUT0 to OUT5 at reset (R230). -/
def OutRegs.unwritten : OutRegs := ⟨.unwritten, .unwritten, .unwritten, .unwritten, .unwritten, .unwritten⟩

/-- The machine right after power-up (R230, R23), in the default configuration (log 4), with a host that has no
script (log 2). -/
def State.reset : State where
  cmd    := 0
  busy   := false
  fault  := false
  ovr    := false
  sat    := false
  code   := .ok
  inp    := .unwritten
  sector := 0
  out    := .unwritten
  cfg    := {}
  lcmd   := 0
  lin    := .unwritten
  resets := 0
  agenda := []
  host   := ⟨[], 0, []⟩

end Sys2Proof.Machine
end

