-- ==== Sys2Proof/Machine/Flags.lean ====
section
/-! DEFINITION. STATUS: its word and its fields' updates (spec/10_state.md R25, 60_exceptions.md R200). -/

namespace Sys2Proof.Machine

/-- The number of a completion code (R200). -/
def codeBits : Code → BitVec 4
  | .ok => 0
  | .illegalOp => 1
  | .illegalSector => 2
  | .nonfinite => 3
  | .angleRange => 4
  | .overflow => 5

/-- The word STATUS reads as (R25): CODE in bits 7:4, then SAT, OVR, FAULT, BUSY; bits 31:8 read as 0. -/
def statusWord (s : State) : Word :=
  (0 : BitVec 24) ++ codeBits s.code ++ BitVec.ofBool s.sat ++ BitVec.ofBool s.ovr ++ BitVec.ofBool s.fault ++
    BitVec.ofBool s.busy

/-- The part of `commit` that every completion does (R30): CODE is written, a code other than OK sets the sticky
FAULT, and BUSY falls. -/
def completeStatus (c : Code) (s : State) : State :=
  { s with code := c, fault := s.fault || c != .ok, busy := false }

/-- The sticky OVR of a dropped command (R207). -/
def setOverrun (s : State) : State := { s with ovr := true }

end Sys2Proof.Machine
end

