-- ==== Sys2Proof/Machine/Operands.lean ====
section
/-! DEFINITION. The operand and result registers, and how a command reads its operands from the latches
(spec/10_state.md R26, R27, R30, R31; 30_encoding.md R76, R79). -/

namespace Sys2Proof.Machine

/-- One of IN0 to IN2, or of their latches. -/
def InRegs.get (r : InRegs) : InReg → Reg
  | .in0 => r.in0
  | .in1 => r.in1
  | .in2 => r.in2

/-- The registers with one of them replaced. -/
def InRegs.set (r : InRegs) (k : InReg) (v : Reg) : InRegs :=
  match k with
  | .in0 => { r with in0 := v }
  | .in1 => { r with in1 := v }
  | .in2 => { r with in2 := v }

/-- One of OUT0 to OUT5. -/
def OutRegs.get (r : OutRegs) : OutReg → Reg
  | .out0 => r.out0
  | .out1 => r.out1
  | .out2 => r.out2
  | .out3 => r.out3
  | .out4 => r.out4
  | .out5 => r.out5

/-- The registers with one of them replaced. -/
def OutRegs.set (r : OutRegs) (k : OutReg) (v : Reg) : OutRegs :=
  match k with
  | .out0 => { r with out0 := v }
  | .out1 => { r with out1 := v }
  | .out2 => { r with out2 := v }
  | .out3 => { r with out3 := v }
  | .out4 => { r with out4 := v }
  | .out5 => { r with out5 := v }

/-- The slot of an operand register among the unspecified contents (log 3). -/
def inSlot : InReg → Nat
  | .in0 => 0
  | .in1 => 1
  | .in2 => 2

/-- The index of a result register. -/
def outIndex : OutReg → Nat
  | .out0 => 0
  | .out1 => 1
  | .out2 => 2
  | .out3 => 3
  | .out4 => 4
  | .out5 => 5

/-- The slot of a result register among the unspecified contents (log 3). -/
def outSlot (k : OutReg) : Nat := 3 + outIndex k

/-- What a register holds: the word last written, or a free value where nothing has been written since the last
reset (R26, R27, 93_implementation_defined.md). -/
def contents (resets slot : Nat) (r : Reg) : Word := if r.written then r.word else Config.unspecified resets slot

/-- The latched word of an operand (R30). -/
def operandWord (s : State) (k : InReg) : Word := contents s.resets (inSlot k) (s.lin.get k)

/-- The latched words of the operands a command reads. -/
def operandWords (s : State) (reads : List InReg) : List Word := reads.map (operandWord s)

/-- Every operand the command reads was written before its acceptance (R31). -/
def operandsWritten (s : State) (reads : List InReg) : Bool := reads.all fun k => (s.lin.get k).written

/-- The latched operand as a number; none where it is NaN or infinite (R76). -/
def operand (s : State) (k : InReg) : Option Rat := decodeReal (operandWord s k)

end Sys2Proof.Machine
end

