-- ==== Sys2Proof/Machine/Ops.lean ====
section
/-! DEFINITION. The shared operations: acceptance, completion with its commit and its fault entry, and the reset
event (spec/10_state.md R24, R30; 60_exceptions.md R200 to R207, R210; 70_reset_and_hazards.md R230, R231). -/

namespace Sys2Proof.Machine

/-- What a command without a fault writes (R79): OUT registers, and SECTOR and SAT where the command has them. -/
structure Commit where
  outs   : List (OutReg × Word)
  sector : Option (BitVec 3) := none
  sat    : Option Bool := none
deriving DecidableEq, Repr

/-- FAULT ENTRY (R203): "`STATUS.CODE <- code`, `STATUS.FAULT <- 1`, `STATUS.BUSY <- 0`. Nothing else changes". It is
the one operation every completion code other than OK goes through. There is no return from it (R206): the next
accepted command runs as usual. -/
def faultEntry (c : Code) (s : State) : State := completeStatus c s

/-- Write the OUT registers of a commit, in order (R27). -/
def writeOuts (outs : OutRegs) : List (OutReg × Word) → OutRegs
  | [] => outs
  | (k, w) :: rest => writeOuts (outs.set k ⟨w, true⟩) rest

/-- The commit of a command without a fault, all at one instant (R30, R204). -/
def commitOk (c : Commit) (s : State) : State :=
  completeStatus .ok
    { s with
      out := writeOuts s.out c.outs
      sector := c.sector.getD s.sector
      sat := c.sat.getD s.sat }

/-- `commit(code, outs)` (R30). -/
def commit (r : Except Code Commit) (s : State) : State :=
  match r with
  | .ok c => commitOk c s
  | .error c => faultEntry c s

/-- Run a command that reads the operands `reads` and computes `result`: the check of R210 at its place in R202, the
model-only fault, then the computation and its commit. The checks before it (ILLEGAL_OP, ILLEGAL_SECTOR) have
passed. -/
def runCommand (reads : List InReg) (result : State → Except Code Commit) (s : State) :
    Host.Outcome State Fault Refusal :=
  if s.cfg.operandCheck && !operandsWritten s reads then .fault .unwrittenOperand
  else .next (commit (result s) s)

/-- The words of a command's results, each by its register's conformance, or none where one of them overflows: "OVERFLOW
in one result of a multi-result command suppresses all of them" (R204). -/
def outWords (cfg : Config) (cmd : Word) (operands : List Word) (how : OutReg → Conformance) :
    List (OutReg × Exact) → Option (List (OutReg × Word))
  | [] => some []
  | (r, e) :: rest =>
    match deliveredWord cfg cmd operands (how r) (outIndex r) e with
    | none => none
    | some w => (outWords cfg cmd operands how rest).map fun ws => (r, w) :: ws

/-- Round a command's exact results and make its commit of them, or end with OVERFLOW (R77, R202 step 8). -/
def deliver (s : State) (reads : List InReg) (how : OutReg → Conformance) (results : List (OutReg × Exact))
    (sector : Option (BitVec 3) := none) (sat : Option Bool := none) : Except Code Commit :=
  match outWords s.cfg s.lcmd (operandWords s reads) how results with
  | none => .error .overflow
  | some ws => .ok ⟨ws, sector, sat⟩

/-- A command of which R201 says that it cannot overflow: a draw of a tolerant instance (43_svpwm.md R155, R164) with which it
would is not admitted, and the command then delivers its results without draws. DESIGN CHOICE (log 22). -/
def unlessOverflow (drawn undrawn : Except Code Commit) : Except Code Commit :=
  match drawn with
  | .ok c => .ok c
  | .error _ => undrawn

/-- `accept(c)` (R30): CMD and LCMD take the word, the latches take IN0 to IN2 with their marks, BUSY rises. -/
def accept (c : Word) (s : State) : State :=
  { s with cmd := c, lcmd := c, lin := s.inp, busy := true }

/-- A host write of CMD (R24): accepted while idle; while busy it is dropped and sets OVR (R207). -/
def writeCmd (c : Word) (s : State) : State := if s.busy then setOverrun s else accept c s

/-- A host write of IN0, IN1 or IN2 (R26, R31). -/
def writeIn (k : InReg) (w : Word) (s : State) : State := { s with inp := s.inp.set k ⟨w, true⟩ }

/-- The reset event (R230): a command in flight is abandoned (R231); the ROM and the configuration stay (R232), and
so does the host, which is another agent. -/
def resetBlock (s : State) : State :=
  { s with
    cmd := 0, busy := false, fault := false, ovr := false, sat := false, code := .ok
    inp := .unwritten, sector := 0, out := .unwritten, lcmd := 0, lin := .unwritten
    resets := s.resets + 1 }

/-- A register's word counted as written by the host (R31, R234). -/
def Reg.markWritten (r : Reg) : Reg := { r with written := true }

/-- The block with `w` as the command in flight and the block to move next: the host has written the operand
registers (R234) with the words they hold and then CMD (R30), and the agenda's next move is the completion. It is
how a command is placed without a host script (log 2). -/
def placeCommand (w : Word) (s : State) : State :=
  let inp : InRegs := ⟨s.inp.in0.markWritten, s.inp.in1.markWritten, s.inp.in2.markWritten⟩
  { s with cmd := w, lcmd := w, inp := inp, lin := inp, busy := true, agenda := .block :: s.agenda }

end Sys2Proof.Machine
end

