-- ==== Sys2Proof/Machine/Angle.lean ====
section
/-! DEFINITION. NORM (spec/41_angle.md R120). -/

namespace Sys2Proof.Machine

/-- NORM's computation (R120): `OUT0 <- ENC(θ - 2π * floor(θ / (2π)))`, and 0 where that is `2π` or above. -/
def normResult (s : State) : Except Code Commit :=
  match operand s .in0 with
  | none => .error .nonfinite
  | some θ => deliver s [.in0] (fun _ => .circle s.cfg.tolOp.norm) [(.out0, .wrap θ)]

/-- NORM (R120). -/
def execNorm (s : State) : Host.Outcome State Fault Refusal := runCommand [.in0] normResult s

end Sys2Proof.Machine
end

