-- ==== Sys2Proof/Machine/ClarkePark.lean ====
section
/-! DEFINITION. CLARKE, ICLARKE, PARK and IPARK (spec/42_clarke_park.md R130 to R136). -/

namespace Sys2Proof.Machine

/-- CLARKE's results (R130): `alpha = u`, `beta = (u + 2v) / √3`, and `1 / √3 = √3 / 3`. IN2 is not read (R131). -/
def clarkeResults (u v : Rat) : List (OutReg × Exact) :=
  [(.out0, .surd (.ofRat u)), (.out1, .surd (.sqrt3 ((u + 2 * v) / 3)))]

/-- CLARKE's computation (R130). -/
def clarkeResult (s : State) : Except Code Commit :=
  match operand s .in0, operand s .in1 with
  | some u, some v => deliver s [.in0, .in1] (fun _ => .plain s.cfg.tolOp.clarke) (clarkeResults u v)
  | _, _ => .error .nonfinite

/-- CLARKE (R130). -/
def execClarke (s : State) : Host.Outcome State Fault Refusal := runCommand [.in0, .in1] clarkeResult s

/-- ICLARKE's results (R132): `u = alpha`, `v = (-alpha + √3*beta) / 2`, `w = (-alpha - √3*beta) / 2`. -/
def iclarkeResults (alpha beta : Rat) : List (OutReg × Exact) :=
  [(.out0, .surd (.ofRat alpha)), (.out1, .surd ⟨-alpha / 2, beta / 2⟩), (.out2, .surd ⟨-alpha / 2, -beta / 2⟩)]

/-- ICLARKE's computation (R132). -/
def iclarkeResult (s : State) : Except Code Commit :=
  match operand s .in0, operand s .in1 with
  | some alpha, some beta => deliver s [.in0, .in1] (fun _ => .plain s.cfg.tolOp.iclarke) (iclarkeResults alpha beta)
  | _, _ => .error .nonfinite

/-- ICLARKE (R132). -/
def execIclarke (s : State) : Host.Outcome State Fault Refusal := runCommand [.in0, .in1] iclarkeResult s

/-- `0 <= θ < 2π` (R136). -/
def angleInRange (θ : Rat) : Bool := 0 ≤ θ && belowTwoPi θ

/-- PARK's results (R134), with `s` and `c` the sine and cosine of θ, not re-encoded: `id = c*alpha + s*beta`,
`iq = -s*alpha + c*beta`. -/
def parkResults (alpha beta θ : Rat) : List (OutReg × Exact) :=
  [(.out0, .table θ beta alpha), (.out1, .table θ (-alpha) beta)]

/-- PARK's computation (R134), with its checks in the order of R202. -/
def parkResult (s : State) : Except Code Commit :=
  match operand s .in0, operand s .in1, operand s .in2 with
  | some alpha, some beta, some θ =>
    if angleInRange θ then
      deliver s [.in0, .in1, .in2] (fun _ => .plain s.cfg.tolOp.park) (parkResults alpha beta θ)
    else .error .angleRange
  | _, _, _ => .error .nonfinite

/-- PARK (R134). -/
def execPark (s : State) : Host.Outcome State Fault Refusal := runCommand [.in0, .in1, .in2] parkResult s

/-- IPARK's results (R135): `alpha = c*id - s*iq`, `beta = s*id + c*iq`. -/
def iparkResults (id iq θ : Rat) : List (OutReg × Exact) :=
  [(.out0, .table θ (-iq) id), (.out1, .table θ id iq)]

/-- IPARK's computation (R135), with its checks in the order of R202. -/
def iparkResult (s : State) : Except Code Commit :=
  match operand s .in0, operand s .in1, operand s .in2 with
  | some id, some iq, some θ =>
    if angleInRange θ then
      deliver s [.in0, .in1, .in2] (fun _ => .plain s.cfg.tolOp.ipark) (iparkResults id iq θ)
    else .error .angleRange
  | _, _, _ => .error .nonfinite

/-- IPARK (R135). -/
def execIpark (s : State) : Host.Outcome State Fault Refusal := runCommand [.in0, .in1, .in2] iparkResult s

end Sys2Proof.Machine
end

