-- ==== Sys2Proof/Machine/Legality.lean ====
section
/-! DEFINITION. Which configurations have a machine (spec/00_scope.md R5, 70_reset_and_hazards.md R233). -/

namespace Sys2Proof.Machine

/-- `Ts = DEC(CFG_TS)` (R76). -/
def switchingPeriod (cfg : Config) : Rat := (decodeReal cfg.ts).getD 0

/-- `Udc = DEC(CFG_UDC)` (R76). -/
def busVoltage (cfg : Config) : Rat := (decodeReal cfg.udc).getD 0

/-- `MAX_COUNTER` as a number (R76). -/
def maxCount (cfg : Config) : Rat := cfg.maxCounter.toNat

/-- `w` is a finite binary32 word with a value `> 0` (R5). -/
def positiveWord (w : Word) : Bool := isFinite w && !w.getLsbD 31 && magOf w != 0

/-- Every entry of `TOL_OP` is `>= 0` (R5). -/
def tolOpLegal (t : TolOp) : Bool :=
  t.sin.isNonneg && t.cos.isNonneg && t.norm.isNonneg && t.clarke.isNonneg && t.iclarke.isNonneg && t.park.isNonneg &&
    t.ipark.isNonneg && t.vtime.isNonneg && t.cmap.isNonneg && t.svpwm.isNonneg

/-- Whether a rational entry `k` is within a rational tolerance of `sin(2πk/N)`, where the enclosure of the sine decides
it. -/
def entryDecided (cfg : Config) (k : Nat) (entry : RealParam) : Option Bool :=
  match entry, cfg.tolLut with
  | .rat e, .rat tol => (cosSin cfg.logN (k % tableSize cfg)).2.toIval.near e tol
  | .rat _, .real _ => none
  | .real _, _ => none

/-- Entry `k` of a stored table is within `TOL_LUT` of `sin(2πk/N)` (R101). -/
def entryLegal (cfg : Config) (k : Nat) (entry : RealParam) : Bool :=
  decideBy (entryDecided cfg k entry)
    (|Reference.param entry - Real.sin (2 * Real.pi * k / tableSize cfg)| ≤ Reference.param cfg.tolLut)

/-- Entries `k`, `k+1`, … of a stored table are legal. -/
def entriesLegal (cfg : Config) : Nat → List RealParam → Bool
  | _, [] => true
  | k, e :: rest => entryLegal cfg k e && entriesLegal cfg (k + 1) rest

/-- The ROM is the reference table, or `N+1` stored entries within `TOL_LUT` and with `LUT_IMPL[N] = LUT_IMPL[0]`
(R101, R233). The sentinel repeats entry 0, so entries 0 to N-1 are the ones held to the sine. -/
def romLegal (cfg : Config) : Bool :=
  match cfg.rom with
  | .reference => true
  | .stored entries =>
    entries.length == tableSize cfg + 1 && (entries.getD (tableSize cfg) (.rat 0)).same (entries.getD 0 (.rat 0)) &&
      entriesLegal cfg 0 (entries.take (tableSize cfg))

/-- The conditions of R5 and R233. -/
def configLegal (cfg : Config) : Bool :=
  2 ≤ cfg.logN && cfg.logN ≤ 16 && positiveWord cfg.ts && positiveWord cfg.udc && cfg.maxCounter != 0 &&
    cfg.base % 64 == 0 && romLegal cfg && cfg.tolLut.isNonneg && tolOpLegal cfg.tolOp && cfg.tolSector.isNonneg &&
    cfg.tolSat.isNonneg && (match cfg.xAcc with | none => true | some x => x.isPos)

end Sys2Proof.Machine
end

