-- ==== Sys2Proof/Machine/Svpwm.lean ====
section
/-! DEFINITION. SECTOR, VTIME, CMAP and SVPWM (spec/43_svpwm.md R150 to R170). -/

namespace Sys2Proof.Machine

/-- A sector code, 1 to 6 (R151); the code does not number the regions in angular order (R152). -/
inductive Sector where
  | s1 | s2 | s3 | s4 | s5 | s6
deriving DecidableEq, Repr

/-- The sector operand of VTIME and CMAP; 0 and 7 are none (R72). -/
def sectorOfBits (b : BitVec 3) : Option Sector :=
  match b.toNat with
  | 1 => some .s1
  | 2 => some .s2
  | 3 => some .s3
  | 4 => some .s4
  | 5 => some .s5
  | 6 => some .s6
  | _ => none

/-- The number of a sector (R28). -/
def sectorBits : Sector → BitVec 3
  | .s1 => 1
  | .s2 => 2
  | .s3 => 3
  | .s4 => 4
  | .s5 => 5
  | .s6 => 6

/-- `d1`, `d2`, `d3` of R150. -/
def discriminants (alpha beta : Rat) : Surd × Surd × Surd :=
  (.ofRat beta, ⟨-beta / 2, alpha / 2⟩, ⟨-beta / 2, -alpha / 2⟩)

/-- The code of R150 from its three bits. -/
def sectorCode (b0 b1 b2 : Bool) : BitVec 3 := BitVec.ofBool b2 ++ BitVec.ofBool b1 ++ BitVec.ofBool b0

/-- R151: "`sector <- code` for code 1 to 6. `sector <- 6` for code 0 or 7." -/
def sectorOfCode (code : BitVec 3) : Sector := (sectorOfBits code).getD .s6

/-- The sector of a vector: the strict, exact tests of R150, and R151. -/
def ownSector (alpha beta : Rat) : Sector :=
  let d := discriminants alpha beta
  sectorOfCode (sectorCode d.1.pos d.2.1.pos d.2.2.pos)

/-- Bit `j` of the code, for `j` 1 or 2: `d > 0`, strictly (R150); inside the band of a tolerant instance either value
(R155; the choice's number is 16 + j, log 6). -/
def relaxedBit (s : State) (reads : List InReg) (j : Nat) (d : Surd) : Bool :=
  if !s.cfg.tolSector.isZero && (Exact.surd d).near s.cfg 0 s.cfg.tolSector then
    s.cfg.tolerantBit s.lcmd (operandWords s reads) (16 + j)
  else d.pos

/-- The classification of a vector (R150, R151, R155). Bit 0 is exact in every instance: R155 relaxes the bits of `d2` and
`d3` alone. -/
def classify (s : State) (reads : List InReg) (alpha beta : Rat) : Sector :=
  let d := discriminants alpha beta
  sectorOfCode (sectorCode d.1.pos (relaxedBit s reads 1 d.2.1) (relaxedBit s reads 2 d.2.2))

/-- SECTOR's computation (R156); it writes no numeric result. -/
def sectorResult (s : State) : Except Code Commit :=
  match operand s .in0, operand s .in1 with
  | some alpha, some beta => .ok ⟨[], some (sectorBits (classify s [.in0, .in1] alpha beta)), none⟩
  | _, _ => .error .nonfinite

/-- SECTOR (R156). -/
def execSector (s : State) : Host.Outcome State Fault Refusal := runCommand [.in0, .in1] sectorResult s

/-- `X`, `Y`, `Z` of R157, with `K = Ts / Udc`. -/
def intermediates (k alpha beta : Rat) : Surd × Surd × Surd :=
  (.sqrt3 (beta * k), ⟨3 / 2 * alpha * k, beta / 2 * k⟩, ⟨-(3 / 2 * alpha * k), beta / 2 * k⟩)

/-- The six-way table of R158: `(Tx, Ty)` before saturation. -/
def activeTimes (sec : Sector) (x y z : Surd) : Surd × Surd :=
  match sec with
  | .s1 => (z, y)
  | .s2 => (y, x.neg)
  | .s3 => (z.neg, x)
  | .s4 => (x.neg, z)
  | .s5 => (x, y.neg)
  | .s6 => (y.neg, z.neg)

/-- The times of R157 to R160. -/
structure Times where
  sat : Bool
  tx  : Surd
  ty  : Surd
  t0  : Surd
  t1  : Surd
  t2  : Surd
deriving DecidableEq, Repr

/-- `Tx + Ty > Ts` of R159, strictly. -/
def exceedsPeriod (cfg : Config) (sum : Surd) : Bool := sum.cmp (switchingPeriod cfg) == .gt

/-- `Tx + Ty > Ts` of R159; inside the band of a tolerant instance either outcome (R164). The times use choice 19 and the
reported SAT choice 20 (log 6). -/
def saturates (s : State) (reads : List InReg) (choice : Nat) (sum : Surd) : Bool :=
  if !s.cfg.tolSat.isZero && (Exact.surd sum).near s.cfg (switchingPeriod s.cfg) s.cfg.tolSat then
    s.cfg.tolerantBit s.lcmd (operandWords s reads) choice
  else exceedsPeriod s.cfg sum

/-- Saturation (R159): both on-times times `Ts / S`, with `S` the sum before either update. -/
def rescale (ts : Rat) (sat : Bool) (tx ty : Surd) : Surd × Surd :=
  let sum := tx.add ty
  if sat then ((tx.scale ts).div sum, (ty.scale ts).div sum) else (tx, ty)

/-- The zero-vector split (R160), from the on-times after saturation. -/
def splitTimes (ts : Rat) (sat : Bool) (tx ty : Surd) : Times :=
  let t0 := (((Surd.ofRat ts).sub tx).sub ty).scale (1 / 4)
  let t1 := t0.add (tx.scale (1 / 2))
  let t2 := t1.add (ty.scale (1 / 2))
  ⟨sat, tx, ty, t0, t1, t2⟩

/-- `(Tx, Ty)` of a sector and a vector before saturation (R157, R158). -/
def demand (cfg : Config) (sec : Sector) (alpha beta : Rat) : Surd × Surd :=
  let xyz := intermediates (switchingPeriod cfg / busVoltage cfg) alpha beta
  activeTimes sec xyz.1 xyz.2.1 xyz.2.2

/-- `Tx + Ty` before saturation. -/
def demandSum (cfg : Config) (sec : Sector) (alpha beta : Rat) : Surd :=
  let t := demand cfg sec alpha beta
  t.1.add t.2

/-- The times of R157 to R160 with a saturation outcome for the times and a SAT to report. A sum of exactly 0 has no
saturated outcome, since `Ts / (Tx + Ty)` cannot be formed (R84; log 15). -/
def timesOf (cfg : Config) (sec : Sector) (alpha beta : Rat) (outcome sat : Bool) : Times :=
  let ts := switchingPeriod cfg
  let t := demand cfg sec alpha beta
  let t' := rescale ts (outcome && !(demandSum cfg sec alpha beta).isZero) t.1 t.2
  splitTimes ts sat t'.1 t'.2

/-- The vector times of a sector and a vector, with the saturation outcome the instance draws (R164). -/
def vectorTimes (s : State) (reads : List InReg) (sec : Sector) (alpha beta : Rat) : Times :=
  let sum := demandSum s.cfg sec alpha beta
  timesOf s.cfg sec alpha beta (saturates s reads 19 sum) (saturates s reads 20 sum)

/-- The vector times with the strict outcome of R159, and the SAT the instance reports (R164). -/
def strictTimes (s : State) (reads : List InReg) (sec : Sector) (alpha beta : Rat) : Times :=
  let sum := demandSum s.cfg sec alpha beta
  timesOf s.cfg sec alpha beta (exceedsPeriod s.cfg sum) (saturates s reads 20 sum)

/-- VTIME's numeric results (R161), to OUT0 to OUT4. -/
def timeResults (t : Times) : List (OutReg × Exact) :=
  [(.out0, .surd t.t0), (.out1, .surd t.t1), (.out2, .surd t.t2), (.out3, .surd t.tx), (.out4, .surd t.ty)]

/-- VTIME's delivery of its times, with a conformance. -/
def deliverTimes (s : State) (how : Conformance) (t : Times) : Except Code Commit :=
  deliver s [.in0, .in1] (fun _ => how) (timeResults t) none (some t.sat)

/-- VTIME's computation for a legal sector (R161). That the sector is the vector's is not checked (R163); in the vector's
own sector no result overflows, and all are promised in `[0, Ts]` (R161, R201). -/
def vtimeResult (sec : Sector) (s : State) : Except Code Commit :=
  match operand s .in0, operand s .in1 with
  | some alpha, some beta =>
    let drawn := deliverTimes s (.plain s.cfg.tolOp.vtime) (vectorTimes s [.in0, .in1] sec alpha beta)
    if sec = ownSector alpha beta then
      unlessOverflow drawn
        (deliverTimes s (.bounded s.cfg.tolOp.vtime (switchingPeriod s.cfg)) (strictTimes s [.in0, .in1] sec alpha beta))
    else drawn
  | _, _ => .error .nonfinite

/-- VTIME (R161); a sector operand of 0 or 7 ends with ILLEGAL_SECTOR before any operand is looked at (R72, R202). -/
def execVtime (sec : BitVec 3) (s : State) : Host.Outcome State Fault Refusal :=
  match sectorOfBits sec with
  | none => .next (faultEntry .illegalSector s)
  | some k => runCommand [.in0, .in1] (vtimeResult k) s

/-- The permutation table of R165: the times for counter_u, counter_v, counter_w. -/
def permute (sec : Sector) (t0 t1 t2 : Surd) : Surd × Surd × Surd :=
  match sec with
  | .s1 => (t1, t0, t2)
  | .s2 => (t0, t2, t1)
  | .s3 => (t0, t1, t2)
  | .s4 => (t2, t1, t0)
  | .s5 => (t2, t0, t1)
  | .s6 => (t1, t2, t0)

/-- `counter = t * MAX_COUNTER / Ts` (R166). -/
def counter (cfg : Config) (t : Surd) : Surd := t.scale (maxCount cfg / switchingPeriod cfg)

/-- The three counters of a sector and its times (R165, R166), to OUT0, OUT1, OUT2. -/
def counterResults (cfg : Config) (sec : Sector) (t0 t1 t2 : Surd) : List (OutReg × Exact) :=
  let p := permute sec t0 t1 t2
  [(.out0, .surd (counter cfg p.1)), (.out1, .surd (counter cfg p.2.1)), (.out2, .surd (counter cfg p.2.2))]

/-- CMAP's computation for a legal sector (R167). The times are neither checked nor clamped (R168). -/
def cmapResult (sec : Sector) (s : State) : Except Code Commit :=
  match operand s .in0, operand s .in1, operand s .in2 with
  | some t0, some t1, some t2 =>
    deliver s [.in0, .in1, .in2] (fun _ => .plain s.cfg.tolOp.cmap)
      (counterResults s.cfg sec (.ofRat t0) (.ofRat t1) (.ofRat t2))
  | _, _, _ => .error .nonfinite

/-- CMAP (R167); a sector operand of 0 or 7 ends with ILLEGAL_SECTOR before any operand is looked at (R72, R202). -/
def execCmap (sec : BitVec 3) (s : State) : Host.Outcome State Fault Refusal :=
  match sectorOfBits sec with
  | none => .next (faultEntry .illegalSector s)
  | some k => runCommand [.in0, .in1, .in2] (cmapResult k) s

/-- How SVPWM's results conform without draws: none of them overflows, and the counters are promised in
`[0, MAX_COUNTER/2]` and the times in `[0, Ts/2]` (R169, R201). -/
def svpwmConformance (cfg : Config) : OutReg → Conformance
  | .out0 => .bounded cfg.tolOp.svpwm (maxCount cfg / 2)
  | .out1 => .bounded cfg.tolOp.svpwm (maxCount cfg / 2)
  | .out2 => .bounded cfg.tolOp.svpwm (maxCount cfg / 2)
  | .out3 => .bounded cfg.tolOp.svpwm (switchingPeriod cfg / 2)
  | .out4 => .bounded cfg.tolOp.svpwm (switchingPeriod cfg / 2)
  | .out5 => .bounded cfg.tolOp.svpwm (switchingPeriod cfg / 2)

/-- SVPWM's delivery of a sector and its times, mapped exactly between and rounded once (R169). -/
def deliverSwitching (s : State) (how : OutReg → Conformance) (sec : Sector) (t : Times) : Except Code Commit :=
  deliver s [.in0, .in1] how
    (counterResults s.cfg sec t.t0 t.t1 t.t2 ++ [(.out3, .surd t.t0), (.out4, .surd t.t1), (.out5, .surd t.t2)])
    (some (sectorBits sec)) (some t.sat)

/-- SVPWM's computation (R169): classify, time and map. It never ends with OVERFLOW (R201): a drawn sector or saturation
outcome with which it would gives way to the vector's own sector and the strict outcome (log 22). -/
def svpwmResult (s : State) : Except Code Commit :=
  match operand s .in0, operand s .in1 with
  | some alpha, some beta =>
    let drawn := classify s [.in0, .in1] alpha beta
    let own := ownSector alpha beta
    unlessOverflow
      (deliverSwitching s (fun _ => .plain s.cfg.tolOp.svpwm) drawn (vectorTimes s [.in0, .in1] drawn alpha beta))
      (deliverSwitching s (svpwmConformance s.cfg) own (strictTimes s [.in0, .in1] own alpha beta))
  | _, _ => .error .nonfinite

/-- SVPWM (R169). -/
def execSvpwm (s : State) : Host.Outcome State Fault Refusal := runCommand [.in0, .in1] svpwmResult s

end Sys2Proof.Machine
end

