-- ==== Sys2Proof/Machine/Trig.lean ====
section
/-! DEFINITION. SIN and COS (spec/40_trig.md R105, R106). -/

namespace Sys2Proof.Machine

/-- `|x| > X_ACC` (R112); never where `X_ACC` is infinity. -/
def beyondAccuracy (cfg : Config) (x : Rat) : Bool :=
  match cfg.xAcc with
  | none => false
  | some m => m.isBelow |x|

/-- SIN's computation (R105): `OUT0 <- ENC(TSIN(x * N / (2π)))`. -/
def sinResult (s : State) : Except Code Commit :=
  match operand s .in0 with
  | none => .error .nonfinite
  | some x => deliver s [.in0] (fun _ => .unitRange s.cfg.tolOp.sin (beyondAccuracy s.cfg x)) [(.out0, .table x 1 0)]

/-- SIN (R105). -/
def execSin (s : State) : Host.Outcome State Fault Refusal := runCommand [.in0] sinResult s

/-- COS's computation (R106): `OUT0 <- ENC(TSIN(x * N / (2π) + N/4))`. -/
def cosResult (s : State) : Except Code Commit :=
  match operand s .in0 with
  | none => .error .nonfinite
  | some x => deliver s [.in0] (fun _ => .unitRange s.cfg.tolOp.cos (beyondAccuracy s.cfg x)) [(.out0, .table x 0 1)]

/-- COS (R106). -/
def execCos (s : State) : Host.Outcome State Fault Refusal := runCommand [.in0] cosResult s

end Sys2Proof.Machine
end

