-- ==== Sys2Proof/Machine/Dispatch.lean ====
section
/-! DEFINITION. `execute` of a decoded command and its commit (spec/30_encoding.md R71, 10_state.md R30): one arm per
row of the opcode table, each a direct call of its meaning. -/

namespace Sys2Proof.Machine

/-- The meaning of a command on the latched operands. -/
def exec (i : Instr) (s : State) : Host.Outcome State Fault Refusal :=
  match i with
  | .sin => Sys2Proof.Machine.execSin s
  | .cos => Sys2Proof.Machine.execCos s
  | .norm => Sys2Proof.Machine.execNorm s
  | .clarke => Sys2Proof.Machine.execClarke s
  | .iclarke => Sys2Proof.Machine.execIclarke s
  | .park => Sys2Proof.Machine.execPark s
  | .ipark => Sys2Proof.Machine.execIpark s
  | .sector => Sys2Proof.Machine.execSector s
  | .vtime sec => Sys2Proof.Machine.execVtime sec s
  | .cmap sec => Sys2Proof.Machine.execCmap sec s
  | .svpwm => Sys2Proof.Machine.execSvpwm s

end Sys2Proof.Machine
end

