-- ==== Sys2Proof/Machine/Window.lean ====
section
/-! DEFINITION. The register window: the map of spec/10_state.md R23, reads and writes (20_memory.md R50 to R56), and
the little-endian byte view (R52). -/

namespace Sys2Proof.Machine

/-- The register at word offset `4j` (R23). -/
def registerAt : Nat → Option WindowReg
  | 0 => some .cmd
  | 1 => some .status
  | 2 => some (.inp .in0)
  | 3 => some (.inp .in1)
  | 4 => some (.inp .in2)
  | 5 => some .sector
  | 6 => some (.out .out0)
  | 7 => some (.out .out1)
  | 8 => some (.out .out2)
  | 9 => some (.out .out3)
  | 10 => some (.out .out4)
  | 11 => some (.out .out5)
  | 12 => some .cfgN
  | 13 => some .cfgTs
  | 14 => some .cfgUdc
  | 15 => some .cfgMaxc
  | _ => none

/-- The byte offset of a register in the window (R23). -/
def offsetOf : WindowReg → Nat
  | .cmd => 0x00
  | .status => 0x04
  | .inp .in0 => 0x08
  | .inp .in1 => 0x0C
  | .inp .in2 => 0x10
  | .sector => 0x14
  | .out .out0 => 0x18
  | .out .out1 => 0x1C
  | .out .out2 => 0x20
  | .out .out3 => 0x24
  | .out .out4 => 0x28
  | .out .out5 => 0x2C
  | .cfgN => 0x30
  | .cfgTs => 0x34
  | .cfgUdc => 0x38
  | .cfgMaxc => 0x3C

/-- The register a host access reaches: 32 bits wide, at `BASE + 4j`, `0 <= j <= 15`; any other access is none
(R51). -/
def accessed (cfg : Config) (addr size : Nat) : Option WindowReg :=
  if size = 4 ∧ cfg.base ≤ addr ∧ (addr - cfg.base) % 4 = 0 then registerAt ((addr - cfg.base) / 4) else none

/-- What a host read of a register gives (R24 to R29). Reads have no side effects (R53). -/
def readRegister (s : State) : WindowReg → Word
  | .cmd => s.cmd
  | .status => statusWord s
  | .inp k => contents s.resets (inSlot k) (s.inp.get k)
  | .sector => (0 : BitVec 29) ++ s.sector
  | .out k => contents s.resets (outSlot k) (s.out.get k)
  | .cfgN => BitVec.ofNat 32 (tableSize s.cfg)
  | .cfgTs => s.cfg.ts
  | .cfgUdc => s.cfg.udc
  | .cfgMaxc => s.cfg.maxCounter

/-- What a host write of a register does: CMD issues a command (R24), IN0 to IN2 take the word (R26), and a write to a
read-only register is ignored (R56). -/
def writeRegister (r : WindowReg) (w : Word) (s : State) : State :=
  match r with
  | .cmd => writeCmd w s
  | .inp k => writeIn k w s
  | .status => s
  | .sector => s
  | .out _ => s
  | .cfgN => s
  | .cfgTs => s
  | .cfgUdc => s
  | .cfgMaxc => s

/-- The byte of the window at a host byte address (R52): byte `BASE + 4j + b` is bits `[8b+7 : 8b]` of register `j`.
It is a view only: no access of the host is narrower than a word (R51). -/
def windowByte (s : State) (addr : Nat) : Option Byte :=
  if s.cfg.base ≤ addr then
    (registerAt ((addr - s.cfg.base) / 4)).map fun r =>
      (readRegister s r).extractLsb' (8 * ((addr - s.cfg.base) % 4)) 8
  else none

end Sys2Proof.Machine
end

