-- ==== Sys2Proof/Machine/Agents.lean ====
section
/-! DEFINITION. The moves of the agents: the host's script line, the block's `complete()`, the reset line
(spec/60_exceptions.md R213; 30_encoding.md R83; 10_state.md R30; 70_reset_and_hazards.md R230). -/

namespace Sys2Proof.Machine

/-- A host variable's word, if the host has read into it. -/
def lookupVar : List (Nat × Word) → Nat → Option Word
  | [], _ => none
  | (n, w) :: rest, k => if n = k then some w else lookupVar rest k

/-- The host's variables with one of them set, in rising order of name. -/
def setVar : List (Nat × Word) → Nat → Word → List (Nat × Word)
  | [], k, w => [(k, w)]
  | (n, v) :: rest, k, w =>
    if k < n then (k, w) :: (n, v) :: rest
    else if k = n then (k, w) :: rest
    else (n, v) :: setVar rest k w

/-- The host moves to another line of its script. -/
def hostGoto (n : Nat) (s : State) : State := { s with host := { s.host with next := n } }

/-- The host keeps a word it has read (R83). -/
def hostAssign (k : Nat) (w : Word) (s : State) : State :=
  { s with host := { s.host with vars := setVar s.host.vars k w } }

/-- The variable a source needs, if it needs one. -/
def sourceVar : Source → Option Nat
  | .word _ => none
  | .var k => some k
  | .sectorCommand _ k => some k

/-- The word a source gives, from the word of its variable: `@SECTOR` puts `s[2:0]` into SEC beside the operation code
(R83, R238). -/
def sourceWord (v : Word) : Source → Word
  | .word w => w
  | .var _ => v
  | .sectorCommand op _ => (0 : BitVec 25) ++ v.extractLsb' 0 3 ++ op

/-- A script line's source: its word, or the name of a variable the host has not read into. -/
def evalSource (s : State) (src : Source) : Except Nat Word :=
  match sourceVar src with
  | none => .ok (sourceWord 0 src)
  | some k =>
    match lookupVar s.host.vars k with
    | none => .error k
    | some v => .ok (sourceWord v src)

/-- WR (R83): a write access, refused where R51 does not define it. -/
def hostWrite (addr size : Nat) (src : Source) (s : State) : Host.Outcome State Fault Refusal :=
  match evalSource s src with
  | .error k => .refused (.hostVariableUnset k)
  | .ok w =>
    match accessed s.cfg addr size with
    | none => .refused (.busError addr size)
    | some r => .next (writeRegister r w (hostGoto (s.host.next + 1) s))

/-- RD (R83): a read access, refused where R51 does not define it. -/
def hostRead (addr size dst : Nat) (s : State) : Host.Outcome State Fault Refusal :=
  match accessed s.cfg addr size with
  | none => .refused (.busError addr size)
  | some r => .next (hostAssign dst (readRegister s r) (hostGoto (s.host.next + 1) s))

/-- BNZ (R83): go to a line of the script if that bit of a value read is 1. -/
def hostBranch (name bit target : Nat) (s : State) : Host.Outcome State Fault Refusal :=
  match lookupVar s.host.vars name with
  | none => .refused (.hostVariableUnset name)
  | some v => .next (hostGoto (if v.getLsbD bit then target else s.host.next + 1) s)

/-- One line of the host's script; past its end the host does nothing. -/
def hostMove (s : State) : Host.Outcome State Fault Refusal :=
  match s.host.script[s.host.next]? with
  | none => .next s
  | some (.write addr size src) => hostWrite addr size src s
  | some (.read addr size dst) => hostRead addr size dst s
  | some (.branchIfSet name bit target) => hostBranch name bit target s

/-- `complete()` (R30): fetch LCMD, decode it (R71) and execute it; a word that is no command completes with
ILLEGAL_OP (R73, R74, R72). -/
def complete (s : State) : Host.Outcome State Fault Refusal :=
  match decode s.lcmd with
  | .ok i => exec i s
  | .error _ => .next (faultEntry .illegalOp s)

/-- The block's move: its completion, enabled while BUSY = 1 (R30); it does nothing while idle. -/
def blockMove (s : State) : Host.Outcome State Fault Refusal := if s.busy then complete s else .next s

/-- One agent's move. -/
def move (m : Move) (s : State) : Host.Outcome State Fault Refusal :=
  match m with
  | .host => hostMove s
  | .block => blockMove s
  | .reset => .next (resetBlock s)

/-- Who moves next: the agenda's first, or, where it is empty, the block while BUSY = 1 and the host otherwise. So a
completion that is enabled is taken in the end, once the agenda has run out (R241; log 1). -/
def nextMove (s : State) : Move :=
  match s.agenda with
  | m :: _ => m
  | [] => if s.busy then .block else .host

/-- The state with the agenda's first move taken off. -/
def popAgenda (s : State) : State := { s with agenda := s.agenda.tail }

/-- One step of the machine: no machine is built for an illegal configuration (R233); otherwise the next agent
moves. -/
def advance (s : State) : Host.Outcome State Fault Refusal :=
  if configLegal s.cfg then move (nextMove s) (popAgenda s) else .refused .illegalConfiguration

end Sys2Proof.Machine
end

