-- ==== Sys2Proof/Machine/Script.lean ====
section
/-! DEFINITION. The command-script lines of spec/30_encoding.md R83 as host operations: what a host program is written
in. -/

namespace Sys2Proof.Machine

/-- `WR <reg>, <word>`. -/
def scriptWrite (cfg : Config) (r : WindowReg) (w : Word) : HostOp := .write (cfg.base + offsetOf r) 4 (.word w)

/-- `WR <reg>, f"<decimal>"`: the word is `ENC` of the decimal, with the instance's `ENC` (R5); none where that
overflows. -/
def scriptWriteDecimal (cfg : Config) (r : WindowReg) (x : Rat) : Option HostOp :=
  ((Exact.surd (.ofRat x)).enc cfg).map (scriptWrite cfg r)

/-- `WR <reg>, <name>`: a value read before. -/
def scriptWriteVar (cfg : Config) (r : WindowReg) (name : Nat) : HostOp := .write (cfg.base + offsetOf r) 4 (.var name)

/-- `RD <reg> -> <name>`. -/
def scriptRead (cfg : Config) (r : WindowReg) (name : Nat) : HostOp := .read (cfg.base + offsetOf r) 4 name

/-- A command's line: `WR CMD` of its word. -/
def scriptCommand (cfg : Config) (i : Instr) : HostOp := scriptWrite cfg .cmd (encode i)

/-- `WAIT` at line `at_`, through the variable `st`: poll STATUS until BUSY = 0 (R235). -/
def scriptWait (cfg : Config) (at_ st : Nat) : List HostOp := [scriptRead cfg .status st, .branchIfSet st 0 at_]

/-- The operand registers a command reads (R79). -/
def operandsOf : Instr → List InReg
  | .sin => [.in0]
  | .cos => [.in0]
  | .norm => [.in0]
  | .clarke => [.in0, .in1]
  | .iclarke => [.in0, .in1]
  | .park => [.in0, .in1, .in2]
  | .ipark => [.in0, .in1, .in2]
  | .sector => [.in0, .in1]
  | .vtime _ => [.in0, .in1]
  | .cmap _ => [.in0, .in1, .in2]
  | .svpwm => [.in0, .in1]

/-- `CALL <cmd> a, b, c` at line `at_`: the writes of the operands the command reads, the command, and a WAIT. -/
def scriptCall (cfg : Config) (at_ st : Nat) (i : Instr) (a b c : Word) : List HostOp :=
  let writes := (operandsOf i).map fun k =>
    scriptWrite cfg (.inp k) (match k with | .in0 => a | .in1 => b | .in2 => c)
  writes ++ [scriptCommand cfg i] ++ scriptWait cfg (at_ + writes.length + 1) st

/-- `VTIME @SECTOR`, through the variable `v`: read SECTOR and form the command word from `s[2:0]` (R238). -/
def scriptVtimeAtSector (cfg : Config) (v : Nat) : List HostOp :=
  [scriptRead cfg .sector v, .write (cfg.base + offsetOf .cmd) 4 (.sectorCommand 0x9 v)]

/-- `CMAP @SECTOR`, likewise. -/
def scriptCmapAtSector (cfg : Config) (v : Nat) : List HostOp :=
  [scriptRead cfg .sector v, .write (cfg.base + offsetOf .cmd) 4 (.sectorCommand 0xA v)]

end Sys2Proof.Machine
end

