-- ==== Sys2Proof/Machine/Step.lean ====
section
/-! DEFINITION. The step of the machine, and how one command is placed for the very next step (log 2). -/

namespace Sys2Proof.Machine

/-- One step (Machine/Agents.lean). -/
def step (s : State) : Host.Outcome State Fault Refusal := advance s

/-- `s` with the command word `w` in flight and the block to move next, so that the next step fetches it from LCMD
and runs it (Machine/Ops.lean, `placeCommand`). A command is one word of 32 bits, whatever the number of bits says (R70). -/
def State.withFetchWord (s : State) (_nbits w : Nat) : State :=
  placeCommand (BitVec.ofNat 32 w) s

end Sys2Proof.Machine
end

