-- ==== Sys2Proof/Machine/Reference.lean ====
section
/-! DEFINITION. The formulas of spec/40_trig.md to 43_svpwm.md over Mathlib's `ℝ`, as the rules write them, beside
Machine/Reals.lean. The machine does not use this file; the statements compare it with the machine. -/

namespace Sys2Proof.Machine.Reference

/-- The reference sine of SIN, PARK and IPARK (R105, R134). -/
noncomputable def sine (cfg : Config) (x : ℝ) : ℝ := tsin cfg (indexSpace cfg x)

/-- The reference cosine of COS, PARK and IPARK, as R106 first writes it. -/
noncomputable def cosine (cfg : Config) (x : ℝ) : ℝ := tsin cfg (indexSpace cfg (x + Real.pi / 2))

/-- `d1`, `d2`, `d3` of R150, as it writes them. -/
noncomputable def discriminants (alpha beta : ℝ) : ℝ × ℝ × ℝ :=
  (beta, (Real.sqrt 3 * alpha - beta) / 2, (-(Real.sqrt 3 * alpha) - beta) / 2)

/-- The code of R150, in 0..7. -/
noncomputable def sectorCode (alpha beta : ℝ) : ℕ :=
  let d := discriminants alpha beta
  (if 0 < d.1 then 1 else 0) + (if 0 < d.2.1 then 2 else 0) + (if 0 < d.2.2 then 4 else 0)

/-- The sector of a vector as a number (R151). -/
noncomputable def sectorNumber (alpha beta : ℝ) : ℕ :=
  if sectorCode alpha beta = 0 ∨ sectorCode alpha beta = 7 then 6 else sectorCode alpha beta

/-- `(Tx, Ty)` before saturation (R157, R158), with `k = Ts / Udc`. -/
noncomputable def activeTimes (sec : Sector) (k alpha beta : ℝ) : ℝ × ℝ :=
  let x := Real.sqrt 3 * beta * k
  let y := (3 / 2 * alpha + Real.sqrt 3 / 2 * beta) * k
  let z := (-(3 / 2) * alpha + Real.sqrt 3 / 2 * beta) * k
  match sec with
  | .s1 => (z, y)
  | .s2 => (y, -x)
  | .s3 => (-z, x)
  | .s4 => (-x, z)
  | .s5 => (x, -y)
  | .s6 => (-y, -z)

/-- `(Tx, Ty)` after saturation (R159). -/
noncomputable def onTimes (sec : Sector) (ts udc alpha beta : ℝ) : ℝ × ℝ :=
  let t := activeTimes sec (ts / udc) alpha beta
  if t.1 + t.2 > ts then (t.1 * ts / (t.1 + t.2), t.2 * ts / (t.1 + t.2)) else t

/-- Whether R159 saturates. -/
def Saturates (sec : Sector) (ts udc alpha beta : ℝ) : Prop :=
  (activeTimes sec (ts / udc) alpha beta).1 + (activeTimes sec (ts / udc) alpha beta).2 > ts

/-- `(t0, t1, t2)` of R160 from the on-times. -/
noncomputable def split (ts : ℝ) (t : ℝ × ℝ) : ℝ × ℝ × ℝ :=
  let t0 := (ts - t.1 - t.2) / 4
  let t1 := t0 + t.1 / 2
  (t0, t1, t1 + t.2 / 2)

/-- `(t0, t1, t2)` of R160. -/
noncomputable def instants (sec : Sector) (ts udc alpha beta : ℝ) : ℝ × ℝ × ℝ := split ts (onTimes sec ts udc alpha beta)

/-- `(Tx, Ty)` of one of the two outcomes of R159, as R164 names them. -/
noncomputable def onTimesOf (sat : Bool) (sec : Sector) (ts udc alpha beta : ℝ) : ℝ × ℝ :=
  let t := activeTimes sec (ts / udc) alpha beta
  if sat then (t.1 * ts / (t.1 + t.2), t.2 * ts / (t.1 + t.2)) else t

/-- The permutation of R165: the times for counter_u, counter_v, counter_w. -/
def permute (sec : Sector) (t : ℝ × ℝ × ℝ) : ℝ × ℝ × ℝ :=
  match sec with
  | .s1 => (t.2.1, t.1, t.2.2)
  | .s2 => (t.1, t.2.2, t.2.1)
  | .s3 => t
  | .s4 => (t.2.2, t.2.1, t.1)
  | .s5 => (t.2.2, t.1, t.2.1)
  | .s6 => (t.2.1, t.2.2, t.1)

end Sys2Proof.Machine.Reference
end

