-- ==== Sys2Proof/Safety.lean ====
section
/-! DEFINITION. The terms the statements use: the exact model, when a command runs, and the invariant of the state. -/

namespace Sys2Proof.Machine

/-- Every tolerance of `TOL_OP` is 0. -/
def tolOpZero (t : TolOp) : Bool :=
  t.sin.isZero && t.cos.isZero && t.norm.isZero && t.clarke.isZero && t.iclarke.isZero && t.park.isZero &&
    t.ipark.isZero && t.vtime.isZero && t.cmap.isZero && t.svpwm.isZero

/-- The instance draws nothing (spec/30_encoding.md R78: "With all tolerances 0 the model is deterministic"): its results
are `ENC` of what the rules give on its own table. -/
def drawsNothing (cfg : Config) : Bool :=
  tolOpZero cfg.tolOp && cfg.tolSector.isZero && cfg.tolSat.isZero && cfg.xAcc == none

/-- The exact model (R78, 40_trig.md R101): it draws nothing, and its table is the reference table with no tolerance. -/
def exactModel (cfg : Config) : Bool := drawsNothing cfg && cfg.tolLut.isZero && cfg.rom == .reference

/-- A delivered word for the exact result `x` of a command with tolerance `tol` (R78): `ENC(x)`, or a finite word within the
tolerance of it; or, where `ENC(x)` overflows though R201 says it cannot and no word in the range `[0, hi]` that R161 or R169
promises is within the tolerance, a word in that range (log 22). `hi` is none where no range is promised. -/
def Delivered (cfg : Config) (tol : RealParam) (hi : Option Rat) (x : ℝ) (w : Word) : Prop :=
  Reference.Encodes cfg.enc x (some w) ∨
    ∃ v, decodeReal w = some v ∧
      (|(v : ℝ) - x| ≤ Reference.param tol ∨
        ∃ b, hi = some b ∧ Reference.Encodes cfg.enc x none ∧ 0 ≤ v ∧ v ≤ max 0 b ∧
          ∀ u y, decodeReal u = some y → 0 ≤ y → y ≤ max 0 b → Reference.param tol < |(y : ℝ) - x|)

/-- A delivered word of SIN or COS for the exact result `x` (R78, R107, R112): a word in `[-1, 1]`, and `ENC(x)`, or within the
tolerance of `x`, or any where `far` holds; or, where `ENC(x)` is no word in `[-1, 1]` and no word in `[-1, 1]` is within the
tolerance, any too (log 22). -/
def DeliveredUnit (cfg : Config) (tol : RealParam) (far : Prop) (x : ℝ) (w : Word) : Prop :=
  ∃ v, decodeReal w = some v ∧ -1 ≤ v ∧ v ≤ 1 ∧
    (Reference.Encodes cfg.enc x (some w) ∨ |(v : ℝ) - x| ≤ Reference.param tol ∨ far ∨
      (∀ u y, Reference.Encodes cfg.enc x (some u) → decodeReal u = some y → ¬ (-1 ≤ y ∧ y ≤ 1)) ∧
        ∀ u y, decodeReal u = some y → -1 ≤ y → y ≤ 1 → Reference.param tol < |(y : ℝ) - x|)

/-- The distance of two angles on the circle (R124). -/
noncomputable def circleDistance (a b : ℝ) : ℝ := min |a - b| (2 * Real.pi - |a - b|)

/-- A delivered word of NORM for the exact result `x` (R78, R120, R123, R124): a word in `[0, 2π)`, and `ENC(x)` with R120's
last line, or within the tolerance on the circle; or, where `ENC(x)` is no word from 0 on and no word in `[0, 2π)` is within
the tolerance, any (log 22). -/
def DeliveredCircle (cfg : Config) (tol : RealParam) (x : ℝ) (w : Word) : Prop :=
  ∃ v, decodeReal w = some v ∧ 0 ≤ v ∧ (v : ℝ) < 2 * Real.pi ∧
    ((∃ u, Reference.Encodes cfg.enc x (some u) ∧ w = clampTwoPi u) ∨ circleDistance v x ≤ Reference.param tol ∨
      (∀ u y, Reference.Encodes cfg.enc x (some u) → decodeReal u = some y → y < 0) ∧
        ∀ u y, decodeReal u = some y → 0 ≤ y → (y : ℝ) < 2 * Real.pi → Reference.param tol < circleDistance y x)

/-- `|x| > X_ACC` over the reals (R112). -/
def BeyondAccuracy (cfg : Config) (x : ℝ) : Prop := ∃ m, cfg.xAcc = some m ∧ Reference.param m < |x|

/-- A sector a classification may give (R150, R151, R155): bit 0 of the code is exact, and the bits of `d2` and `d3` are the
strict tests outside the band. -/
def AdmittedSector (cfg : Config) (alpha beta : Rat) (sec : Sector) : Prop :=
  let d := Reference.discriminants alpha beta
  let tol := Reference.param cfg.tolSector
  ∃ b1 b2 : Bool, sectorBits sec = sectorBits (sectorOfCode (sectorCode (decide (0 < beta)) b1 b2)) ∧
    (tol = 0 ∨ tol < |d.2.1| → (b1 = true ↔ 0 < d.2.1)) ∧ (tol = 0 ∨ tol < |d.2.2| → (b2 = true ↔ 0 < d.2.2))

/-- A saturation outcome that is the strict one outside the band (R159, R164). -/
def AdmittedOutcome (cfg : Config) (sec : Sector) (alpha beta : Rat) (o : Bool) : Prop :=
  let ts : ℝ := switchingPeriod cfg
  let a := Reference.activeTimes sec (ts / busVoltage cfg) alpha beta
  Reference.param cfg.tolSat = 0 ∨ Reference.param cfg.tolSat < |a.1 + a.2 - ts| → (o = true ↔ ts < a.1 + a.2)

/-- Times that may be delivered, with `(Tx, Ty)` as `r`: those of one of the two outcomes of R159, an admitted one that
exists (R164, log 15). -/
def AdmittedTimes (cfg : Config) (sec : Sector) (alpha beta : Rat) (r : ℝ × ℝ) : Prop :=
  let ts : ℝ := switchingPeriod cfg
  let a := Reference.activeTimes sec (ts / busVoltage cfg) alpha beta
  ∃ o : Bool, AdmittedOutcome cfg sec alpha beta o ∧ (o = true → a.1 + a.2 ≠ 0) ∧
    r = Reference.onTimesOf o sec ts (busVoltage cfg) alpha beta

/-- What each command writes without a fault on its operands in `s`, with `t` the state after: for each listed result a word
delivered for it with the command's own tolerance (R78, R79, R112, R124), and an admitted sector, outcome and times (R155,
R164). -/
def ResultsConform (s t : State) (i : Instr) : Prop :=
  let o := t.out
  let tol := s.cfg.tolOp
  match i with
  | .sin => ∀ x : Rat, operand s .in0 = some x →
      DeliveredUnit s.cfg tol.sin (BeyondAccuracy s.cfg x) (Reference.sine s.cfg x) o.out0.word
  | .cos => ∀ x : Rat, operand s .in0 = some x →
      DeliveredUnit s.cfg tol.cos (BeyondAccuracy s.cfg x) (Reference.cosine s.cfg x) o.out0.word
  | .norm => ∀ θ : Rat, operand s .in0 = some θ → DeliveredCircle s.cfg tol.norm (Reference.normalized θ) o.out0.word
  | .clarke => ∀ u v : Rat, operand s .in0 = some u → operand s .in1 = some v →
      Delivered s.cfg tol.clarke none u o.out0.word ∧
        Delivered s.cfg tol.clarke none ((u + 2 * v) / Real.sqrt 3) o.out1.word
  | .iclarke => ∀ a b : Rat, operand s .in0 = some a → operand s .in1 = some b →
      Delivered s.cfg tol.iclarke none a o.out0.word ∧
        Delivered s.cfg tol.iclarke none ((-a + Real.sqrt 3 * b) / 2) o.out1.word ∧
        Delivered s.cfg tol.iclarke none ((-a - Real.sqrt 3 * b) / 2) o.out2.word
  | .park => ∀ a b θ : Rat, operand s .in0 = some a → operand s .in1 = some b → operand s .in2 = some θ →
      Delivered s.cfg tol.park none (Reference.cosine s.cfg θ * a + Reference.sine s.cfg θ * b) o.out0.word ∧
        Delivered s.cfg tol.park none (-Reference.sine s.cfg θ * a + Reference.cosine s.cfg θ * b) o.out1.word
  | .ipark => ∀ d q θ : Rat, operand s .in0 = some d → operand s .in1 = some q → operand s .in2 = some θ →
      Delivered s.cfg tol.ipark none (Reference.cosine s.cfg θ * d - Reference.sine s.cfg θ * q) o.out0.word ∧
        Delivered s.cfg tol.ipark none (Reference.sine s.cfg θ * d + Reference.cosine s.cfg θ * q) o.out1.word
  | .sector => ∀ a b : Rat, operand s .in0 = some a → operand s .in1 = some b →
      ∃ sec, t.sector = sectorBits sec ∧ AdmittedSector s.cfg a b sec
  | .vtime bits => ∀ (sec : Sector) (a b : Rat), sectorOfBits bits = some sec → operand s .in0 = some a →
      operand s .in1 = some b →
      ∃ r, AdmittedTimes s.cfg sec a b r ∧ AdmittedOutcome s.cfg sec a b t.sat ∧
        let i := Reference.split (switchingPeriod s.cfg) r
        let D := Delivered s.cfg tol.vtime
          (if sectorBits sec = BitVec.ofNat 3 (Reference.sectorNumber a b) then some (switchingPeriod s.cfg) else none)
        D i.1 o.out0.word ∧ D i.2.1 o.out1.word ∧ D i.2.2 o.out2.word ∧ D r.1 o.out3.word ∧ D r.2 o.out4.word
  | .cmap bits => ∀ (sec : Sector) (t0 t1 t2 : Rat), sectorOfBits bits = some sec → operand s .in0 = some t0 →
      operand s .in1 = some t1 → operand s .in2 = some t2 →
      let p := Reference.permute sec ((t0 : ℝ), (t1 : ℝ), (t2 : ℝ))
      let m := maxCount s.cfg
      let ts := switchingPeriod s.cfg
      Delivered s.cfg tol.cmap none (p.1 * m / ts) o.out0.word ∧
        Delivered s.cfg tol.cmap none (p.2.1 * m / ts) o.out1.word ∧
        Delivered s.cfg tol.cmap none (p.2.2 * m / ts) o.out2.word
  | .svpwm => ∀ a b : Rat, operand s .in0 = some a → operand s .in1 = some b →
      ∃ sec r, t.sector = sectorBits sec ∧ AdmittedSector s.cfg a b sec ∧ AdmittedTimes s.cfg sec a b r ∧
        AdmittedOutcome s.cfg sec a b t.sat ∧
        let ts := switchingPeriod s.cfg
        let m := maxCount s.cfg
        let i := Reference.split ts r
        let p := Reference.permute sec i
        let C := Delivered s.cfg tol.svpwm (some (m / 2))
        let D := Delivered s.cfg tol.svpwm (some (ts / 2))
        C (p.1 * m / ts) o.out0.word ∧ C (p.2.1 * m / ts) o.out1.word ∧ C (p.2.2 * m / ts) o.out2.word ∧
          D i.1 o.out3.word ∧ D i.2.1 o.out4.word ∧ D i.2.2 o.out5.word

/-- The operands a command reads do not end it in the model-only fault (60_exceptions.md R210): each was written
before its acceptance, or the instance computes with unspecified contents as the chip does. -/
def runnable (s : State) (reads : List InReg) : Bool := operandsWritten s reads || !s.cfg.operandCheck

/-- The registers a command without a fault writes (R79). -/
def resultRegisters : Instr → List OutReg
  | .sin => [.out0]
  | .cos => [.out0]
  | .norm => [.out0]
  | .clarke => [.out0, .out1]
  | .iclarke => [.out0, .out1, .out2]
  | .park => [.out0, .out1]
  | .ipark => [.out0, .out1]
  | .sector => []
  | .vtime _ => [.out0, .out1, .out2, .out3, .out4]
  | .cmap _ => [.out0, .out1, .out2]
  | .svpwm => [.out0, .out1, .out2, .out3, .out4, .out5]

/-- The commands that write the SECTOR register without a fault (R79). -/
def namesSector : Instr → Bool
  | .sin => false
  | .cos => false
  | .norm => false
  | .clarke => false
  | .iclarke => false
  | .park => false
  | .ipark => false
  | .sector => true
  | .vtime _ => false
  | .cmap _ => false
  | .svpwm => true

/-- The commands that write STATUS.SAT without a fault (R79). -/
def namesSat : Instr → Bool
  | .sin => false
  | .cos => false
  | .norm => false
  | .clarke => false
  | .iclarke => false
  | .park => false
  | .ipark => false
  | .sector => false
  | .vtime _ => true
  | .cmap _ => false
  | .svpwm => true

/-- An outcome with its next state, if it has one, changed. -/
def mapNext (f : State → State) : Host.Outcome State Fault Refusal → Host.Outcome State Fault Refusal
  | .next t => .next (f t)
  | .fault r => .fault r
  | .refused r => .refused r

/-- What no command changes (10_state.md R30, 60_exceptions.md R203): CMD, OVR, IN0 to IN2, the configuration and the
ROM, the latches, and the model's own fields. -/
def SameOutsideResults (s t : State) : Prop :=
  t.cmd = s.cmd ∧ t.ovr = s.ovr ∧ t.inp = s.inp ∧ t.cfg = s.cfg ∧ t.lcmd = s.lcmd ∧ t.lin = s.lin ∧
    t.resets = s.resets ∧ t.agenda = s.agenda ∧ t.host = s.host

/-- Host variables stand in strictly rising order of name. -/
def varsRising : List (Nat × Word) → Bool
  | [] => true
  | [_] => true
  | (a, _) :: (b, w) :: rest => decide (a < b) && varsRising ((b, w) :: rest)

/-- SECTOR never holds 7; 0 means that no sector has been produced (10_state.md R28). -/
def sectorLegalInState (s : State) : Prop := s.sector ≠ 7

/-- FAULT is set as long as CODE reports a fault (10_state.md R25: sticky, "Set to 1 by every command that completes
with a non-zero CODE"). -/
def faultFollowsCode (s : State) : Prop := s.code ≠ .ok → s.fault = true

/-- While a command is in flight CMD shows its word, and an operand latched as written is written (10_state.md R24,
R30). -/
def latchesFollow (s : State) : Prop :=
  s.busy = true → s.lcmd = s.cmd ∧ ∀ k, (s.lin.get k).written = true → (s.inp.get k).written = true

/-- A result register that a command has written holds a finite word (30_encoding.md R77: "No result is ever NaN or
infinite"). -/
def resultsFinite (s : State) : Prop := ∀ k, (s.out.get k).written = true → isFinite (s.out.get k).word = true

/-- The invariant every step keeps. -/
structure Inv (s : State) : Prop where
  sector  : sectorLegalInState s
  fault   : faultFollowsCode s
  latches : latchesFollow s
  results : resultsFinite s
  vars    : varsRising s.host.vars = true

end Sys2Proof.Machine
end

