-- ==== Sys2Proof/Certificates/Slice0/Obligations.lean ====
section
/-! DEFINITION. The statements for the provers. Each docstring names the rules of spec/ it formalises. -/

open Sys2Proof Sys2Proof.Machine

/-! ### Encoding -/

/-- R70, R71 (30_encoding.md): a word decodes as a command exactly where it is the command's one word. So the decoder
reads back every encoded command, with every sector operand 0 to 7, and no bit of a word it accepts is dropped. -/
def Obligations.DecodeIsTheInverseOfEncode : Prop := ∀ (w : Word) (i : Instr), decode w = .ok i ↔ encode i = w

/-- R70, R71: the word of each command, written out from the field table. -/
def Obligations.DecodeOfWordsOfTheSpec : Prop :=
  decode 0b0000000000000000000000000_000_0001 = .ok .sin ∧ decode 0b0000000000000000000000000_000_0010 = .ok .cos ∧
    decode 0b0000000000000000000000000_000_0011 = .ok .norm ∧ decode 0b0000000000000000000000000_000_0100 = .ok .clarke ∧
    decode 0b0000000000000000000000000_000_0101 = .ok .iclarke ∧ decode 0b0000000000000000000000000_000_0110 = .ok .park ∧
    decode 0b0000000000000000000000000_000_0111 = .ok .ipark ∧ decode 0b0000000000000000000000000_000_1000 = .ok .sector ∧
    decode 0b0000000000000000000000000_011_1001 = .ok (.vtime 3) ∧
    decode 0b0000000000000000000000000_110_1010 = .ok (.cmap 6) ∧
    decode 0b0000000000000000000000000_000_1011 = .ok .svpwm

/-- R73, R74, and the last sentence but one of R72 (30_encoding.md): reserved bits, a reserved opcode, or a SEC that
is not 0 on a command without a sector end the command with ILLEGAL_OP, whatever its operands, with the fault entry
of R203 and no other effect. -/
def Obligations.IllegalWordsEndWithIllegalOp : Prop :=
  ∀ s : State,
    (reservedField s.lcmd ≠ 0 ∨ opField s.lcmd ∈ ([0x0, 0xC, 0xD, 0xE, 0xF] : List (BitVec 4)) ∨
      (opField s.lcmd ∉ ([0x9, 0xA] : List (BitVec 4)) ∧ secField s.lcmd ≠ 0)) →
    complete s = .next { s with code := .illegalOp, fault := true, busy := false }

/-! ### The step -/

/-- R30 (10_state.md), R71, R241, with the model's agenda (log 1): the next move is the agenda's first, and where the agenda
is empty the block's while BUSY = 1 and the host's otherwise. A step takes it off the agenda and makes it: a host move, a
completion while BUSY = 1, which runs the decoded command, or nothing for an idle block. -/
def Obligations.StepRunsTheDecodedCommand : Prop :=
  ∀ s : State, configLegal s.cfg = true →
    (∀ i, nextMove s = .block → s.busy = true → decode s.lcmd = .ok i → step s = exec i (popAgenda s)) ∧
      (nextMove s = .block → s.busy = true → step s = complete (popAgenda s)) ∧
      (nextMove s = .block → s.busy = false → step s = .next (popAgenda s)) ∧
      (nextMove s = .host → step s = hostMove (popAgenda s)) ∧
      (∀ m rest, s.agenda = m :: rest → nextMove s = m) ∧
      (s.agenda = [] → nextMove s = if s.busy then .block else .host) ∧
      (popAgenda s).agenda = s.agenda.tail ∧ { popAgenda s with agenda := s.agenda } = s

/-- The model's placing of a command (log 2): the next step runs exactly the placed word. -/
def Obligations.PlacedWordRunsNext : Prop :=
  ∀ (s : State) (nbits : Nat) (w : Word) (i : Instr), configLegal s.cfg = true → decode w = .ok i →
    step (s.withFetchWord nbits w.toNat) = exec i (popAgenda (placeCommand w s))

/-- R233 (70_reset_and_hazards.md), with the legal values of R5, R55 and R101: a step is refused for its configuration
exactly where that is not legal, with the sines, the tolerances and the stored entries as reals. -/
def Obligations.IllegalConfigurationIsRefused : Prop :=
  ∀ s : State,
    step s = .refused .illegalConfiguration ↔
      ¬ (2 ≤ s.cfg.logN ∧ s.cfg.logN ≤ 16 ∧ (∃ v, decodeReal s.cfg.ts = some v ∧ 0 < v) ∧
          (∃ v, decodeReal s.cfg.udc = some v ∧ 0 < v) ∧ s.cfg.maxCounter ≠ 0 ∧ s.cfg.base % 64 = 0 ∧
          (∀ l, s.cfg.rom = .stored l →
            l.length = 2 ^ s.cfg.logN + 1 ∧
              Reference.param (l.getD (2 ^ s.cfg.logN) (.rat 0)) = Reference.param (l.getD 0 (.rat 0)) ∧
              ∀ k < 2 ^ s.cfg.logN,
                |Reference.param (l.getD k (.rat 0)) - Real.sin (2 * Real.pi * k / (2 ^ s.cfg.logN : ℕ))| ≤
                  Reference.param s.cfg.tolLut) ∧
          0 ≤ Reference.param s.cfg.tolLut ∧
          (∀ t ∈ [s.cfg.tolOp.sin, s.cfg.tolOp.cos, s.cfg.tolOp.norm, s.cfg.tolOp.clarke, s.cfg.tolOp.iclarke,
              s.cfg.tolOp.park, s.cfg.tolOp.ipark, s.cfg.tolOp.vtime, s.cfg.tolOp.cmap, s.cfg.tolOp.svpwm],
            0 ≤ Reference.param t) ∧
          0 ≤ Reference.param s.cfg.tolSector ∧ 0 ≤ Reference.param s.cfg.tolSat ∧
          ∀ x, s.cfg.xAcc = some x → 0 < Reference.param x)

/-- R22, R232: no step changes the configuration or the ROM. -/
def Obligations.NoStepChangesTheConfiguration : Prop := ∀ s t : State, step s = .next t → t.cfg = s.cfg

/-! ### Reset -/

/-- R230, R231, R232: the reset event, also with a command in flight: CMD, STATUS and SECTOR read 0, no IN, OUT or
latch is written, and the configuration stays. -/
def Obligations.ResetClearsTheBlock : Prop :=
  ∀ s : State, configLegal s.cfg = true → nextMove s = .reset →
    ∃ t, step s = .next t ∧ readRegister t .cmd = 0 ∧ readRegister t .status = 0 ∧ readRegister t .sector = 0 ∧
      t.busy = false ∧ (∀ k, (t.inp.get k).written = false ∧ (t.lin.get k).written = false) ∧
      (∀ k, (t.out.get k).written = false) ∧ t.cfg = s.cfg

/-- R23, R230: the machine after power-up reads the reset values the spec gives. -/
def Obligations.PowerUpValues : Prop :=
  readRegister State.reset .cmd = 0 ∧ readRegister State.reset .status = 0 ∧ readRegister State.reset .sector = 0 ∧
    readRegister State.reset .cfgN = 512 ∧ readRegister State.reset .cfgMaxc = 5000 ∧
    (∀ k, (State.reset.inp.get k).written = false) ∧ ∀ k, (State.reset.out.get k).written = false

/-! ### The window -/

/-- R23: the offsets of the sixteen registers, and that a 32-bit access at BASE plus its offset reaches each. -/
def Obligations.EveryRegisterAtItsOffset : Prop :=
  (∀ (cfg : Config) (r : WindowReg), accessed cfg (cfg.base + offsetOf r) 4 = some r) ∧
    [WindowReg.cmd, .status, .inp .in0, .inp .in1, .inp .in2, .sector, .out .out0, .out .out1, .out .out2, .out .out3,
        .out .out4, .out .out5, .cfgN, .cfgTs, .cfgUdc, .cfgMaxc].map offsetOf =
      [0x00, 0x04, 0x08, 0x0C, 0x10, 0x14, 0x18, 0x1C, 0x20, 0x24, 0x28, 0x2C, 0x30, 0x34, 0x38, 0x3C]

/-- R50, R53, R83: a host access at BASE plus a register's offset reaches that register: a read keeps its word in a host
variable and changes nothing else, a write does what the register does with a word given, with a variable's word, or with
the command word formed from `s[2:0]` of a variable; and BNZ changes the line alone. -/
def Obligations.HostAccessReachesTheRegister : Prop :=
  ∀ (s : State) (r : WindowReg),
    (∀ dst, s.host.script[s.host.next]? = some (.read (s.cfg.base + offsetOf r) 4 dst) →
      ∃ t, hostMove s = .next t ∧ { t with host := s.host } = s ∧ t.host.script = s.host.script ∧
        t.host.next = s.host.next + 1 ∧ lookupVar t.host.vars dst = some (readRegister s r) ∧
        ∀ k, k ≠ dst → lookupVar t.host.vars k = lookupVar s.host.vars k) ∧
    (∀ src w, s.host.script[s.host.next]? = some (.write (s.cfg.base + offsetOf r) 4 src) →
      (src = .word w ∨ (∃ k, src = .var k ∧ lookupVar s.host.vars k = some w) ∨
        ∃ op k v, src = .sectorCommand op k ∧ lookupVar s.host.vars k = some v ∧
          w = (0 : BitVec 25) ++ v.extractLsb' 0 3 ++ op) →
      hostMove s = .next (writeRegister r w { s with host := { s.host with next := s.host.next + 1 } })) ∧
    ∀ k bit target v, s.host.script[s.host.next]? = some (.branchIfSet k bit target) →
      lookupVar s.host.vars k = some v →
      hostMove s =
        .next { s with host := { s.host with next := if v.getLsbD bit then target else s.host.next + 1 } }

/-- R51 (20_memory.md): an access that is not 32 bits wide, not at BASE plus a multiple of 4, or outside the window is
refused: a read, and a write of a given word, of a variable's word, or of the command word formed of a variable's. -/
def Obligations.OtherAccessesAreRefused : Prop :=
  ∀ (s : State) (addr size : Nat),
    (size ≠ 4 ∨ addr < s.cfg.base ∨ s.cfg.base + 0x40 ≤ addr ∨ (addr - s.cfg.base) % 4 ≠ 0) →
    (∀ dst, s.host.script[s.host.next]? = some (.read addr size dst) → hostMove s = .refused (.busError addr size)) ∧
      ∀ src, s.host.script[s.host.next]? = some (.write addr size src) →
        ((∃ w, src = .word w) ∨ ∃ k v, lookupVar s.host.vars k = some v ∧ (src = .var k ∨ ∃ op, src = .sectorCommand op k)) →
        hostMove s = .refused (.busError addr size)

/-- R52: byte `b` of the word at offset `4j` is its bits `[8b+7 : 8b]`. -/
def Obligations.WindowBytesAreLittleEndian : Prop :=
  ∀ (s : State) (r : WindowReg) (b : Nat), b < 4 →
    windowByte s (s.cfg.base + offsetOf r + b) = some ((readRegister s r).extractLsb' (8 * b) 8)

/-- R56: a write to a read-only register changes nothing. -/
def Obligations.ReadOnlyRegistersIgnoreWrites : Prop :=
  ∀ (r : WindowReg) (w : Word) (s : State), r ≠ .cmd → (∀ k, r ≠ .inp k) → writeRegister r w s = s

/-- R25, R200: what a read of STATUS gives: its fields, its reserved bits, and the numbers of the codes. -/
def Obligations.StatusFields : Prop :=
  ∀ s : State,
    let w := readRegister s .status
    w.getLsbD 0 = s.busy ∧ w.getLsbD 1 = s.fault ∧ w.getLsbD 2 = s.ovr ∧ w.getLsbD 3 = s.sat ∧
      w.extractLsb' 8 24 = 0 ∧
      (s.code = .ok → w.extractLsb' 4 4 = 0) ∧ (s.code = .illegalOp → w.extractLsb' 4 4 = 1) ∧
      (s.code = .illegalSector → w.extractLsb' 4 4 = 2) ∧ (s.code = .nonfinite → w.extractLsb' 4 4 = 3) ∧
      (s.code = .angleRange → w.extractLsb' 4 4 = 4) ∧ (s.code = .overflow → w.extractLsb' 4 4 = 5)

/-- R29: the configuration registers. -/
def Obligations.ConfigurationRegisters : Prop :=
  ∀ s : State, configLegal s.cfg = true →
    (readRegister s .cfgN).toNat = 2 ^ s.cfg.logN ∧
      decodeReal (readRegister s .cfgTs) = some (switchingPeriod s.cfg) ∧
      decodeReal (readRegister s .cfgUdc) = some (busVoltage s.cfg) ∧
      ((readRegister s .cfgMaxc).toNat : Rat) = maxCount s.cfg

/-- R24, R30, R207: a write of CMD while idle is accepted, and while busy it is dropped and sets OVR, and nothing
else. A read of CMD gives the last accepted word. -/
def Obligations.CommandWrites : Prop :=
  ∀ (s : State) (c : Word),
    (s.busy = false → writeRegister .cmd c s = { s with cmd := c, lcmd := c, lin := s.inp, busy := true } ∧
        readRegister (writeRegister .cmd c s) .cmd = c) ∧
      (s.busy = true → writeRegister .cmd c s = { s with ovr := true } ∧
        readRegister (writeRegister .cmd c s) .cmd = readRegister s .cmd)

/-- R26: an IN register reads the word last written, and writing one changes nothing else. -/
def Obligations.OperandWriteReadsBack : Prop :=
  ∀ (s : State) (k : InReg) (w : Word),
    readRegister (writeRegister (.inp k) w s) (.inp k) = w ∧
      (∀ r, r ≠ .inp k → readRegister (writeRegister (.inp k) w s) r = readRegister s r) ∧
      { writeRegister (.inp k) w s with inp := s.inp } = s

/-- R30, R235: a host access to a command in flight leaves every register but STATUS and IN0 to IN2 as it was, and
BUSY, FAULT, SAT and CODE in STATUS. -/
def Obligations.ResultsAreStaleUntilCompletion : Prop :=
  ∀ s t : State, s.busy = true → nextMove s = .host → step s = .next t →
    (∀ r, r ≠ .status → (∀ k, r ≠ .inp k) → readRegister t r = readRegister s r) ∧
      t.busy = true ∧ t.fault = s.fault ∧ t.sat = s.sat ∧ t.code = s.code ∧ t.lcmd = s.lcmd ∧ t.lin = s.lin

/-- R26, R58, R236: an operand written after acceptance does not reach the command in flight. -/
def Obligations.LateOperandWritesDoNotReachTheCommand : Prop :=
  ∀ (i : Instr) (s : State) (k : InReg) (w : Word),
    exec i (writeIn k w s) = mapNext (writeIn k w) (exec i s)

/-- R79: an operand register that is not listed for a command is neither checked nor used (CLARKE's IN2, R131). -/
def Obligations.UnlistedOperandsAreNotUsed : Prop :=
  ∀ (i : Instr) (s : State) (k : InReg) (r : Reg), k ∉ operandsOf i →
    exec i { s with lin := s.lin.set k r } =
      mapNext (fun t => { t with lin := s.lin.set k r }) (exec i s)

/-! ### Faults -/

/-- R203 and the commit of R30: what the two commits write, and that they write nothing else; and R54, R58 (2), R27, R28:
a host read after the commit gives the words, the sector and the STATUS committed, and CMD as it was. -/
def Obligations.CommitWritesWhatItNames : Prop :=
  ∀ s : State,
    (∀ c : Code, c ≠ .ok → commit (.error c) s = { s with code := c, fault := true, busy := false }) ∧
      ∀ c : Commit, (c.outs.map Prod.fst).Nodup →
        (∀ k w, (k, w) ∈ c.outs → (commit (.ok c) s).out.get k = ⟨w, true⟩ ∧
          readRegister (commit (.ok c) s) (.out k) = w) ∧
          (∀ k, k ∉ c.outs.map Prod.fst → (commit (.ok c) s).out.get k = s.out.get k ∧
            readRegister (commit (.ok c) s) (.out k) = readRegister s (.out k)) ∧
          (∀ x, c.sector = some x → readRegister (commit (.ok c) s) .sector = x.setWidth 32) ∧
          readRegister (commit (.ok c) s) .cmd = readRegister s .cmd ∧
          (readRegister (commit (.ok c) s) .status).extractLsb' 4 4 = 0 ∧
          (readRegister (commit (.ok c) s) .status).getLsbD 0 = false ∧
          { commit (.ok c) s with out := s.out } =
            { s with code := .ok, busy := false, sector := c.sector.getD s.sector, sat := c.sat.getD s.sat }

/-- R204, R79: a command commits, with CODE 0, exactly the results listed for it, or, with another code, none. -/
def Obligations.EveryCommandIsAllOrNothing : Prop :=
  ∀ (i : Instr) (s t : State), exec i s = .next t →
    (∃ c : Commit, t = commitOk c s ∧ t.code = .ok ∧ c.outs.map Prod.fst = resultRegisters i ∧
        (c.sector.isSome = true ↔ i = .sector ∨ i = .svpwm) ∧
        (c.sat.isSome = true ↔ (∃ b, i = .vtime b) ∨ i = .svpwm)) ∨
      (t.code ≠ .ok ∧ t = { s with code := t.code, fault := true, busy := false })

/-- R72: VTIME and CMAP with SEC 0 or 7 end with ILLEGAL_SECTOR, whatever their operands. -/
def Obligations.IllegalSectorIsReported : Prop :=
  ∀ (sec : BitVec 3) (s : State), sec = 0 ∨ sec = 7 →
    exec (.vtime sec) s = .next { s with code := .illegalSector, fault := true, busy := false } ∧
      exec (.cmap sec) s = .next { s with code := .illegalSector, fault := true, busy := false }

/-- R210: a command that reads an operand never written ends in the model-only fault, after the decode checks. -/
def Obligations.UnwrittenOperandIsTheModelFault : Prop :=
  ∀ (i : Instr) (s : State) (k : InReg), i.wellFormed = true → s.cfg.operandCheck = true → k ∈ operandsOf i →
    (s.lin.get k).written = false → exec i s = .fault .unwrittenOperand

/-- R111, R200: a NaN or infinite operand ends every command with NONFINITE and no result. -/
def Obligations.NonfiniteOperandIsReported : Prop :=
  ∀ (i : Instr) (s : State) (k : InReg), i.wellFormed = true → runnable s (operandsOf i) = true →
    k ∈ operandsOf i → isFinite (operandWord s k) = false →
    exec i s = .next { s with code := .nonfinite, fault := true, busy := false }

/-- R136: PARK and IPARK end with ANGLE_RANGE exactly where the angle is not in `[0, 2π)`, with the real `2π`. -/
def Obligations.AngleRangeIsChecked : Prop :=
  ∀ (i : Instr) (s : State) (a b θ : Rat), i = .park ∨ i = .ipark → runnable s [.in0, .in1, .in2] = true →
    operand s .in0 = some a → operand s .in1 = some b → operand s .in2 = some θ →
    (¬ (0 ≤ (θ : ℝ) ∧ (θ : ℝ) < 2 * Real.pi) →
        exec i s = .next { s with code := .angleRange, fault := true, busy := false }) ∧
      ((0 ≤ (θ : ℝ) ∧ (θ : ℝ) < 2 * Real.pi) → ∃ t, exec i s = .next t ∧ t.code ≠ .angleRange)

/-- R202: one code, the first that fails in the order ILLEGAL_OP, ILLEGAL_SECTOR, the model-only fault, NONFINITE,
ANGLE_RANGE, OVERFLOW. -/
def Obligations.FaultPriority : Prop :=
  ∀ s : State,
    (∀ e, decode s.lcmd = .error e →
      complete s = .next { s with code := .illegalOp, fault := true, busy := false }) ∧
    ∀ i, decode s.lcmd = .ok i →
      if i.wellFormed = false then complete s = .next { s with code := .illegalSector, fault := true, busy := false }
      else if runnable s (operandsOf i) = false then complete s = .fault .unwrittenOperand
      else if (operandsOf i).any (fun k => !isFinite (operandWord s k)) then
        complete s = .next { s with code := .nonfinite, fault := true, busy := false }
      else if (i = .park ∨ i = .ipark) ∧ (operand s .in2).all angleInRange = false then
        complete s = .next { s with code := .angleRange, fault := true, busy := false }
      else ∃ t, complete s = .next t ∧ (t.code = .ok ∨ t.code = .overflow)

/-- R25, R206, R207: FAULT and OVR stay set until reset. -/
def Obligations.StickyFlagsFallOnlyAtReset : Prop :=
  ∀ s t : State, step s = .next t → nextMove s ≠ .reset →
    (s.fault = true → t.fault = true) ∧ (s.ovr = true → t.ovr = true)

/-- R27, R28: only the completion of a command writes OUT0 to OUT5, SECTOR, SAT and CODE (and a reset). -/
def Obligations.OnlyCompletionsWriteResults : Prop :=
  ∀ s t : State, step s = .next t → nextMove s ≠ .reset → ¬ (nextMove s = .block ∧ s.busy = true) →
    t.out = s.out ∧ t.sector = s.sector ∧ t.sat = s.sat ∧ t.code = s.code ∧ t.fault = s.fault

/-! ### Rounding -/

/-- R77: on every number `p + q√3` the machine's rounding is `ENC`, round to nearest even with OVERFLOW and `+0`. -/
def Obligations.SurdRoundingIsExact : Prop :=
  ∀ (x : Surd) (r : Option Word), x.enc = r ↔ Reference.IsEnc (Reference.surd x) r

/-- R8, R77, R85, with R100 to R102 and R120: in every legal configuration, with any table and any `ENC`, the machine's
rounding of every result is `ENC` of the exact real. -/
def Obligations.EveryRoundingIsExact : Prop :=
  ∀ (cfg : Config) (e : Exact) (r : Option Word), configLegal cfg = true →
    (e.enc cfg = r ↔ Reference.Encodes cfg.enc (Reference.value cfg e) r)

/-- R78, R79, R85, R112, R124, R155, R161, R164, R169, with the model's draws (log 6), in every instance. A delivered word is
`ENC` of the exact result or within the tolerance of it, and never `-0` where nothing is drawn; `ENC` stands also where the
tolerance is smaller than a rounding error (log 23). A SIN or COS word lies in `[-1, 1]` besides and a NORM word in `[0, 2π)`,
where the tolerance is measured on the circle. These, and a result of SVPWM or own-sector VTIME whose `ENC` overflows, are
another word of the promised range where neither `ENC` nor any word of that range within the tolerance can stand (log 22).
The sector, the saturation outcome of the times and the reported SAT are the strict ones outside their bands; a sum of 0 has
the unsaturated times (log 15). Every command that ends with CODE 0 writes such words, with its own `TOL_OP` and, for SIN and
COS, with every word of `[-1, 1]` only where `|x| > X_ACC`; and SVPWM on finite operands ends with CODE 0. -/
def Obligations.TolerantChoicesConform : Prop :=
  (∀ (cfg : Config) (cmd : Word) (ops : List Word) (j : Nat) (e : Exact) (tol : RealParam) (w : Word),
    configLegal cfg = true →
    let x := Reference.value cfg e
    (deliveredWord cfg cmd ops (.plain tol) j e = some w → Delivered cfg tol none x w) ∧
      (∀ hi, deliveredWord cfg cmd ops (.bounded tol hi) j e = some w → Delivered cfg tol (some hi) x w) ∧
      (∀ far : Bool, deliveredWord cfg cmd ops (.unitRange tol far) j e = some w → DeliveredUnit cfg tol (far = true) x w) ∧
      (deliveredWord cfg cmd ops (.circle tol) j e = some w → DeliveredCircle cfg tol x w) ∧
      ∀ k : Conformance, k.tolerant = false → deliveredWord cfg cmd ops k j e = some w → w ≠ 0x80000000) ∧
  (∀ (s : State) (alpha beta : Rat), configLegal s.cfg = true →
    (∀ reads, AdmittedSector s.cfg alpha beta (classify s reads alpha beta)) ∧
      ∀ reads sec,
        let T := vectorTimes s reads sec alpha beta
        AdmittedOutcome s.cfg sec alpha beta T.sat ∧
          AdmittedTimes s.cfg sec alpha beta (Reference.surd T.tx, Reference.surd T.ty) ∧
          (Reference.surd T.t0, Reference.surd T.t1, Reference.surd T.t2) =
            Reference.split (switchingPeriod s.cfg) (Reference.surd T.tx, Reference.surd T.ty)) ∧
  ∀ s t : State, configLegal s.cfg = true →
    (∀ i, exec i s = .next t → t.code = .ok → ResultsConform s t i) ∧
      (exec .svpwm s = .next t → operand s .in0 ≠ none → operand s .in1 ≠ none → t.code = .ok)

/-! ### The commands' results, in an instance that draws nothing (R78)

Each of these has as its conclusion the next state of the command, with `ENC` of the instance (R5). -/

/-- R105: SIN, on any legal table, where `ENC` of the interpolation lies in `[-1, 1]`; on the reference table it always
does (R107, and the statement SinAndCosAlwaysComplete). -/
def Obligations.SinWritesTheInterpolatedSine : Prop :=
  ∀ (s : State) (x : Rat) (w : Word) (v : Rat), drawsNothing s.cfg = true → configLegal s.cfg = true →
    runnable s [.in0] = true → operand s .in0 = some x →
    Reference.Encodes s.cfg.enc (Reference.sine s.cfg x) (some w) → decodeReal w = some v → -1 ≤ v → v ≤ 1 →
    exec .sin s = .next (commitOk ⟨[(.out0, w)], none, none⟩ s)

/-- R106: COS, on any legal table, where `ENC` of the interpolation lies in `[-1, 1]`; on the reference table it always
does (R107, and the statement SinAndCosAlwaysComplete). -/
def Obligations.CosWritesTheInterpolatedCosine : Prop :=
  ∀ (s : State) (x : Rat) (w : Word) (v : Rat), drawsNothing s.cfg = true → configLegal s.cfg = true →
    runnable s [.in0] = true → operand s .in0 = some x →
    Reference.Encodes s.cfg.enc (Reference.cosine s.cfg x) (some w) → decodeReal w = some v → -1 ≤ v → v ≤ 1 →
    exec .cos s = .next (commitOk ⟨[(.out0, w)], none, none⟩ s)

/-- R105, R106, R78, R107, R201: SIN and COS on a finite operand always complete with CODE 0 and a word in `[-1, 1]`, with any
table, tolerance and `ENC` (log 22); and in the exact model with the default `ENC` that word is `ENC` of the
interpolation, which never overflows. -/
def Obligations.SinAndCosAlwaysComplete : Prop :=
  ∀ (i : Instr) (s : State) (x : Rat), i = .sin ∨ i = .cos → configLegal s.cfg = true → runnable s [.in0] = true →
    operand s .in0 = some x →
    ∃ (w : Word) (v : Rat), exec i s = .next (commitOk ⟨[(.out0, w)], none, none⟩ s) ∧
      decodeReal w = some v ∧ -1 ≤ v ∧ v ≤ 1 ∧
      (exactModel s.cfg = true → s.cfg.enc = .nearestEven →
        (i = .sin → Reference.IsEnc (Reference.sine s.cfg x) (some w)) ∧
          (i = .cos → Reference.IsEnc (Reference.cosine s.cfg x) (some w)))

/-- R120: NORM, with the word it writes where `ENC` reaches `2π`. -/
def Obligations.NormWritesTheWrappedAngle : Prop :=
  ∀ (s : State) (θ : Rat) (w : Word) (v : Rat), drawsNothing s.cfg = true → configLegal s.cfg = true →
    runnable s [.in0] = true → operand s .in0 = some θ →
    Reference.Encodes s.cfg.enc (Reference.normalized θ) (some w) → decodeReal w = some v → 0 ≤ v →
    ((v : ℝ) < 2 * Real.pi → exec .norm s = .next (commitOk ⟨[(.out0, w)], none, none⟩ s)) ∧
      (2 * Real.pi ≤ (v : ℝ) → exec .norm s = .next (commitOk ⟨[(.out0, 0)], none, none⟩ s))

/-- R123, also for a tolerant instance (R124) and for another `ENC` (log 22): NORM on a finite operand always completes
with a word whose value lies in `[0, DEC(0x40C90FDA)]`, so that it passes the angle check of PARK and IPARK. -/
def Obligations.NormOutputPassesTheAngleCheck : Prop :=
  ∀ (s : State) (θ : Rat), configLegal s.cfg = true → runnable s [.in0] = true → operand s .in0 = some θ →
    ∃ (w : Word) (v : Rat), exec .norm s = .next (commitOk ⟨[(.out0, w)], none, none⟩ s) ∧
      decodeReal w = some v ∧ 0 ≤ v ∧ v ≤ magValue 0x40C90FDA ∧ angleInRange v = true

/-- R130: CLARKE, and its OVERFLOW. -/
def Obligations.ClarkeWritesTheTransform : Prop :=
  ∀ (s : State) (u v : Rat), drawsNothing s.cfg = true → runnable s [.in0, .in1] = true →
    operand s .in0 = some u → operand s .in1 = some v →
    (∀ wa wb, Reference.Encodes s.cfg.enc u (some wa) → Reference.Encodes s.cfg.enc ((u + 2 * v) / Real.sqrt 3) (some wb) →
        exec .clarke s = .next (commitOk ⟨[(.out0, wa), (.out1, wb)], none, none⟩ s)) ∧
      (Reference.Encodes s.cfg.enc u none ∨ Reference.Encodes s.cfg.enc ((u + 2 * v) / Real.sqrt 3) none →
        exec .clarke s = .next { s with code := .overflow, fault := true, busy := false })

/-- R132: ICLARKE, and its OVERFLOW. -/
def Obligations.IclarkeWritesTheInverseTransform : Prop :=
  ∀ (s : State) (alpha beta : Rat), drawsNothing s.cfg = true → runnable s [.in0, .in1] = true →
    operand s .in0 = some alpha → operand s .in1 = some beta →
    let v : ℝ := (-alpha + Real.sqrt 3 * beta) / 2
    let w : ℝ := (-alpha - Real.sqrt 3 * beta) / 2
    (∀ wu wv ww, Reference.Encodes s.cfg.enc alpha (some wu) → Reference.Encodes s.cfg.enc v (some wv) →
        Reference.Encodes s.cfg.enc w (some ww) →
        exec .iclarke s = .next (commitOk ⟨[(.out0, wu), (.out1, wv), (.out2, ww)], none, none⟩ s)) ∧
      (Reference.Encodes s.cfg.enc alpha none ∨ Reference.Encodes s.cfg.enc v none ∨ Reference.Encodes s.cfg.enc w none →
        exec .iclarke s = .next { s with code := .overflow, fault := true, busy := false })

/-- R134: PARK on any legal table, and its OVERFLOW. -/
def Obligations.ParkWritesTheRotation : Prop :=
  ∀ (s : State) (alpha beta θ : Rat), drawsNothing s.cfg = true → configLegal s.cfg = true →
    runnable s [.in0, .in1, .in2] = true →
    operand s .in0 = some alpha → operand s .in1 = some beta → operand s .in2 = some θ →
    0 ≤ (θ : ℝ) → (θ : ℝ) < 2 * Real.pi →
    let x : ℝ := Reference.cosine s.cfg θ * alpha + Reference.sine s.cfg θ * beta
    let y : ℝ := -Reference.sine s.cfg θ * alpha + Reference.cosine s.cfg θ * beta
    (∀ w0 w1, Reference.Encodes s.cfg.enc x (some w0) → Reference.Encodes s.cfg.enc y (some w1) →
        exec .park s = .next (commitOk ⟨[(.out0, w0), (.out1, w1)], none, none⟩ s)) ∧
      (Reference.Encodes s.cfg.enc x none ∨ Reference.Encodes s.cfg.enc y none →
        exec .park s = .next { s with code := .overflow, fault := true, busy := false })

/-- R135: IPARK on any legal table, and its OVERFLOW. -/
def Obligations.IparkWritesTheInverseRotation : Prop :=
  ∀ (s : State) (id iq θ : Rat), drawsNothing s.cfg = true → configLegal s.cfg = true →
    runnable s [.in0, .in1, .in2] = true →
    operand s .in0 = some id → operand s .in1 = some iq → operand s .in2 = some θ →
    0 ≤ (θ : ℝ) → (θ : ℝ) < 2 * Real.pi →
    let x : ℝ := Reference.cosine s.cfg θ * id - Reference.sine s.cfg θ * iq
    let y : ℝ := Reference.sine s.cfg θ * id + Reference.cosine s.cfg θ * iq
    (∀ w0 w1, Reference.Encodes s.cfg.enc x (some w0) → Reference.Encodes s.cfg.enc y (some w1) →
        exec .ipark s = .next (commitOk ⟨[(.out0, w0), (.out1, w1)], none, none⟩ s)) ∧
      (Reference.Encodes s.cfg.enc x none ∨ Reference.Encodes s.cfg.enc y none →
        exec .ipark s = .next { s with code := .overflow, fault := true, busy := false })

/-- R150, R151, R156: SECTOR, by the discriminants over the reals. -/
def Obligations.SectorWritesTheClassification : Prop :=
  ∀ (s : State) (alpha beta : Rat), drawsNothing s.cfg = true → runnable s [.in0, .in1] = true →
    operand s .in0 = some alpha → operand s .in1 = some beta →
    exec .sector s =
      .next (commitOk ⟨[], some (BitVec.ofNat 3 (Reference.sectorNumber alpha beta)), none⟩ s)

/-- R157 to R161: VTIME for every legal sector, whether it is the vector's or not (R163), by the times over the reals;
and its OVERFLOW, which is possible only with a sector that is not the vector's. -/
def Obligations.VtimeWritesTheVectorTimes : Prop :=
  ∀ (s : State) (b : BitVec 3) (sec : Sector) (alpha beta : Rat),
    sectorOfBits b = some sec → drawsNothing s.cfg = true → configLegal s.cfg = true →
    runnable s [.in0, .in1] = true → operand s .in0 = some alpha → operand s .in1 = some beta →
    let ts : ℝ := switchingPeriod s.cfg
    let udc : ℝ := busVoltage s.cfg
    let t := Reference.onTimes sec ts udc alpha beta
    let i := Reference.instants sec ts udc alpha beta
    (∀ (w0 w1 w2 wx wy : Word) (sat : Bool),
        Reference.Encodes s.cfg.enc i.1 (some w0) → Reference.Encodes s.cfg.enc i.2.1 (some w1) →
        Reference.Encodes s.cfg.enc i.2.2 (some w2) →
        Reference.Encodes s.cfg.enc t.1 (some wx) → Reference.Encodes s.cfg.enc t.2 (some wy) →
        (sat = true ↔ Reference.Saturates sec ts udc alpha beta) →
        exec (.vtime b) s =
          .next (commitOk ⟨[(.out0, w0), (.out1, w1), (.out2, w2), (.out3, wx), (.out4, wy)], none, some sat⟩ s)) ∧
      (sectorBits sec ≠ BitVec.ofNat 3 (Reference.sectorNumber alpha beta) →
        Reference.Encodes s.cfg.enc i.1 none ∨ Reference.Encodes s.cfg.enc i.2.1 none ∨
          Reference.Encodes s.cfg.enc i.2.2 none ∨ Reference.Encodes s.cfg.enc t.1 none ∨
          Reference.Encodes s.cfg.enc t.2 none →
        exec (.vtime b) s = .next { s with code := .overflow, fault := true, busy := false })

/-- R165 to R167: CMAP for every legal sector and any finite times (R168), and its OVERFLOW. -/
def Obligations.CmapWritesTheCounters : Prop :=
  ∀ (s : State) (b : BitVec 3) (sec : Sector) (t0 t1 t2 : Rat),
    sectorOfBits b = some sec → drawsNothing s.cfg = true → configLegal s.cfg = true →
    runnable s [.in0, .in1, .in2] = true →
    operand s .in0 = some t0 → operand s .in1 = some t1 → operand s .in2 = some t2 →
    let p := Reference.permute sec ((t0 : ℝ), (t1 : ℝ), (t2 : ℝ))
    let m : ℝ := s.cfg.maxCounter.toNat
    let ts : ℝ := switchingPeriod s.cfg
    (∀ wu wv ww, Reference.Encodes s.cfg.enc (p.1 * m / ts) (some wu) →
        Reference.Encodes s.cfg.enc (p.2.1 * m / ts) (some wv) →
        Reference.Encodes s.cfg.enc (p.2.2 * m / ts) (some ww) →
        exec (.cmap b) s = .next (commitOk ⟨[(.out0, wu), (.out1, wv), (.out2, ww)], none, none⟩ s)) ∧
      (Reference.Encodes s.cfg.enc (p.1 * m / ts) none ∨ Reference.Encodes s.cfg.enc (p.2.1 * m / ts) none ∨
          Reference.Encodes s.cfg.enc (p.2.2 * m / ts) none →
        exec (.cmap b) s = .next { s with code := .overflow, fault := true, busy := false })

/-- R169, with the default `ENC`: SVPWM always completes with CODE 0 on finite operands, and writes the sector, the
counters, the times and SAT of the exact chain. -/
def Obligations.SvpwmWritesTheComposedResults : Prop :=
  ∀ (s : State) (alpha beta : Rat), drawsNothing s.cfg = true → s.cfg.enc = .nearestEven → configLegal s.cfg = true →
    runnable s [.in0, .in1] = true → operand s .in0 = some alpha → operand s .in1 = some beta →
    ∃ (sec : Sector) (sat : Bool) (wu wv ww w0 w1 w2 : Word),
      let ts : ℝ := switchingPeriod s.cfg
      let udc : ℝ := busVoltage s.cfg
      let i := Reference.instants sec ts udc alpha beta
      let p := Reference.permute sec i
      let m : ℝ := s.cfg.maxCounter.toNat
      sectorBits sec = BitVec.ofNat 3 (Reference.sectorNumber alpha beta) ∧
        (sat = true ↔ Reference.Saturates sec ts udc alpha beta) ∧
        Reference.IsEnc (p.1 * m / ts) (some wu) ∧ Reference.IsEnc (p.2.1 * m / ts) (some wv) ∧
        Reference.IsEnc (p.2.2 * m / ts) (some ww) ∧
        Reference.IsEnc i.1 (some w0) ∧ Reference.IsEnc i.2.1 (some w1) ∧ Reference.IsEnc i.2.2 (some w2) ∧
        exec .svpwm s =
          .next (commitOk ⟨[(.out0, wu), (.out1, wv), (.out2, ww), (.out3, w0), (.out4, w1), (.out5, w2)],
            some (sectorBits sec), some sat⟩ s)

/-- R153, R170: at the origin SVPWM takes the default sector 6 and quarter times and counters. -/
def Obligations.SvpwmAtTheOrigin : Prop :=
  ∀ (s : State) (wc wt : Word), drawsNothing s.cfg = true → configLegal s.cfg = true →
    runnable s [.in0, .in1] = true → operand s .in0 = some 0 → operand s .in1 = some 0 →
    Reference.Encodes s.cfg.enc ((s.cfg.maxCounter.toNat : ℝ) / 4) (some wc) →
    Reference.Encodes s.cfg.enc ((switchingPeriod s.cfg : ℝ) / 4) (some wt) →
    exec .svpwm s =
      .next (commitOk ⟨[(.out0, wc), (.out1, wc), (.out2, wc), (.out3, wt), (.out4, wt), (.out5, wt)],
        some 6, some false⟩ s)

/-- Every well-formed command whose operands do not end it in the model-only fault answers a next state, with the
block idle again (R30, R202; on finite operands in range and without overflow the statements above say which). -/
def Obligations.EveryCommandCompletes : Prop :=
  ∀ (i : Instr) (s : State), i.wellFormed = true → runnable s (operandsOf i) = true →
    ∃ t, exec i s = .next t ∧ t.busy = false

/-- R201, with the last lines of R161 and R169: in every instance a command ends with OVERFLOW only if it is CLARKE, ICLARKE,
PARK, IPARK, CMAP, or VTIME with a sector that is not the vector's (log 22 where the rules contradict each other). -/
def Obligations.OverflowOnlyWhereItIsPossible : Prop :=
  ∀ (i : Instr) (s t : State), exec i s = .next t → t.code = .overflow →
    i = .clarke ∨ i = .iclarke ∨ i = .park ∨ i = .ipark ∨ (∃ b, i = .cmap b) ∨
      ∃ (b : BitVec 3) (sec : Sector) (alpha beta : Rat), i = .vtime b ∧ sectorOfBits b = some sec ∧
        operand s .in0 = some alpha ∧ operand s .in1 = some beta ∧
        sectorBits sec ≠ BitVec.ofNat 3 (Reference.sectorNumber alpha beta)

/-! ### Laws of the reference -/

/-- R107: with the reference table the interpolation stays in `[-1, 1]`. -/
def Obligations.InterpolationStaysInUnitRange : Prop :=
  ∀ (cfg : Config) (x : ℝ), cfg.rom = .reference → |Reference.tsin cfg x| ≤ 1

/-- R108: the interpolation has the period `N` in index space, also on a stored table. -/
def Obligations.InterpolationIsPeriodic : Prop :=
  ∀ (cfg : Config) (x : ℝ), Reference.tsin cfg (x + tableSize cfg) = Reference.tsin cfg x

/-- R110: the interpolated sine is within `(2π/N)² / 8` of the sine. -/
def Obligations.InterpolationErrorBound : Prop :=
  ∀ (cfg : Config) (x : ℝ), cfg.rom = .reference → configLegal cfg = true →
    |Reference.sine cfg x - Real.sin x| ≤ (2 * Real.pi / tableSize cfg) ^ 2 / 8

/-- R133 (a): ICLARKE's exact results sum to 0. -/
def Obligations.IclarkeResultsSumToZero : Prop :=
  ∀ (cfg : Config) (alpha beta : Rat),
    ((iclarkeResults alpha beta).map fun r => Reference.value cfg r.2).sum = 0

/-- R153: code 7 never occurs, and code 0 only at the origin. -/
def Obligations.DegenerateCodes : Prop :=
  ∀ alpha beta : Rat,
    let d := discriminants alpha beta
    sectorCode d.1.pos d.2.1.pos d.2.2.pos ≠ 7 ∧
      (sectorCode d.1.pos d.2.1.pos d.2.2.pos = 0 ↔ alpha = 0 ∧ beta = 0)

/-- R162 (a) to (c): the times of a vector in its own sector. `t2 = Ts/2` also where `Tx + Ty = Ts` exactly, which
R159 does not count as saturation (log 21). -/
def Obligations.MatchingSectorTimesAreOrdered : Prop :=
  ∀ (s : State) (alpha beta : Rat), drawsNothing s.cfg = true → configLegal s.cfg = true →
    let t := vectorTimes s [.in0, .in1] (classify s [.in0, .in1] alpha beta) alpha beta
    let ts : ℝ := switchingPeriod s.cfg
    0 ≤ Reference.surd t.tx ∧ 0 ≤ Reference.surd t.ty ∧ Reference.surd t.tx + Reference.surd t.ty ≤ ts ∧
      0 ≤ Reference.surd t.t0 ∧ Reference.surd t.t0 ≤ Reference.surd t.t1 ∧
      Reference.surd t.t1 ≤ Reference.surd t.t2 ∧ Reference.surd t.t2 ≤ ts / 2 ∧
      (Reference.surd t.t2 = ts / 2 ↔ t.sat = true ∨ Reference.surd t.tx + Reference.surd t.ty = ts)

/-- R168: times in order in `[0, Ts]` give counters in `[0, MAX_COUNTER]`, in every sector. -/
def Obligations.CountersStayInRange : Prop :=
  ∀ (cfg : Config) (sec : Sector) (t0 t1 t2 : Surd), configLegal cfg = true →
    0 ≤ Reference.surd t0 → Reference.surd t0 ≤ Reference.surd t1 → Reference.surd t1 ≤ Reference.surd t2 →
    Reference.surd t2 ≤ switchingPeriod cfg →
    ∀ r ∈ counterResults cfg sec t0 t1 t2,
      0 ≤ Reference.value cfg r.2 ∧ Reference.value cfg r.2 ≤ cfg.maxCounter.toNat

/-! ### Frames -/

/-- R27, R79, R203: SIN, COS, NORM, CLARKE, ICLARKE, PARK, IPARK and CMAP change STATUS.CODE, FAULT and BUSY and the
OUT registers R79 lists for them, and nothing else: not SAT, not SECTOR, and no other byte of the window. -/
def Obligations.FrameOfNumericCommands : Prop :=
  ∀ (i : Instr) (s t : State),
    (i = .sin ∨ i = .cos ∨ i = .norm ∨ i = .clarke ∨ i = .iclarke ∨ i = .park ∨ i = .ipark ∨ ∃ sec, i = .cmap sec) →
    exec i s = .next t →
    SameOutsideResults s t ∧ t.sat = s.sat ∧ t.sector = s.sector ∧
      (∀ k, k ∉ resultRegisters i → t.out.get k = s.out.get k) ∧
      ∀ (r : WindowReg) (b : Nat), r ≠ .status → (∀ k ∈ resultRegisters i, r ≠ .out k) → b < 4 →
        windowByte t (s.cfg.base + offsetOf r + b) = windowByte s (s.cfg.base + offsetOf r + b)

/-- R28, R79, R156, R203: SECTOR changes CODE, FAULT, BUSY and the SECTOR register; VTIME changes CODE, FAULT, BUSY, SAT
and OUT0 to OUT4; SVPWM changes CODE, FAULT, BUSY, SAT, SECTOR and OUT0 to OUT5; and nothing else. -/
def Obligations.FrameOfSvpwmCommands : Prop :=
  ∀ (i : Instr) (s t : State), (i = .sector ∨ (∃ sec, i = .vtime sec) ∨ i = .svpwm) → exec i s = .next t →
    SameOutsideResults s t ∧ (i = .sector → t.sat = s.sat) ∧ ((∃ sec, i = .vtime sec) → t.sector = s.sector) ∧
      (∀ k, k ∉ resultRegisters i → t.out.get k = s.out.get k) ∧
      ∀ (r : WindowReg) (b : Nat), r ≠ .status → r ≠ .sector → (∀ k ∈ resultRegisters i, r ≠ .out k) → b < 4 →
        windowByte t (s.cfg.base + offsetOf r + b) = windowByte s (s.cfg.base + offsetOf r + b)

/-! ### The invariant -/

/-- The invariant of Safety.lean holds at reset. -/
def Obligations.ResetHasTheInvariant : Prop := Inv State.reset

/-- R24, R25, R28, R30, R77, and the model's own order of the host's variables (log 2): every step keeps the
invariant, from every state that has it: SECTOR is never 7, FAULT is set while CODE reports a fault, CMD shows the
command in flight, every written result is finite, and the host's variables stay in order. -/
def Obligations.EveryStepKeepsTheInvariant : Prop := ∀ s t : State, Inv s → step s = .next t → Inv t
end

