-- ==== Sys2Proof/Laws/Binary32.lean ====
section
/-! SUPPORT. Facts about the binary32 values and the rounding: the values rise with the words, and `encMag` is
round to nearest, ties to even. -/

namespace Sys2Proof.Machine

/-- The value of a sign-free word as a whole number of `2^-149`. -/
def magUnits (n : Nat) : Nat :=
  if n / 2 ^ 23 = 0 then n % 2 ^ 23 else (2 ^ 23 + n % 2 ^ 23) * 2 ^ (n / 2 ^ 23 - 1)

theorem magValue_eq_units (n : Nat) : magValue n = (magUnits n : Rat) / 2 ^ 149 := by
  unfold magValue magUnits
  simp only []
  generalize n / 2 ^ 23 = e
  generalize n % 2 ^ 23 = m
  by_cases he : e = 0
  · rw [if_pos he, if_pos he]; norm_num
  · rw [if_neg he, if_neg he]
    by_cases h150 : 150 ≤ e
    · rw [if_pos h150]
      obtain ⟨d, rfl⟩ := Nat.exists_eq_add_of_le h150
      have h1 : 150 + d - 150 = d := by omega
      have h2 : 150 + d - 1 = d + 149 := by omega
      rw [h1, h2, eq_div_iff (by positivity)]
      push_cast
      ring
    · rw [if_neg h150]
      have h1 : 2 ^ (150 - e) * 2 ^ (e - 1) = (2 ^ 149 : Rat) := by rw [← pow_add]; congr 1; omega
      rw [div_eq_div_iff (by positivity) (by positivity), ← h1]
      push_cast
      ring

theorem magUnits_lt_succ (n : Nat) : magUnits n < magUnits (n + 1) := by
  unfold magUnits
  have hd := Nat.div_add_mod n (2 ^ 23)
  have hm := Nat.mod_lt n (show 0 < 2 ^ 23 by norm_num)
  by_cases hc : n % 2 ^ 23 + 1 < 2 ^ 23
  · have hq : (n + 1) / 2 ^ 23 = n / 2 ^ 23 := by omega
    have hr : (n + 1) % 2 ^ 23 = n % 2 ^ 23 + 1 := by omega
    rw [hq, hr]
    split_ifs
    · omega
    · exact Nat.mul_lt_mul_of_pos_right (by omega) (by positivity)
  · have hq : (n + 1) / 2 ^ 23 = n / 2 ^ 23 + 1 := by omega
    have hr : (n + 1) % 2 ^ 23 = 0 := by omega
    rw [hq, hr, if_neg (Nat.succ_ne_zero _)]
    split_ifs with h0
    · rw [h0]; norm_num; omega
    · obtain ⟨d, hd'⟩ : ∃ d, n / 2 ^ 23 = d + 1 := ⟨n / 2 ^ 23 - 1, by omega⟩
      rw [hd']
      have h1 : (2 ^ 23 + n % 2 ^ 23) * 2 ^ d < (2 ^ 23 + 2 ^ 23) * 2 ^ d :=
        Nat.mul_lt_mul_of_pos_right (by omega) (by positivity)
      have h2 : (2 ^ 23 + 2 ^ 23) * 2 ^ d = (2 ^ 23 + 0) * 2 ^ (d + 1 + 1 - 1) := by
        rw [show d + 1 + 1 - 1 = d + 1 from rfl, pow_succ]; ring
      exact h2 ▸ h1

theorem magUnits_strictMono : StrictMono magUnits := strictMono_nat_of_lt_succ magUnits_lt_succ

/-- The values rise strictly with the sign-free words. -/
theorem magValue_strictMono : StrictMono magValue := by
  intro a b h
  rw [magValue_eq_units, magValue_eq_units]
  have := magUnits_strictMono h
  gcongr

theorem magValue_zero : magValue 0 = 0 := by simp [magValue]

theorem magValue_nonneg (n : Nat) : 0 ≤ magValue n := by
  rw [magValue_eq_units]; positivity

/-- The midpoint above the greatest finite word is the overflow bound (R77). -/
theorem mid_maxMag : (magValue maxMag + magValue (maxMag + 1)) / 2 = overflowBound := by decide +kernel

/-- `findMag` stays at or below the greatest finite word. -/
theorem findMag_le_maxMag (le : Rat → Bool) (b acc : Nat) (h : acc ≤ maxMag) : findMag le b acc ≤ maxMag := by
  induction b generalizing acc with
  | zero => exact h
  | succ b ih =>
    apply ih
    split_ifs with hc
    · simp only [Bool.and_eq_true, decide_eq_true_eq] at hc; exact hc.1
    · exact h

/-- Whatever the comparison answers, the rounded magnitude is that of a finite word. -/
theorem encMag_le_maxMag (cmp : Rat → Ordering) (n : Nat) (h : encMag cmp = some n) : n ≤ maxMag := by
  unfold encMag at h
  split_ifs at h with hb
  have hm := findMag_le_maxMag (fun q => cmp q != .lt) 31 0 (by decide)
  simp only [] at h
  generalize findMag (fun q => cmp q != .lt) 31 0 = m at h hm
  have key : m = maxMag → cmp ((magValue m + magValue (m + 1)) / 2) = .lt := by
    rintro rfl
    rw [mid_maxMag]
    simpa using hb
  split at h
  · simp only [Option.some.injEq] at h; omega
  · rename_i hgt
    have : m ≠ maxMag := fun e => by rw [key e] at hgt; cases hgt
    simp only [Option.some.injEq] at h; omega
  · rename_i heq
    have : m ≠ maxMag := fun e => by rw [key e] at heq; cases heq
    simp only [Option.some.injEq] at h; omega

theorem maxMag_val : maxMag = 2139095039 := rfl

/-- A sign and a finite magnitude make a finite word. -/
theorem joinSign_finite (s : Bool) (n : Nat) (h : n ≤ maxMag) : isFinite (joinSign s n) = true := by
  rw [maxMag_val] at h
  unfold isFinite joinSign magOf
  split_ifs <;> simp only [BitVec.toNat_ofNat, decide_eq_true_eq] <;> omega

/-- `ENC` of a rational is a finite word. -/
theorem encRat_finite (x : Rat) (w : Word) (h : encRat x = some w) : isFinite w = true := by
  unfold encRat at h
  split_ifs at h <;>
  · obtain ⟨n, hn, rfl⟩ := Option.map_eq_some_iff.mp h
    exact joinSign_finite _ _ (encMag_le_maxMag _ _ hn)

/-- What `findMag` finds, for a downward closed test: the greatest finite word in reach that passes it. -/
theorem findMag_spec (le : Rat → Bool) (hle : ∀ a b, a ≤ b → le b = true → le a = true) (b acc : Nat)
    (hacc : acc ≤ maxMag) (h0 : le (magValue acc) = true) :
    acc ≤ findMag le b acc ∧ le (magValue (findMag le b acc)) = true ∧
      ∀ t, findMag le b acc < t → t < acc + 2 ^ b → t ≤ maxMag → le (magValue t) = false := by
  induction b generalizing acc with
  | zero => exact ⟨le_rfl, h0, fun t h1 h2 _ => by simp only [findMag, pow_zero] at h1 h2; omega⟩
  | succ b ih =>
    simp only [findMag]
    by_cases hc : acc + 2 ^ b ≤ maxMag ∧ le (magValue (acc + 2 ^ b)) = true
    · rw [if_pos (by simp [hc])]
      obtain ⟨h1, h2, h3⟩ := ih (acc + 2 ^ b) hc.1 hc.2
      exact ⟨(Nat.le_add_right _ _).trans h1, h2, fun t ht ht' hm => h3 t ht (by rw [pow_succ] at ht'; omega) hm⟩
    · rw [if_neg (by simpa using hc)]
      obtain ⟨h1, h2, h3⟩ := ih acc hacc h0
      refine ⟨h1, h2, fun t ht ht' hm => ?_⟩
      by_cases hlt : t < acc + 2 ^ b
      · exact h3 t ht hlt hm
      · by_contra hcon
        rw [Bool.not_eq_false] at hcon
        exact hc ⟨by omega, hle _ _ (magValue_strictMono.monotone (by omega)) hcon⟩

end Sys2Proof.Machine
end

