-- ==== Sys2Proof/Laws/Rounding.lean ====
section
/-! SUPPORT. The rounding of the machine against `ENC` over the reals (spec/30_encoding.md R77): `encMag`, `encRat`
and the enclosures' `Ival.enc`. -/

namespace Sys2Proof.Machine

open Reference

/-- `cmp` compares the real `x` with every rational. -/
def Compares (x : ℝ) (cmp : Rat → Ordering) : Prop :=
  ∀ q : Rat, (cmp q = .lt ↔ x < q) ∧ (cmp q = .eq ↔ x = q) ∧ (cmp q = .gt ↔ (q : ℝ) < x)

theorem cmpRat_compares (x : Rat) : Compares (x : ℝ) (cmpRat x) := by
  intro q
  unfold cmpRat
  rcases lt_trichotomy x q with h | h | h
  · have h1 : (x : ℝ) < q := by exact_mod_cast h
    simp [h, h1.ne, h1.not_gt, h1]
  · subst h; simp
  · have h1 : (q : ℝ) < x := by exact_mod_cast h
    simp [h.not_gt, h.ne', h1.ne', h1.not_gt, h1]

/-- The greatest finite word whose value a number `>= 0` reaches, and the next above it. -/
theorem findMag_brackets {x : ℝ} {cmp : Rat → Ordering} (hc : Compares x cmp) (hx : 0 ≤ x) :
    let m := findMag (fun q => cmp q != .lt) 31 0
    m ≤ maxMag ∧ (magValue m : ℝ) ≤ x ∧ ∀ t, m < t → t ≤ maxMag → x < magValue t := by
  intro m
  have hle : ∀ q, (cmp q != .lt) = true ↔ (q : ℝ) ≤ x := fun q => by
    rw [bne_iff_ne, ne_eq, (hc q).1, not_lt]
  have h := findMag_spec (fun q => cmp q != .lt)
    (fun a b hab hb => (hle a).2 (le_trans (by exact_mod_cast hab) ((hle b).1 hb))) 31 0 (by decide)
    ((hle _).2 (by rw [magValue_zero]; simpa using hx))
  refine ⟨findMag_le_maxMag _ _ _ (by decide), (hle _).1 h.2.1, fun t h1 h2 => ?_⟩
  have := h.2.2 t h1 (by rw [maxMag_val] at h2; norm_num; omega) h2
  by_contra hcon
  have h3 : (cmp (magValue t) != .lt) = true := (hle _).2 (not_lt.mp hcon)
  rw [this] at h3
  cases h3

/-- `encMag` gives no magnitude exactly from the overflow bound on (R77). -/
theorem encMag_none_iff {x : ℝ} {cmp : Rat → Ordering} (hc : Compares x cmp) :
    encMag cmp = none ↔ (overflowBound : ℝ) ≤ x := by
  rw [← not_lt, ← (hc overflowBound).1]
  unfold encMag
  split_ifs with h
  · simpa using h
  · simp only [bne_iff_ne, ne_eq, not_not] at h
    simp only [h]
    split <;> simp

/-- `encMag` is round to nearest, ties to even, among the finite magnitudes (R77). -/
theorem encMag_nearest {x : ℝ} {cmp : Rat → Ordering} (hc : Compares x cmp) (hx : 0 ≤ x) {n : Nat}
    (h : encMag cmp = some n) :
    n ≤ maxMag ∧ ∀ t, t ≤ maxMag →
      |(magValue n : ℝ) - x| ≤ |(magValue t : ℝ) - x| ∧
        (|(magValue n : ℝ) - x| = |(magValue t : ℝ) - x| → t ≠ n → n % 2 = 0) := by
  refine ⟨encMag_le_maxMag _ _ h, ?_⟩
  obtain ⟨hm, hlo, hhi⟩ := findMag_brackets hc hx
  unfold encMag at h
  split_ifs at h with hb
  simp only [] at h
  generalize findMag (fun q => cmp q != .lt) 31 0 = m at h hm hlo hhi
  have hmono : ∀ a b : Nat, a ≤ b → (magValue a : ℝ) ≤ magValue b := fun a b hab => by
    exact_mod_cast magValue_strictMono.monotone hab
  have hstr : ∀ a b : Nat, a < b → (magValue a : ℝ) < magValue b := fun a b hab => by
    exact_mod_cast magValue_strictMono hab
  have hcase : ∀ t, t ≤ maxMag → t ≤ m ∨ m + 1 ≤ t := fun t _ => by omega
  have hup : x < magValue (m + 1) := by
    by_cases hmm : m = maxMag
    · have h1 : cmp overflowBound = .lt := by simpa using hb
      have h2 := ((hc _).1).1 h1
      have h3 : (((magValue m + magValue (m + 1)) / 2 : Rat) : ℝ) = overflowBound := by rw [hmm, mid_maxMag]
      have h4 := hstr m (m + 1) (by omega)
      push_cast at h3
      linarith
    · exact hhi (m + 1) (by omega) (by omega)
  have hs := hstr m (m + 1) (by omega)
  have hmid : ((((magValue m + magValue (m + 1)) / 2 : Rat)) : ℝ) = ((magValue m : ℝ) + magValue (m + 1)) / 2 := by
    push_cast; ring
  have habs_m : |(magValue m : ℝ) - x| = x - magValue m := by rw [abs_sub_comm, abs_of_nonneg (by linarith)]
  have habs_m1 : |(magValue (m + 1) : ℝ) - x| = magValue (m + 1) - x := abs_of_nonneg (by linarith)
  have hlow : ∀ t, t ≤ m → |(magValue t : ℝ) - x| = x - magValue t := fun t ht => by
    have := hmono t m ht
    rw [abs_sub_comm, abs_of_nonneg (by linarith)]
  have hhigh : ∀ t, m + 1 ≤ t → |(magValue t : ℝ) - x| = magValue t - x := fun t ht => by
    have := hmono (m + 1) t ht
    exact abs_of_nonneg (by linarith)
  have hbelow : ∀ t, t ≤ m → t ≠ m → (magValue t : ℝ) < magValue m := fun t h1 h2 => hstr t m (by omega)
  have habove : ∀ t, m + 1 ≤ t → t ≠ m + 1 → (magValue (m + 1) : ℝ) < magValue t := fun t h1 h2 =>
    hstr (m + 1) t (by omega)
  have near_m : x ≤ ((magValue m : ℝ) + magValue (m + 1)) / 2 → ∀ t, t ≤ maxMag →
      |(magValue m : ℝ) - x| ≤ |(magValue t : ℝ) - x| ∧
        (|(magValue m : ℝ) - x| = |(magValue t : ℝ) - x| → t ≠ m →
          x = ((magValue m : ℝ) + magValue (m + 1)) / 2) := by
    intro hmx t ht
    rw [habs_m]
    rcases hcase t ht with h1 | h1
    · rw [hlow t h1]
      refine ⟨by linarith [hmono t m h1], fun he hne => ?_⟩
      have := hbelow t h1 hne
      linarith
    · rw [hhigh t h1]
      refine ⟨by linarith [hmono _ _ h1], fun he hne => ?_⟩
      linarith [hmono _ _ h1]
  have near_m1 : ((magValue m : ℝ) + magValue (m + 1)) / 2 ≤ x → ∀ t, t ≤ maxMag →
      |(magValue (m + 1) : ℝ) - x| ≤ |(magValue t : ℝ) - x| ∧
        (|(magValue (m + 1) : ℝ) - x| = |(magValue t : ℝ) - x| → t ≠ m + 1 →
          x = ((magValue m : ℝ) + magValue (m + 1)) / 2) := by
    intro hmx t ht
    rw [habs_m1]
    rcases hcase t ht with h1 | h1
    · rw [hlow t h1]
      refine ⟨by linarith [hmono t m h1], fun he hne => ?_⟩
      linarith [hmono t m h1]
    · rw [hhigh t h1]
      refine ⟨by linarith [hmono _ _ h1], fun he hne => ?_⟩
      have := habove t h1 hne
      linarith
  intro t ht
  split at h
  · rename_i hlt
    have hx2 := ((hc _).1).1 hlt
    rw [hmid] at hx2
    obtain rfl : m = n := by simpa using h
    exact ⟨(near_m hx2.le t ht).1, fun he hne => absurd ((near_m hx2.le t ht).2 he hne) hx2.ne⟩
  · rename_i hgt
    have hx2 := ((hc _).2.2).1 hgt
    rw [hmid] at hx2
    obtain rfl : m + 1 = n := by simpa using h
    exact ⟨(near_m1 hx2.le t ht).1, fun he hne => absurd ((near_m1 hx2.le t ht).2 he hne) hx2.ne'⟩
  · rename_i heq
    have hx2 := ((hc _).2.1).1 heq
    rw [hmid] at hx2
    obtain rfl : m + m % 2 = n := by simpa using h
    refine ⟨?_, fun _ _ => by omega⟩
    rcases Nat.mod_two_eq_zero_or_one m with h2 | h2
    · rw [h2, Nat.add_zero]; exact (near_m hx2.le t ht).1
    · rw [h2]; exact (near_m1 hx2.ge t ht).1

theorem overflowBound_real : (overflowBound : ℝ) = (2 - 2 ^ (-24 : ℤ)) * 2 ^ (127 : ℤ) := by
  unfold overflowBound; norm_num

/-- The sign-free part of a joined word. -/
theorem magOf_joinSign (s : Bool) (n : Nat) (h : n ≤ maxMag) : magOf (joinSign s n) = n := by
  rw [maxMag_val] at h
  unfold magOf joinSign
  split_ifs <;> (simp only [BitVec.toNat_ofNat]; omega)

/-- The value of a joined word. -/
theorem decodeReal_joinSign (s : Bool) (n : Nat) (h : n ≤ maxMag) :
    decodeReal (joinSign s n) = some (if s then -magValue n else magValue n) := by
  unfold decodeReal
  rw [if_pos (joinSign_finite s n h), magOf_joinSign s n h]
  congr 1
  rw [maxMag_val] at h
  have hbit : (joinSign s n).getLsbD 31 = (s && n != 0) := by
    unfold joinSign
    by_cases hs : (s && n != 0) = true
    · rw [if_pos hs, hs]
      simp only [BitVec.getLsbD_ofNat, Nat.testBit_eq_decide_div_mod_eq]
      simp only [Nat.reduceLT, decide_true, Bool.true_and, decide_eq_true_eq]
      omega
    · rw [if_neg hs]
      rw [Bool.not_eq_true] at hs
      rw [hs]
      simp only [BitVec.getLsbD_ofNat, Nat.testBit_eq_decide_div_mod_eq]
      simp only [Nat.reduceLT, decide_true, Bool.true_and, decide_eq_false_iff_not]
      omega
  rw [hbit]
  cases s
  · simp
  · by_cases hn : n = 0
    · simp [hn, magValue_zero]
    · simp [hn]

/-- A word's value is a sign times the value of a finite magnitude. -/
theorem decodeReal_eq_some {w : Word} {v : Rat} (h : decodeReal w = some v) :
    magOf w ≤ maxMag ∧ (v = magValue (magOf w) ∨ v = -magValue (magOf w)) := by
  unfold decodeReal at h
  split_ifs at h with hf hs
  · refine ⟨?_, .inr (by simpa using h.symm)⟩
    simp only [isFinite, decide_eq_true_eq] at hf; rw [maxMag_val]; omega
  · refine ⟨?_, .inl (by simpa using h.symm)⟩
    simp only [isFinite, decide_eq_true_eq] at hf; rw [maxMag_val]; omega

/-- The lowest bit of a joined word. -/
theorem joinSign_bit0 (s : Bool) (n : Nat) : (joinSign s n).getLsbD 0 = decide (n % 2 = 1) := by
  unfold joinSign
  split_ifs <;> simp only [BitVec.getLsbD_ofNat, Nat.testBit_eq_decide_div_mod_eq] <;>
    simp only [pow_zero, Nat.div_one, Nat.reduceLT, decide_true, Bool.true_and, decide_eq_decide] <;> omega

theorem magValue_eq_zero {n : Nat} (h : magValue n = 0) : n = 0 :=
  magValue_strictMono.injective (h.trans magValue_zero.symm)

/-- A magnitude found by `encMag` for `|x|`, with the sign of `x`, is the nearest word to `x` (R77). -/
theorem nearestEven_of_encMag {x y : ℝ} {cmp : Rat → Ordering} (hc : Compares y cmp) (hy : 0 ≤ y) {s : Bool}
    (hxy : x = if s then -y else y) {n : Nat} (h : encMag cmp = some n) : NearestEven x (joinSign s n) := by
  obtain ⟨hn, hnear⟩ := encMag_nearest hc hy h
  refine ⟨_, decodeReal_joinSign s n hn, ?_, ?_⟩
  · intro hv
    have : magValue n = 0 := by cases s <;> simpa using hv
    rw [magValue_eq_zero this]; cases s <;> rfl
  · intro w' v' hw'
    have hv0 : |((if s then -magValue n else magValue n : Rat) : ℝ) - x| = |(magValue n : ℝ) - y| := by
      rw [hxy]; cases s
      · simp
      · simp only [if_true]; push_cast; rw [← abs_neg]; congr 1; ring
    rw [hv0]
    obtain ⟨ht, hval⟩ := decodeReal_eq_some hw'
    set t := magOf w'
    have ht0 : (0 : ℝ) ≤ magValue t := by exact_mod_cast magValue_nonneg t
    have h1 := hnear t ht
    have hz := (hnear 0 (by decide)).1
    rw [magValue_zero] at hz
    have hz' : |(magValue n : ℝ) - y| ≤ y := by
      have : |((0 : Rat) : ℝ) - y| = y := by rw [Rat.cast_zero, zero_sub, abs_neg, abs_of_nonneg hy]
      linarith
    have same : |(v' : ℝ) - x| = |(magValue t : ℝ) - y| ∨
        (|(v' : ℝ) - x| = magValue t + y ∧ ((v' : ℝ) = if s then (magValue t : ℝ) else -magValue t)) := by
      rw [hxy]
      rcases hval with hv | hv <;> cases s <;> rw [hv]
      · left; simp
      · right
        refine ⟨?_, by simp⟩
        simp only [reduceIte, sub_neg_eq_add]
        exact abs_of_nonneg (by linarith)
      · right
        refine ⟨?_, by simp⟩
        push_cast
        rw [← abs_neg, abs_of_nonneg (by linarith)]; ring
      · left; simp only [if_true]; push_cast; rw [← abs_neg]; congr 1; ring
    have heven : n % 2 = 0 → (joinSign s n).getLsbD 0 = false := fun h => by
      rw [joinSign_bit0]; simp [h]
    rcases same with hsm | ⟨hsm, hvv⟩
    · rw [hsm]
      refine ⟨h1.1, fun he hne => ?_⟩
      by_cases htn : t = n
      · by_cases hn0 : n = 0
        · exact heven (by rw [hn0])
        · exfalso
          -- the same magnitude with the other sign lies strictly farther from a nonzero number
          rcases hval with hv | hv <;> cases s <;> rw [htn] at hv
          · exact hne (by simpa using hv)
          · have hy0 : y = 0 ∨ (magValue n : ℝ) = 0 := by
              have hnn : (0 : ℝ) ≤ magValue n := by exact_mod_cast magValue_nonneg n
              rw [hv, hxy] at hsm
              simp only [reduceIte, sub_neg_eq_add] at hsm
              rw [htn, abs_of_nonneg (by linarith)] at hsm
              rcases abs_cases ((magValue n : ℝ) - y) with ⟨h2, _⟩ | ⟨h2, _⟩
              · left; linarith
              · right; linarith
            rcases hy0 with hy0 | hy0
            · rw [hy0, sub_zero] at hz'
              have : (magValue n : ℝ) = 0 := abs_eq_zero.mp (le_antisymm hz' (abs_nonneg _))
              exact hn0 (magValue_eq_zero (by exact_mod_cast this))
            · exact hn0 (magValue_eq_zero (by exact_mod_cast hy0))
          · have hy0 : y = 0 ∨ (magValue n : ℝ) = 0 := by
              have hnn : (0 : ℝ) ≤ magValue n := by exact_mod_cast magValue_nonneg n
              rw [hv, hxy] at hsm
              push_cast at hsm
              rw [htn, ← abs_neg, abs_of_nonneg (by linarith)] at hsm
              rcases abs_cases ((magValue n : ℝ) - y) with ⟨h2, _⟩ | ⟨h2, _⟩
              · left; linarith
              · right; linarith
            rcases hy0 with hy0 | hy0
            · rw [hy0, sub_zero] at hz'
              have : (magValue n : ℝ) = 0 := abs_eq_zero.mp (le_antisymm hz' (abs_nonneg _))
              exact hn0 (magValue_eq_zero (by exact_mod_cast this))
            · exact hn0 (magValue_eq_zero (by exact_mod_cast hy0))
          · exact hne (by simpa using hv)
      · exact heven (h1.2 he htn)
    · rw [hsm]
      refine ⟨by linarith, fun he hne => ?_⟩
      have ht00 : (magValue t : ℝ) = 0 := by linarith
      have ht1 : t = 0 := magValue_eq_zero (by exact_mod_cast ht00)
      have hn1 : n ≠ 0 := by
        rintro rfl
        apply hne
        rw [magValue_zero, neg_zero, ite_self]
        have : (v' : ℝ) = 0 := by rw [hvv, ht00, neg_zero, ite_self]
        exact_mod_cast this
      have h3 := (hnear 0 (by decide)).2
      apply heven
      apply h3
      · rw [he, ht00, magValue_zero, Rat.cast_zero, zero_sub, abs_neg, abs_of_nonneg hy, zero_add]
      · exact fun h => hn1 h.symm

/-- A signed number from its magnitude's comparison: the word and the overflow of R77. -/
theorem isEnc_of_encMag {x y : ℝ} {cmp : Rat → Ordering} (hc : Compares y cmp) (hy : 0 ≤ y) {s : Bool}
    (hxy : x = if s then -y else y) : IsEnc x ((encMag cmp).map (joinSign s)) := by
  have habs : |x| = y := by rw [hxy]; cases s <;> simp [abs_of_nonneg hy]
  cases h : encMag cmp with
  | none =>
    have := (encMag_none_iff hc).1 h
    rw [overflowBound_real] at this
    simpa [IsEnc, habs] using this
  | some n =>
    have h2 : ¬ (overflowBound : ℝ) ≤ y := fun h3 => by rw [(encMag_none_iff hc).2 h3] at h; cases h
    rw [overflowBound_real, not_le] at h2
    exact ⟨by simpa [habs] using h2, nearestEven_of_encMag hc hy hxy h⟩

/-- `encRat` is `ENC` on the rationals (R77). -/
theorem encRat_isEnc (x : Rat) : IsEnc (x : ℝ) (encRat x) := by
  unfold encRat
  split_ifs with h
  · exact isEnc_of_encMag (y := ((-x : Rat) : ℝ)) (cmpRat_compares (-x)) (by exact_mod_cast (neg_pos.2 h).le)
      (by push_cast; simp)
  · exact isEnc_of_encMag (cmpRat_compares x) (by exact_mod_cast not_lt.1 h) (by simp)

end Sys2Proof.Machine
end

