-- ==== Sys2Proof/Laws/State.lean ====
section
/-! SUPPORT. What each state update leaves in each field: one lemma per update and field, so that no proof unfolds an
update. -/

namespace Sys2Proof.Machine

@[simp] theorem completeStatus_cmd (c : Code) (s : State) : (completeStatus c s).cmd = s.cmd := rfl

@[simp] theorem completeStatus_busy (c : Code) (s : State) : (completeStatus c s).busy = false := rfl

@[simp] theorem completeStatus_fault (c : Code) (s : State) : (completeStatus c s).fault = (s.fault || c != .ok) := rfl

@[simp] theorem completeStatus_ovr (c : Code) (s : State) : (completeStatus c s).ovr = s.ovr := rfl

@[simp] theorem completeStatus_sat (c : Code) (s : State) : (completeStatus c s).sat = s.sat := rfl

@[simp] theorem completeStatus_code (c : Code) (s : State) : (completeStatus c s).code = c := rfl

@[simp] theorem completeStatus_inp (c : Code) (s : State) : (completeStatus c s).inp = s.inp := rfl

@[simp] theorem completeStatus_sector (c : Code) (s : State) : (completeStatus c s).sector = s.sector := rfl

@[simp] theorem completeStatus_out (c : Code) (s : State) : (completeStatus c s).out = s.out := rfl

@[simp] theorem completeStatus_cfg (c : Code) (s : State) : (completeStatus c s).cfg = s.cfg := rfl

@[simp] theorem completeStatus_lcmd (c : Code) (s : State) : (completeStatus c s).lcmd = s.lcmd := rfl

@[simp] theorem completeStatus_lin (c : Code) (s : State) : (completeStatus c s).lin = s.lin := rfl

@[simp] theorem completeStatus_resets (c : Code) (s : State) : (completeStatus c s).resets = s.resets := rfl

@[simp] theorem completeStatus_agenda (c : Code) (s : State) : (completeStatus c s).agenda = s.agenda := rfl

@[simp] theorem completeStatus_host (c : Code) (s : State) : (completeStatus c s).host = s.host := rfl

@[simp] theorem faultEntry_cmd (c : Code) (s : State) : (faultEntry c s).cmd = s.cmd := rfl

@[simp] theorem faultEntry_busy (c : Code) (s : State) : (faultEntry c s).busy = false := rfl

@[simp] theorem faultEntry_fault (c : Code) (s : State) : (faultEntry c s).fault = (s.fault || c != .ok) := rfl

@[simp] theorem faultEntry_ovr (c : Code) (s : State) : (faultEntry c s).ovr = s.ovr := rfl

@[simp] theorem faultEntry_sat (c : Code) (s : State) : (faultEntry c s).sat = s.sat := rfl

@[simp] theorem faultEntry_code (c : Code) (s : State) : (faultEntry c s).code = c := rfl

@[simp] theorem faultEntry_inp (c : Code) (s : State) : (faultEntry c s).inp = s.inp := rfl

@[simp] theorem faultEntry_sector (c : Code) (s : State) : (faultEntry c s).sector = s.sector := rfl

@[simp] theorem faultEntry_out (c : Code) (s : State) : (faultEntry c s).out = s.out := rfl

@[simp] theorem faultEntry_cfg (c : Code) (s : State) : (faultEntry c s).cfg = s.cfg := rfl

@[simp] theorem faultEntry_lcmd (c : Code) (s : State) : (faultEntry c s).lcmd = s.lcmd := rfl

@[simp] theorem faultEntry_lin (c : Code) (s : State) : (faultEntry c s).lin = s.lin := rfl

@[simp] theorem faultEntry_resets (c : Code) (s : State) : (faultEntry c s).resets = s.resets := rfl

@[simp] theorem faultEntry_agenda (c : Code) (s : State) : (faultEntry c s).agenda = s.agenda := rfl

@[simp] theorem faultEntry_host (c : Code) (s : State) : (faultEntry c s).host = s.host := rfl

@[simp] theorem commitOk_cmd (c : Commit) (s : State) : (commitOk c s).cmd = s.cmd := rfl

@[simp] theorem commitOk_busy (c : Commit) (s : State) : (commitOk c s).busy = false := rfl

@[simp] theorem commitOk_fault (c : Commit) (s : State) : (commitOk c s).fault = s.fault := by
  simp [commitOk, completeStatus]

@[simp] theorem commitOk_ovr (c : Commit) (s : State) : (commitOk c s).ovr = s.ovr := rfl

@[simp] theorem commitOk_sat (c : Commit) (s : State) : (commitOk c s).sat = c.sat.getD s.sat := rfl

@[simp] theorem commitOk_code (c : Commit) (s : State) : (commitOk c s).code = .ok := rfl

@[simp] theorem commitOk_inp (c : Commit) (s : State) : (commitOk c s).inp = s.inp := rfl

@[simp] theorem commitOk_sector (c : Commit) (s : State) : (commitOk c s).sector = c.sector.getD s.sector := rfl

@[simp] theorem commitOk_out (c : Commit) (s : State) : (commitOk c s).out = writeOuts s.out c.outs := rfl

@[simp] theorem commitOk_cfg (c : Commit) (s : State) : (commitOk c s).cfg = s.cfg := rfl

@[simp] theorem commitOk_lcmd (c : Commit) (s : State) : (commitOk c s).lcmd = s.lcmd := rfl

@[simp] theorem commitOk_lin (c : Commit) (s : State) : (commitOk c s).lin = s.lin := rfl

@[simp] theorem commitOk_resets (c : Commit) (s : State) : (commitOk c s).resets = s.resets := rfl

@[simp] theorem commitOk_agenda (c : Commit) (s : State) : (commitOk c s).agenda = s.agenda := rfl

@[simp] theorem commitOk_host (c : Commit) (s : State) : (commitOk c s).host = s.host := rfl

@[simp] theorem setOverrun_cmd (s : State) : (setOverrun s).cmd = s.cmd := rfl

@[simp] theorem setOverrun_busy (s : State) : (setOverrun s).busy = s.busy := rfl

@[simp] theorem setOverrun_fault (s : State) : (setOverrun s).fault = s.fault := rfl

@[simp] theorem setOverrun_ovr (s : State) : (setOverrun s).ovr = true := rfl

@[simp] theorem setOverrun_sat (s : State) : (setOverrun s).sat = s.sat := rfl

@[simp] theorem setOverrun_code (s : State) : (setOverrun s).code = s.code := rfl

@[simp] theorem setOverrun_inp (s : State) : (setOverrun s).inp = s.inp := rfl

@[simp] theorem setOverrun_sector (s : State) : (setOverrun s).sector = s.sector := rfl

@[simp] theorem setOverrun_out (s : State) : (setOverrun s).out = s.out := rfl

@[simp] theorem setOverrun_cfg (s : State) : (setOverrun s).cfg = s.cfg := rfl

@[simp] theorem setOverrun_lcmd (s : State) : (setOverrun s).lcmd = s.lcmd := rfl

@[simp] theorem setOverrun_lin (s : State) : (setOverrun s).lin = s.lin := rfl

@[simp] theorem setOverrun_resets (s : State) : (setOverrun s).resets = s.resets := rfl

@[simp] theorem setOverrun_agenda (s : State) : (setOverrun s).agenda = s.agenda := rfl

@[simp] theorem setOverrun_host (s : State) : (setOverrun s).host = s.host := rfl

@[simp] theorem accept_cmd (c : Word) (s : State) : (accept c s).cmd = c := rfl

@[simp] theorem accept_busy (c : Word) (s : State) : (accept c s).busy = true := rfl

@[simp] theorem accept_fault (c : Word) (s : State) : (accept c s).fault = s.fault := rfl

@[simp] theorem accept_ovr (c : Word) (s : State) : (accept c s).ovr = s.ovr := rfl

@[simp] theorem accept_sat (c : Word) (s : State) : (accept c s).sat = s.sat := rfl

@[simp] theorem accept_code (c : Word) (s : State) : (accept c s).code = s.code := rfl

@[simp] theorem accept_inp (c : Word) (s : State) : (accept c s).inp = s.inp := rfl

@[simp] theorem accept_sector (c : Word) (s : State) : (accept c s).sector = s.sector := rfl

@[simp] theorem accept_out (c : Word) (s : State) : (accept c s).out = s.out := rfl

@[simp] theorem accept_cfg (c : Word) (s : State) : (accept c s).cfg = s.cfg := rfl

@[simp] theorem accept_lcmd (c : Word) (s : State) : (accept c s).lcmd = c := rfl

@[simp] theorem accept_lin (c : Word) (s : State) : (accept c s).lin = s.inp := rfl

@[simp] theorem accept_resets (c : Word) (s : State) : (accept c s).resets = s.resets := rfl

@[simp] theorem accept_agenda (c : Word) (s : State) : (accept c s).agenda = s.agenda := rfl

@[simp] theorem accept_host (c : Word) (s : State) : (accept c s).host = s.host := rfl

@[simp] theorem writeIn_cmd (k : InReg) (w : Word) (s : State) : (writeIn k w s).cmd = s.cmd := rfl

@[simp] theorem writeIn_busy (k : InReg) (w : Word) (s : State) : (writeIn k w s).busy = s.busy := rfl

@[simp] theorem writeIn_fault (k : InReg) (w : Word) (s : State) : (writeIn k w s).fault = s.fault := rfl

@[simp] theorem writeIn_ovr (k : InReg) (w : Word) (s : State) : (writeIn k w s).ovr = s.ovr := rfl

@[simp] theorem writeIn_sat (k : InReg) (w : Word) (s : State) : (writeIn k w s).sat = s.sat := rfl

@[simp] theorem writeIn_code (k : InReg) (w : Word) (s : State) : (writeIn k w s).code = s.code := rfl

@[simp] theorem writeIn_inp (k : InReg) (w : Word) (s : State) : (writeIn k w s).inp = s.inp.set k ⟨w, true⟩ := rfl

@[simp] theorem writeIn_sector (k : InReg) (w : Word) (s : State) : (writeIn k w s).sector = s.sector := rfl

@[simp] theorem writeIn_out (k : InReg) (w : Word) (s : State) : (writeIn k w s).out = s.out := rfl

@[simp] theorem writeIn_cfg (k : InReg) (w : Word) (s : State) : (writeIn k w s).cfg = s.cfg := rfl

@[simp] theorem writeIn_lcmd (k : InReg) (w : Word) (s : State) : (writeIn k w s).lcmd = s.lcmd := rfl

@[simp] theorem writeIn_lin (k : InReg) (w : Word) (s : State) : (writeIn k w s).lin = s.lin := rfl

@[simp] theorem writeIn_resets (k : InReg) (w : Word) (s : State) : (writeIn k w s).resets = s.resets := rfl

@[simp] theorem writeIn_agenda (k : InReg) (w : Word) (s : State) : (writeIn k w s).agenda = s.agenda := rfl

@[simp] theorem writeIn_host (k : InReg) (w : Word) (s : State) : (writeIn k w s).host = s.host := rfl

@[simp] theorem resetBlock_cmd (s : State) : (resetBlock s).cmd = 0 := rfl

@[simp] theorem resetBlock_busy (s : State) : (resetBlock s).busy = false := rfl

@[simp] theorem resetBlock_fault (s : State) : (resetBlock s).fault = false := rfl

@[simp] theorem resetBlock_ovr (s : State) : (resetBlock s).ovr = false := rfl

@[simp] theorem resetBlock_sat (s : State) : (resetBlock s).sat = false := rfl

@[simp] theorem resetBlock_code (s : State) : (resetBlock s).code = .ok := rfl

@[simp] theorem resetBlock_inp (s : State) : (resetBlock s).inp = .unwritten := rfl

@[simp] theorem resetBlock_sector (s : State) : (resetBlock s).sector = 0 := rfl

@[simp] theorem resetBlock_out (s : State) : (resetBlock s).out = .unwritten := rfl

@[simp] theorem resetBlock_cfg (s : State) : (resetBlock s).cfg = s.cfg := rfl

@[simp] theorem resetBlock_lcmd (s : State) : (resetBlock s).lcmd = 0 := rfl

@[simp] theorem resetBlock_lin (s : State) : (resetBlock s).lin = .unwritten := rfl

@[simp] theorem resetBlock_resets (s : State) : (resetBlock s).resets = s.resets + 1 := rfl

@[simp] theorem resetBlock_agenda (s : State) : (resetBlock s).agenda = s.agenda := rfl

@[simp] theorem resetBlock_host (s : State) : (resetBlock s).host = s.host := rfl

@[simp] theorem hostGoto_cmd (n : Nat) (s : State) : (hostGoto n s).cmd = s.cmd := rfl

@[simp] theorem hostGoto_busy (n : Nat) (s : State) : (hostGoto n s).busy = s.busy := rfl

@[simp] theorem hostGoto_fault (n : Nat) (s : State) : (hostGoto n s).fault = s.fault := rfl

@[simp] theorem hostGoto_ovr (n : Nat) (s : State) : (hostGoto n s).ovr = s.ovr := rfl

@[simp] theorem hostGoto_sat (n : Nat) (s : State) : (hostGoto n s).sat = s.sat := rfl

@[simp] theorem hostGoto_code (n : Nat) (s : State) : (hostGoto n s).code = s.code := rfl

@[simp] theorem hostGoto_inp (n : Nat) (s : State) : (hostGoto n s).inp = s.inp := rfl

@[simp] theorem hostGoto_sector (n : Nat) (s : State) : (hostGoto n s).sector = s.sector := rfl

@[simp] theorem hostGoto_out (n : Nat) (s : State) : (hostGoto n s).out = s.out := rfl

@[simp] theorem hostGoto_cfg (n : Nat) (s : State) : (hostGoto n s).cfg = s.cfg := rfl

@[simp] theorem hostGoto_lcmd (n : Nat) (s : State) : (hostGoto n s).lcmd = s.lcmd := rfl

@[simp] theorem hostGoto_lin (n : Nat) (s : State) : (hostGoto n s).lin = s.lin := rfl

@[simp] theorem hostGoto_resets (n : Nat) (s : State) : (hostGoto n s).resets = s.resets := rfl

@[simp] theorem hostGoto_agenda (n : Nat) (s : State) : (hostGoto n s).agenda = s.agenda := rfl

@[simp] theorem hostGoto_host (n : Nat) (s : State) : (hostGoto n s).host = ⟨s.host.script, n, s.host.vars⟩ := rfl

@[simp] theorem hostAssign_cmd (k : Nat) (w : Word) (s : State) : (hostAssign k w s).cmd = s.cmd := rfl

@[simp] theorem hostAssign_busy (k : Nat) (w : Word) (s : State) : (hostAssign k w s).busy = s.busy := rfl

@[simp] theorem hostAssign_fault (k : Nat) (w : Word) (s : State) : (hostAssign k w s).fault = s.fault := rfl

@[simp] theorem hostAssign_ovr (k : Nat) (w : Word) (s : State) : (hostAssign k w s).ovr = s.ovr := rfl

@[simp] theorem hostAssign_sat (k : Nat) (w : Word) (s : State) : (hostAssign k w s).sat = s.sat := rfl

@[simp] theorem hostAssign_code (k : Nat) (w : Word) (s : State) : (hostAssign k w s).code = s.code := rfl

@[simp] theorem hostAssign_inp (k : Nat) (w : Word) (s : State) : (hostAssign k w s).inp = s.inp := rfl

@[simp] theorem hostAssign_sector (k : Nat) (w : Word) (s : State) : (hostAssign k w s).sector = s.sector := rfl

@[simp] theorem hostAssign_out (k : Nat) (w : Word) (s : State) : (hostAssign k w s).out = s.out := rfl

@[simp] theorem hostAssign_cfg (k : Nat) (w : Word) (s : State) : (hostAssign k w s).cfg = s.cfg := rfl

@[simp] theorem hostAssign_lcmd (k : Nat) (w : Word) (s : State) : (hostAssign k w s).lcmd = s.lcmd := rfl

@[simp] theorem hostAssign_lin (k : Nat) (w : Word) (s : State) : (hostAssign k w s).lin = s.lin := rfl

@[simp] theorem hostAssign_resets (k : Nat) (w : Word) (s : State) : (hostAssign k w s).resets = s.resets := rfl

@[simp] theorem hostAssign_agenda (k : Nat) (w : Word) (s : State) : (hostAssign k w s).agenda = s.agenda := rfl

@[simp] theorem hostAssign_host (k : Nat) (w : Word) (s : State) : (hostAssign k w s).host = ⟨s.host.script, s.host.next, setVar s.host.vars k w⟩ := rfl

@[simp] theorem popAgenda_cmd (s : State) : (popAgenda s).cmd = s.cmd := rfl

@[simp] theorem popAgenda_busy (s : State) : (popAgenda s).busy = s.busy := rfl

@[simp] theorem popAgenda_fault (s : State) : (popAgenda s).fault = s.fault := rfl

@[simp] theorem popAgenda_ovr (s : State) : (popAgenda s).ovr = s.ovr := rfl

@[simp] theorem popAgenda_sat (s : State) : (popAgenda s).sat = s.sat := rfl

@[simp] theorem popAgenda_code (s : State) : (popAgenda s).code = s.code := rfl

@[simp] theorem popAgenda_inp (s : State) : (popAgenda s).inp = s.inp := rfl

@[simp] theorem popAgenda_sector (s : State) : (popAgenda s).sector = s.sector := rfl

@[simp] theorem popAgenda_out (s : State) : (popAgenda s).out = s.out := rfl

@[simp] theorem popAgenda_cfg (s : State) : (popAgenda s).cfg = s.cfg := rfl

@[simp] theorem popAgenda_lcmd (s : State) : (popAgenda s).lcmd = s.lcmd := rfl

@[simp] theorem popAgenda_lin (s : State) : (popAgenda s).lin = s.lin := rfl

@[simp] theorem popAgenda_resets (s : State) : (popAgenda s).resets = s.resets := rfl

@[simp] theorem popAgenda_agenda (s : State) : (popAgenda s).agenda = s.agenda.tail := rfl

@[simp] theorem popAgenda_host (s : State) : (popAgenda s).host = s.host := rfl

@[simp] theorem placeCommand_cmd (w : Word) (s : State) : (placeCommand w s).cmd = w := rfl

@[simp] theorem placeCommand_busy (w : Word) (s : State) : (placeCommand w s).busy = true := rfl

@[simp] theorem placeCommand_fault (w : Word) (s : State) : (placeCommand w s).fault = s.fault := rfl

@[simp] theorem placeCommand_ovr (w : Word) (s : State) : (placeCommand w s).ovr = s.ovr := rfl

@[simp] theorem placeCommand_sat (w : Word) (s : State) : (placeCommand w s).sat = s.sat := rfl

@[simp] theorem placeCommand_code (w : Word) (s : State) : (placeCommand w s).code = s.code := rfl

@[simp] theorem placeCommand_inp (w : Word) (s : State) : (placeCommand w s).inp = ⟨s.inp.in0.markWritten, s.inp.in1.markWritten, s.inp.in2.markWritten⟩ := rfl

@[simp] theorem placeCommand_sector (w : Word) (s : State) : (placeCommand w s).sector = s.sector := rfl

@[simp] theorem placeCommand_out (w : Word) (s : State) : (placeCommand w s).out = s.out := rfl

@[simp] theorem placeCommand_cfg (w : Word) (s : State) : (placeCommand w s).cfg = s.cfg := rfl

@[simp] theorem placeCommand_lcmd (w : Word) (s : State) : (placeCommand w s).lcmd = w := rfl

@[simp] theorem placeCommand_lin (w : Word) (s : State) : (placeCommand w s).lin = ⟨s.inp.in0.markWritten, s.inp.in1.markWritten, s.inp.in2.markWritten⟩ := rfl

@[simp] theorem placeCommand_resets (w : Word) (s : State) : (placeCommand w s).resets = s.resets := rfl

@[simp] theorem placeCommand_agenda (w : Word) (s : State) : (placeCommand w s).agenda = .block :: s.agenda := rfl

@[simp] theorem placeCommand_host (w : Word) (s : State) : (placeCommand w s).host = s.host := rfl

end Sys2Proof.Machine
end

