-- ==== Sys2Proof/Laws/Ops.lean ====
section
/-! SUPPORT. What each shared operation can do, once: register files, commits, the run of a command, the agents' moves
and the step. -/

namespace Sys2Proof.Machine

/-! ### Register files -/

@[simp] theorem InRegs.get_set_self (r : InRegs) (k : InReg) (v : Reg) : (r.set k v).get k = v := by cases k <;> rfl

theorem InRegs.get_set_of_ne (r : InRegs) {k j : InReg} (v : Reg) (h : j ≠ k) : (r.set k v).get j = r.get j := by
  cases k <;> cases j <;> first | rfl | exact absurd rfl h

@[simp] theorem OutRegs.get_set_self (r : OutRegs) (k : OutReg) (v : Reg) : (r.set k v).get k = v := by
  cases k <;> rfl

theorem OutRegs.get_set_of_ne (r : OutRegs) {k j : OutReg} (v : Reg) (h : j ≠ k) : (r.set k v).get j = r.get j := by
  cases k <;> cases j <;> first | rfl | exact absurd rfl h

@[simp] theorem InRegs.unwritten_get (k : InReg) : InRegs.unwritten.get k = Reg.unwritten := by cases k <;> rfl

@[simp] theorem OutRegs.unwritten_get (k : OutReg) : OutRegs.unwritten.get k = Reg.unwritten := by cases k <;> rfl

/-- A register a commit does not name keeps its value (R27). -/
theorem writeOuts_get_of_not_mem (ws : List (OutReg × Word)) (r : OutRegs) (k : OutReg)
    (h : k ∉ ws.map Prod.fst) : (writeOuts r ws).get k = r.get k := by
  induction ws generalizing r with
  | nil => rfl
  | cons p rest ih =>
    obtain ⟨j, w⟩ := p
    simp only [List.map_cons, List.mem_cons, not_or] at h
    simp only [writeOuts]
    rw [ih _ h.2, OutRegs.get_set_of_ne _ _ h.1]

/-- A register a commit names once holds the word named for it (R27). -/
theorem writeOuts_get_of_mem (ws : List (OutReg × Word)) (r : OutRegs) (k : OutReg) (w : Word)
    (hn : (ws.map Prod.fst).Nodup) (h : (k, w) ∈ ws) : (writeOuts r ws).get k = ⟨w, true⟩ := by
  induction ws generalizing r with
  | nil => cases h
  | cons p rest ih =>
    obtain ⟨j, v⟩ := p
    simp only [List.map_cons, List.nodup_cons] at hn
    simp only [writeOuts]
    rcases List.mem_cons.1 h with h | h
    · obtain ⟨rfl, rfl⟩ := Prod.mk.inj h
      rw [writeOuts_get_of_not_mem _ _ _ hn.1, OutRegs.get_set_self]
    · exact ih _ hn.2 h

/-- What a written register holds after a commit: what it held, or a word of the commit. -/
theorem writeOuts_get_cases (ws : List (OutReg × Word)) (r : OutRegs) (k : OutReg) :
    (writeOuts r ws).get k = r.get k ∨ ∃ w, (k, w) ∈ ws ∧ (writeOuts r ws).get k = ⟨w, true⟩ := by
  induction ws generalizing r with
  | nil => exact .inl rfl
  | cons p rest ih =>
    obtain ⟨j, v⟩ := p
    simp only [writeOuts]
    rcases ih (r.set j ⟨v, true⟩) with h | ⟨w, hw, h⟩
    · by_cases hk : k = j
      · subst hk
        exact .inr ⟨v, List.mem_cons_self, by rw [h, OutRegs.get_set_self]⟩
      · exact .inl (by rw [h, OutRegs.get_set_of_ne _ _ hk])
    · exact .inr ⟨w, List.mem_cons_of_mem _ hw, h⟩

/-! ### Commits and the run of a command -/

@[simp] theorem commit_error (c : Code) (s : State) : commit (.error c) s = faultEntry c s := rfl

@[simp] theorem commit_ok (c : Commit) (s : State) : commit (.ok c) s = commitOk c s := rfl

/-- What no completion changes (R30, R203): everything but BUSY, CODE, FAULT, SAT, SECTOR and OUT0 to OUT5. -/
theorem commit_frame (r : Except Code Commit) (s : State) :
    (commit r s).cmd = s.cmd ∧ (commit r s).ovr = s.ovr ∧ (commit r s).inp = s.inp ∧ (commit r s).cfg = s.cfg ∧
      (commit r s).lcmd = s.lcmd ∧ (commit r s).lin = s.lin ∧ (commit r s).resets = s.resets ∧
      (commit r s).agenda = s.agenda ∧ (commit r s).host = s.host ∧ (commit r s).busy = false := by
  cases r <;> simp

/-- A command whose operands do not end it in the model-only fault completes (R202, R210). -/
theorem runCommand_of_runnable {s : State} {reads : List InReg} (h : runnable s reads = true)
    (r : State → Except Code Commit) : runCommand reads r s = .next (commit (r s) s) := by
  unfold runCommand
  rw [if_neg]
  revert h
  unfold runnable
  cases operandsWritten s reads <;> cases s.cfg.operandCheck <;> simp

/-- A command with an operand never written ends in the model-only fault (R210). -/
theorem runCommand_of_not_runnable {s : State} {reads : List InReg} (h : runnable s reads = false)
    (r : State → Except Code Commit) : runCommand reads r s = .fault .unwrittenOperand := by
  unfold runCommand
  rw [if_pos]
  revert h
  unfold runnable
  cases operandsWritten s reads <;> cases s.cfg.operandCheck <;> simp

/-- The two ends of a run. -/
theorem runCommand_cases (reads : List InReg) (r : State → Except Code Commit) (s : State) :
    runCommand reads r s = .next (commit (r s) s) ∨ runCommand reads r s = .fault .unwrittenOperand := by
  cases h : runnable s reads
  · exact .inr (runCommand_of_not_runnable h r)
  · exact .inl (runCommand_of_runnable h r)

/-- A delivery that gives way answers with one of its two outcomes. -/
theorem unlessOverflow_cases (drawn undrawn : Except Code Commit) :
    (∃ c, drawn = .ok c ∧ unlessOverflow drawn undrawn = .ok c) ∨
      (∃ e, drawn = .error e) ∧ unlessOverflow drawn undrawn = undrawn := by
  cases drawn with
  | ok c => exact .inl ⟨c, rfl, rfl⟩
  | error e => exact .inr ⟨⟨e, rfl⟩, rfl⟩

/-- Every word a commit of `deliver` names was delivered for its register's exact result. -/
theorem outWords_mem {cfg : Config} {cmd : Word} {ops : List Word} {how : OutReg → Conformance} {rs : List (OutReg × Exact)}
    {ws : List (OutReg × Word)} (h : outWords cfg cmd ops how rs = some ws) :
    ws.map Prod.fst = rs.map Prod.fst ∧
      ∀ r w, (r, w) ∈ ws → ∃ e, (r, e) ∈ rs ∧ deliveredWord cfg cmd ops (how r) (outIndex r) e = some w := by
  induction rs generalizing ws with
  | nil =>
    simp only [outWords, Option.some.injEq] at h
    subst h
    exact ⟨rfl, fun _ _ hm => by cases hm⟩
  | cons p rest ih =>
    obtain ⟨r, e⟩ := p
    simp only [outWords] at h
    cases hd : deliveredWord cfg cmd ops (how r) (outIndex r) e with
    | none => rw [hd] at h; cases h
    | some w =>
      rw [hd] at h
      obtain ⟨ws', hw, rfl⟩ := Option.map_eq_some_iff.1 h
      obtain ⟨h1, h2⟩ := ih hw
      refine ⟨by simp [h1], fun r' w' hm => ?_⟩
      rcases List.mem_cons.1 hm with hm | hm
      · obtain ⟨rfl, rfl⟩ := Prod.mk.inj hm
        exact ⟨e, List.mem_cons_self, hd⟩
      · obtain ⟨e', he, hd'⟩ := h2 r' w' hm
        exact ⟨e', List.mem_cons_of_mem _ he, hd'⟩

/-- A delivery that gives way ends with CODE 0 where the one without draws does. -/
theorem unlessOverflow_ok {drawn undrawn : Except Code Commit} (h : ∃ c, undrawn = .ok c) :
    ∃ c, unlessOverflow drawn undrawn = .ok c := by
  obtain ⟨c, -, hu⟩ | ⟨-, hu⟩ := unlessOverflow_cases drawn undrawn
  · exact ⟨c, hu⟩
  · rwa [hu]

/-- The words of a list of results, from those of its first and of the rest. -/
theorem outWords_cons_iff {cfg : Config} {cmd : Word} {ops : List Word} {how : OutReg → Conformance} {r : OutReg} {e : Exact}
    {rest : List (OutReg × Exact)} {ws : List (OutReg × Word)} :
    outWords cfg cmd ops how ((r, e) :: rest) = some ws ↔
      ∃ w ws', deliveredWord cfg cmd ops (how r) (outIndex r) e = some w ∧ outWords cfg cmd ops how rest = some ws' ∧
        ws = (r, w) :: ws' := by
  simp only [outWords]
  cases deliveredWord cfg cmd ops (how r) (outIndex r) e <;> simp [eq_comm]

/-- The two ends of a delivery: OVERFLOW, or a commit of one delivered word for each result (R204). -/
theorem deliver_cases (s : State) (reads : List InReg) (how : OutReg → Conformance) (rs : List (OutReg × Exact))
    (sec : Option (BitVec 3)) (sat : Option Bool) :
    deliver s reads how rs sec sat = .error .overflow ∨
      ∃ ws, outWords s.cfg s.lcmd (operandWords s reads) how rs = some ws ∧
        deliver s reads how rs sec sat = .ok ⟨ws, sec, sat⟩ := by
  unfold deliver
  cases h : outWords s.cfg s.lcmd (operandWords s reads) how rs with
  | none => exact .inl rfl
  | some ws => exact .inr ⟨ws, rfl, rfl⟩

/-! ### Agents and the step -/

/-- How a decoded command ends: a commit, or the model-only fault; it is never refused. -/
theorem exec_cases (i : Instr) (s : State) :
    (∃ r, exec i s = .next (commit r s)) ∨ exec i s = .fault .unwrittenOperand := by
  have run : ∀ reads (f : State → Except Code Commit), (∃ r, runCommand reads f s = .next (commit r s)) ∨
      runCommand reads f s = .fault .unwrittenOperand := fun reads f =>
    (runCommand_cases reads f s).imp (fun h => ⟨_, h⟩) id
  cases i with
  | sin => exact run _ _
  | cos => exact run _ _
  | norm => exact run _ _
  | clarke => exact run _ _
  | iclarke => exact run _ _
  | park => exact run _ _
  | ipark => exact run _ _
  | sector => exact run _ _
  | svpwm => exact run _ _
  | vtime sec =>
    show (∃ r, execVtime sec s = _) ∨ execVtime sec s = _
    unfold execVtime
    cases sectorOfBits sec with
    | none => exact .inl ⟨.error .illegalSector, rfl⟩
    | some k => exact run _ _
  | cmap sec =>
    show (∃ r, execCmap sec s = _) ∨ execCmap sec s = _
    unfold execCmap
    cases sectorOfBits sec with
    | none => exact .inl ⟨.error .illegalSector, rfl⟩
    | some k => exact run _ _

/-- How a completion ends: in a commit whose words, if any, come from `exec`, or in the model-only fault. -/
theorem complete_cases (s : State) :
    (∃ i, decode s.lcmd = .ok i ∧ complete s = exec i s) ∨ complete s = .next (faultEntry .illegalOp s) := by
  unfold complete
  cases h : decode s.lcmd with
  | ok i => exact .inl ⟨i, rfl, rfl⟩
  | error e => exact .inr rfl

/-- Everything a step that answers a next state can have done: a completion, a host move, an idle block's move, or a
reset. -/
theorem step_cases {s t : State} (h : step s = .next t) :
    configLegal s.cfg = true ∧
      ((nextMove s = .block ∧ s.busy = true ∧ complete (popAgenda s) = .next t) ∨
        (nextMove s = .block ∧ s.busy = false ∧ t = popAgenda s) ∨
        (nextMove s = .host ∧ hostMove (popAgenda s) = .next t) ∨
        (nextMove s = .reset ∧ t = resetBlock (popAgenda s))) := by
  unfold step advance at h
  split_ifs at h with hl
  refine ⟨hl, ?_⟩
  unfold move at h
  cases hm : nextMove s with
  | block =>
    rw [hm] at h
    simp only [blockMove] at h
    split_ifs at h with hb
    · exact .inl ⟨rfl, hb, h⟩
    · simp only [Host.Outcome.next.injEq] at h
      exact .inr (.inl ⟨rfl, Bool.not_eq_true _ ▸ hb, h.symm⟩)
  | host => rw [hm] at h; exact .inr (.inr (.inl ⟨rfl, h⟩))
  | reset =>
    rw [hm] at h
    simp only [Host.Outcome.next.injEq] at h
    exact .inr (.inr (.inr ⟨rfl, h.symm⟩))

/-- Everything a host move that answers a next state can have done: nothing, a write, a read or a branch. -/
theorem hostMove_cases {s t : State} (h : hostMove s = .next t) :
    t = s ∨ (∃ r w, t = writeRegister r w (hostGoto (s.host.next + 1) s)) ∨
      (∃ r dst, t = hostAssign dst (readRegister s r) (hostGoto (s.host.next + 1) s)) ∨ ∃ n, t = hostGoto n s := by
  unfold hostMove at h
  split at h
  · simp only [Host.Outcome.next.injEq] at h; exact .inl h.symm
  · rename_i addr size src _
    unfold hostWrite at h
    split at h
    · cases h
    · split at h
      · cases h
      · simp only [Host.Outcome.next.injEq] at h
        exact .inr (.inl ⟨_, _, h.symm⟩)
  · rename_i addr size dst _
    unfold hostRead at h
    split at h
    · cases h
    · simp only [Host.Outcome.next.injEq] at h
      exact .inr (.inr (.inl ⟨_, _, h.symm⟩))
  · rename_i name bit target _
    unfold hostBranch at h
    split at h
    · cases h
    · simp only [Host.Outcome.next.injEq] at h
      exact .inr (.inr (.inr ⟨_, h.symm⟩))

/-- Setting a variable keeps the variables in rising order. -/
theorem setVar_rising (vars : List (Nat × Word)) (k : Nat) (w : Word) (h : varsRising vars = true) :
    varsRising (setVar vars k w) = true := by
  induction vars with
  | nil => rfl
  | cons p rest ih =>
    obtain ⟨n, v⟩ := p
    simp only [setVar]
    split_ifs with h1 h2
    · simp only [varsRising, Bool.and_eq_true, decide_eq_true_eq]
      exact ⟨h1, h⟩
    · subst h2
      cases rest with
      | nil => rfl
      | cons q rest' =>
        obtain ⟨m, u⟩ := q
        simpa [varsRising] using h
    · cases rest with
      | nil => simp only [setVar, varsRising, Bool.and_true, decide_eq_true_eq]; omega
      | cons q rest' =>
        obtain ⟨m, u⟩ := q
        simp only [varsRising, Bool.and_eq_true, decide_eq_true_eq] at h
        have ih' := ih h.2
        simp only [setVar] at ih' ⊢
        split_ifs at ih' ⊢ with h3 h4
        · simp only [varsRising, Bool.and_eq_true, decide_eq_true_eq] at ih' ⊢
          exact ⟨by omega, ih'⟩
        · simp only [varsRising, Bool.and_eq_true, decide_eq_true_eq]
          exact ⟨by omega, ih'⟩
        · simp only [varsRising, Bool.and_eq_true, decide_eq_true_eq]
          exact ⟨h.1, ih'⟩

end Sys2Proof.Machine
end

