-- ==== Sys2Proof/Laws/Specified.lean ====
section
/-! SUPPORT. A value that a statement fixes has what the statement says, and the questions about real parameters have the
answers of the reals. -/

namespace Sys2Proof.Machine

/-- The value has the property, where some value has it. -/
theorem suchThat_spec {α : Type} [Nonempty α] {P : α → Prop} (h : ∃ a, P a) : P (suchThat P) := by
  unfold suchThat
  exact Subtype.property (p := fun a => (∃ b, P b) → P a) _ h

/-- Where one value alone has the property, that is the value. -/
theorem suchThat_eq {α : Type} [Nonempty α] {P : α → Prop} {a : α} (h : P a) (hu : ∀ b, P b → b = a) :
    suchThat P = a := hu _ (suchThat_spec ⟨a, h⟩)

theorem holds_iff (P : Prop) : holds P = true ↔ P := by
  refine suchThat_spec (P := fun b => b = true ↔ P) ?_
  by_cases h : P
  · exact ⟨true, by simp [h]⟩
  · exact ⟨false, by simp [h]⟩

/-- Where the arithmetic answers right, the decision is the truth. -/
theorem decideBy_iff {computed : Option Bool} {P : Prop} (h : ∀ b, computed = some b → (b = true ↔ P)) :
    decideBy computed P = true ↔ P := by
  cases computed with
  | none => exact holds_iff P
  | some b => exact h b rfl

end Sys2Proof.Machine

namespace Sys2Proof.RealParam

open Sys2Proof.Machine
open Sys2Proof.Machine.Reference (param)

/-- A question about a parameter is answered by the real it stands for. -/
theorem test_iff {p : RealParam} {onRat : Rat → Bool} {P : ℝ → Prop} (h : ∀ q : Rat, onRat q = true ↔ P q) :
    p.test onRat P = true ↔ P (param p) := by
  cases p with
  | rat q => exact h q
  | real k => exact holds_iff _

theorem isZero_iff (p : RealParam) : p.isZero = true ↔ param p = 0 := test_iff fun q => by simp

theorem isNonneg_iff (p : RealParam) : p.isNonneg = true ↔ 0 ≤ param p :=
  test_iff fun q => by simp

theorem isPos_iff (p : RealParam) : p.isPos = true ↔ 0 < param p :=
  test_iff fun q => by simp

theorem isBelow_iff (p : RealParam) (y : Rat) : p.isBelow y = true ↔ param p < y := test_iff fun q => by simp

theorem same_iff (p q : RealParam) : p.same q = true ↔ param p = param q := by
  cases p with
  | rat a =>
    cases q with
    | rat b => simp [same, param]
    | real k => exact holds_iff _
  | real k => exact holds_iff _

end Sys2Proof.RealParam
end

