-- ==== Sys2Proof/Laws/Surd.lean ====
section
/-! SUPPORT. The surds against the reals they stand for: arithmetic, sign, comparison and rounding. -/

namespace Sys2Proof.Machine

open Reference

theorem sqrt3_sq : Real.sqrt 3 * Real.sqrt 3 = 3 := Real.mul_self_sqrt (by norm_num)

theorem sqrt3_pos : 0 < Real.sqrt 3 := Real.sqrt_pos.2 (by norm_num)

theorem irrational_sqrt3 : Irrational (Real.sqrt 3) := by
  simpa using (Nat.Prime.irrational_sqrt (show Nat.Prime 3 by norm_num))

@[simp] theorem surd_ofRat (p : Rat) : surd (Surd.ofRat p) = p := by simp [surd, Surd.ofRat]

@[simp] theorem surd_sqrt3 (r : Rat) : surd (Surd.sqrt3 r) = r * Real.sqrt 3 := by simp [surd, Surd.sqrt3]

@[simp] theorem surd_add (x y : Surd) : surd (x.add y) = surd x + surd y := by
  simp only [surd, Surd.add]; push_cast; ring

@[simp] theorem surd_neg (x : Surd) : surd x.neg = -surd x := by
  simp only [surd, Surd.neg]; push_cast; ring

@[simp] theorem surd_sub (x y : Surd) : surd (x.sub y) = surd x - surd y := by
  simp only [surd, Surd.sub]; push_cast; ring

@[simp] theorem surd_scale (r : Rat) (x : Surd) : surd (x.scale r) = r * surd x := by
  simp only [surd, Surd.scale]; push_cast; ring

@[simp] theorem surd_mul (x y : Surd) : surd (x.mul y) = surd x * surd y := by
  simp only [surd, Surd.mul]; push_cast
  linear_combination (-(x.q : ℝ) * y.q) * sqrt3_sq

/-- A surd is 0 only where both its parts are. -/
theorem surd_eq_zero_iff (x : Surd) : surd x = 0 ↔ x.p = 0 ∧ x.q = 0 := by
  constructor
  · intro h
    by_cases hq : x.q = 0
    · refine ⟨?_, hq⟩
      simp only [surd, hq, Rat.cast_zero, zero_mul, add_zero] at h
      exact_mod_cast h
    · exfalso
      apply irrational_sqrt3
      refine ⟨-x.p / x.q, ?_⟩
      have hq' : (x.q : ℝ) ≠ 0 := by exact_mod_cast hq
      simp only [surd] at h
      push_cast
      field_simp
      linarith
  · rintro ⟨hp, hq⟩
    simp [surd, hp, hq]

theorem isZero_iff (x : Surd) : x.isZero = true ↔ surd x = 0 := by
  rw [surd_eq_zero_iff]; simp [Surd.isZero]

@[simp] theorem surd_div (x y : Surd) (hy : surd y ≠ 0) : surd (x.div y) = surd x / surd y := by
  have hconj : surd ⟨y.p, -y.q⟩ ≠ 0 := by
    rw [ne_eq, surd_eq_zero_iff] at hy ⊢
    simpa using hy
  have hn : surd y * surd ⟨y.p, -y.q⟩ = ((y.p * y.p - 3 * (y.q * y.q) : Rat) : ℝ) := by
    simp only [surd]; push_cast
    linear_combination (-(y.q : ℝ) * y.q) * sqrt3_sq
  have hn0 : ((y.p * y.p - 3 * (y.q * y.q) : Rat) : ℝ) ≠ 0 := by rw [← hn]; exact mul_ne_zero hy hconj
  unfold Surd.div
  rw [surd_scale, surd_mul, Rat.cast_div, Rat.cast_one, ← hn]
  field_simp

/-- The sign of a surd is decided exactly. -/
theorem pos_iff (x : Surd) : x.pos = true ↔ 0 < surd x := by
  have h3 := sqrt3_sq
  have h3p := sqrt3_pos
  unfold Surd.pos surd
  by_cases hq : x.q = 0
  · rw [if_pos hq, hq]; simp
  rw [if_neg hq]
  by_cases hq0 : 0 < x.q
  · have hq' : (0 : ℝ) < x.q := by exact_mod_cast hq0
    rw [if_pos hq0, Bool.or_eq_true, decide_eq_true_eq, decide_eq_true_eq]
    constructor
    · rintro (h | h)
      · have : (0 : ℝ) ≤ x.p := by exact_mod_cast h
        positivity
      · have h' : (x.p : ℝ) * x.p < 3 * (x.q * x.q) := by exact_mod_cast h
        have : (x.p : ℝ) * x.p < (x.q * Real.sqrt 3) * (x.q * Real.sqrt 3) := by
          calc _ < _ := h'
            _ = _ := by linear_combination (-(x.q : ℝ) * x.q) * h3
        have h4 : |(x.p : ℝ)| < x.q * Real.sqrt 3 :=
          abs_lt_of_sq_lt_sq (by rw [sq, sq]; exact this) (by positivity)
        linarith [(abs_lt.1 h4).1]
    · intro h
      by_cases hp : 0 ≤ x.p
      · exact .inl hp
      · right
        have hp' : (x.p : ℝ) < 0 := by exact_mod_cast not_le.1 hp
        have : (x.p : ℝ) * x.p < 3 * (x.q * x.q) := by
          have : 3 * ((x.q : ℝ) * x.q) = (x.q * Real.sqrt 3) * (x.q * Real.sqrt 3) := by
            linear_combination (-(x.q : ℝ) * x.q) * h3
          rw [this]; nlinarith
        exact_mod_cast this
  · have hq' : (x.q : ℝ) < 0 := by exact_mod_cast lt_of_le_of_ne (not_lt.1 hq0) hq
    rw [if_neg hq0, Bool.and_eq_true, decide_eq_true_eq, decide_eq_true_eq]
    constructor
    · rintro ⟨hp, h⟩
      have hp' : (0 : ℝ) < x.p := by exact_mod_cast hp
      have h' : 3 * ((x.q : ℝ) * x.q) < x.p * x.p := by exact_mod_cast h
      have h'' : (-x.q * Real.sqrt 3) * (-x.q * Real.sqrt 3) < (x.p : ℝ) * x.p := by
        calc _ = _ := by linear_combination ((x.q : ℝ) * x.q) * h3
          _ < _ := h'
      have h4 : |(-x.q * Real.sqrt 3 : ℝ)| < x.p := abs_lt_of_sq_lt_sq (by rw [sq, sq]; exact h'') hp'.le
      linarith [(abs_lt.1 h4).2]
    · intro h
      have hp' : (0 : ℝ) < x.p := by nlinarith
      refine ⟨by exact_mod_cast hp', ?_⟩
      have : 3 * ((x.q : ℝ) * x.q) < x.p * x.p := by
        have : 3 * ((x.q : ℝ) * x.q) = (-x.q * Real.sqrt 3) * (-x.q * Real.sqrt 3) := by
          linear_combination (-(x.q : ℝ) * x.q) * h3
        rw [this]
        exact mul_self_lt_mul_self (by nlinarith) (by linarith)
      exact_mod_cast this

/-- The comparison with a rational is exact. -/
theorem surd_compares (x : Surd) : Compares (surd x) x.cmp := by
  intro q
  have hd : surd ⟨x.p - q, x.q⟩ = surd x - q := by simp only [surd]; push_cast; ring
  unfold Surd.cmp
  simp only []
  have h1 := pos_iff ⟨x.p - q, x.q⟩
  have h2 := isZero_iff ⟨x.p - q, x.q⟩
  rw [hd] at h1 h2
  by_cases hp : (Surd.mk (x.p - q) x.q).pos = true
  · rw [if_pos hp]
    have := h1.1 hp
    simp only [reduceCtorEq, false_iff, true_iff, not_lt]
    exact ⟨by linarith, fun h => by linarith, by linarith⟩
  · rw [if_neg hp]
    have hnp : ¬ 0 < surd x - q := fun h => hp (h1.2 h)
    by_cases hz : (Surd.mk (x.p - q) x.q).isZero = true
    · rw [if_pos hz]
      have := h2.1 hz
      simp only [reduceCtorEq, false_iff, true_iff, not_lt]
      exact ⟨by linarith, by linarith, by linarith⟩
    · rw [if_neg hz]
      have hnz : surd x - q ≠ 0 := fun h => hz (h2.2 h)
      have : surd x - q < 0 := lt_of_le_of_ne (not_lt.1 hnp) hnz
      simp only [reduceCtorEq, false_iff, true_iff, not_lt]
      exact ⟨by linarith, fun h => hnz (by linarith), by linarith⟩

/-- `Surd.enc` is `ENC` (R77), on every surd. -/
theorem surd_enc_isEnc (x : Surd) : IsEnc (surd x) x.enc := by
  have hneg := pos_iff x.neg
  rw [surd_neg] at hneg
  unfold Surd.enc
  split_ifs with h
  · have := hneg.1 h
    exact isEnc_of_encMag (surd_compares x.neg) (by rw [surd_neg]; exact this.le) (by simp)
  · have : ¬ 0 < -surd x := fun h' => h (hneg.2 h')
    exact isEnc_of_encMag (surd_compares x) (by linarith) (by simp)

/-- `Surd.near` decides `|x - v| <= tol`. -/
theorem surd_near_iff (x : Surd) (v tol : Rat) : x.near v tol = true ↔ |surd x - v| ≤ tol := by
  have h1 := (surd_compares x (v + tol)).2.2
  have h2 := (surd_compares x (v - tol)).1
  unfold Surd.near
  rw [Bool.and_eq_true, bne_iff_ne, bne_iff_ne, ne_eq, ne_eq, h1, h2, abs_le]
  push_cast
  constructor
  · rintro ⟨a, b⟩; constructor <;> linarith
  · rintro ⟨a, b⟩; constructor <;> linarith

end Sys2Proof.Machine
end

