-- ==== Sys2Proof/Laws/Interval.lean ====
section
/-! SUPPORT. The interval operations contain the real results, and `Ival.enc` is `ENC` where it answers. -/

namespace Sys2Proof.Machine

open Reference

/-- The real `x` lies in the interval. -/
def Ival.Contains (i : Ival) (x : ℝ) : Prop := (i.lo : ℝ) ≤ x ∧ x ≤ i.hi

theorem Ival.point_contains (q : Rat) : (Ival.point q).Contains q := ⟨le_rfl, le_rfl⟩

theorem Ival.add_contains {i j : Ival} {x y : ℝ} (hx : i.Contains x) (hy : j.Contains y) :
    (i.add j).Contains (x + y) := by
  constructor <;> simp only [Ival.add] <;> push_cast
  · exact add_le_add hx.1 hy.1
  · exact add_le_add hx.2 hy.2

theorem Ival.sub_contains {i j : Ival} {x y : ℝ} (hx : i.Contains x) (hy : j.Contains y) :
    (i.sub j).Contains (x - y) := by
  constructor <;> simp only [Ival.sub] <;> push_cast
  · exact sub_le_sub hx.1 hy.2
  · exact sub_le_sub hx.2 hy.1

theorem Ival.scale_contains {i : Ival} {x : ℝ} (r : Rat) (hx : i.Contains x) : (i.scale r).Contains (r * x) := by
  unfold Ival.scale
  split_ifs with h0 hp
  · subst h0; simpa using Ival.point_contains 0
  · have hp' : (0 : ℝ) ≤ r := by exact_mod_cast hp.le
    constructor <;> push_cast
    · exact mul_le_mul_of_nonneg_left hx.1 hp'
    · exact mul_le_mul_of_nonneg_left hx.2 hp'
  · have hn : (r : ℝ) ≤ 0 := by exact_mod_cast not_lt.1 hp
    constructor <;> push_cast
    · exact mul_le_mul_of_nonpos_left hx.2 hn
    · exact mul_le_mul_of_nonpos_left hx.1 hn

theorem Ival.mulNonneg_contains {f i : Ival} {t x : ℝ} (h0 : 0 ≤ f.lo) (ht : f.Contains t) (hx : i.Contains x) :
    (Ival.mulNonneg f i).Contains (t * x) := by
  have h0' : (0 : ℝ) ≤ f.lo := by exact_mod_cast h0
  have ht0 : 0 ≤ t := h0'.trans ht.1
  obtain ⟨ht1, ht2⟩ := ht
  obtain ⟨hx1, hx2⟩ := hx
  unfold Ival.mulNonneg
  constructor <;> simp only [] <;> split_ifs with h <;> push_cast
  · have : (0 : ℝ) ≤ i.lo := by exact_mod_cast h
    nlinarith
  · have : (i.lo : ℝ) ≤ 0 := by exact_mod_cast (not_le.1 h).le
    nlinarith
  · have : (0 : ℝ) ≤ i.hi := by exact_mod_cast h
    nlinarith
  · have : (i.hi : ℝ) ≤ 0 := by exact_mod_cast (not_le.1 h).le
    nlinarith

/-- A word nearest to both ends of an interval is nearest to every real in it. -/
theorem nearestEven_between {a b x : ℝ} {w : Word} (ha : NearestEven a w) (hb : NearestEven b w) (hax : a ≤ x)
    (hxb : x ≤ b) : NearestEven x w := by
  obtain ⟨v, hv, hz, hva⟩ := ha
  obtain ⟨v2, hv2, -, hvb⟩ := hb
  obtain rfl : v = v2 := by rw [hv] at hv2; exact Option.some.inj hv2
  refine ⟨v, hv, hz, fun w' v' hw' => ?_⟩
  obtain ⟨ha1, ha2⟩ := hva w' v' hw'
  obtain ⟨hb1, hb2⟩ := hvb w' v' hw'
  rcases lt_trichotomy (v' : ℝ) v with h | h | h
  · have hm : ((v' : ℝ) + v) / 2 ≤ a := by
      rcases abs_cases ((v : ℝ) - a) with ⟨e1, _⟩ | ⟨e1, _⟩ <;>
        rcases abs_cases ((v' : ℝ) - a) with ⟨e2, _⟩ | ⟨e2, _⟩ <;> rw [e1, e2] at ha1 <;> linarith
    have e2 : |(v' : ℝ) - x| = x - v' := by rw [abs_sub_comm, abs_of_nonneg (by linarith)]
    refine ⟨by rw [e2, abs_le]; constructor <;> linarith, fun he hne => ha2 ?_ hne⟩
    have hxm : x = ((v' : ℝ) + v) / 2 := by
      rw [e2] at he
      rcases abs_cases ((v : ℝ) - x) with ⟨e1, _⟩ | ⟨e1, _⟩ <;> rw [e1] at he <;> linarith
    have : a = x := le_antisymm hax (hxm ▸ hm)
    rw [this]; exact he
  · rw [h]
    refine ⟨le_rfl, fun _ hne => absurd (by exact_mod_cast h) hne⟩
  · have hm : b ≤ ((v' : ℝ) + v) / 2 := by
      rcases abs_cases ((v : ℝ) - b) with ⟨e1, _⟩ | ⟨e1, _⟩ <;>
        rcases abs_cases ((v' : ℝ) - b) with ⟨e2, _⟩ | ⟨e2, _⟩ <;> rw [e1, e2] at hb1 <;> linarith
    have e2 : |(v' : ℝ) - x| = v' - x := abs_of_nonneg (by linarith)
    refine ⟨by rw [e2, abs_le]; constructor <;> linarith, fun he hne => hb2 ?_ hne⟩
    have hxm : x = ((v' : ℝ) + v) / 2 := by
      rw [e2] at he
      rcases abs_cases ((v : ℝ) - x) with ⟨e1, _⟩ | ⟨e1, _⟩ <;> rw [e1] at he <;> linarith
    have : b = x := le_antisymm (hxm ▸ hm) hxb
    rw [this]; exact he

/-- Where an enclosure decides the rounding, it is `ENC` of every real in it (R77). -/
theorem Ival.enc_isEnc {i : Ival} {x : ℝ} (hx : i.Contains x) {r : Option Word} (h : i.enc = some r) : IsEnc x r := by
  unfold Ival.enc at h
  simp only [] at h
  split_ifs at h with hc
  obtain ⟨heq, hside⟩ := hc
  have hr : encRat i.lo = r := Option.some.inj h
  have hlo := encRat_isEnc i.lo
  have hhi := encRat_isEnc i.hi
  rw [← heq] at hhi
  rw [hr] at hlo hhi hside
  cases r with
  | some w =>
    refine ⟨?_, nearestEven_between hlo.2 hhi.2 hx.1 hx.2⟩
    have h1 := abs_lt.1 hlo.1
    have h2 := abs_lt.1 hhi.1
    exact abs_lt.2 ⟨h1.1.trans_le hx.1, hx.2.trans_lt h2.2⟩
  | none =>
    simp only [IsEnc] at hlo hhi ⊢
    rcases hside with h' | h' | h'
    · exact absurd rfl h'
    · have h0 : (0 : ℝ) ≤ i.lo := by exact_mod_cast h'
      rw [abs_of_nonneg h0] at hlo
      exact (hlo.trans hx.1).trans (le_abs_self x)
    · have h0 : (i.hi : ℝ) ≤ 0 := by exact_mod_cast h'
      rw [abs_of_nonpos h0] at hhi
      exact (hhi.trans (neg_le_neg hx.2)).trans (neg_le_abs x)

/-- Where an enclosure decides nearness, it decides it right. -/
theorem Ival.near_iff {i : Ival} {x : ℝ} (hx : i.Contains x) {v tol : Rat} {r : Bool} (h : i.near v tol = some r) :
    r = true ↔ |x - v| ≤ tol := by
  unfold Ival.near at h
  split_ifs at h with h1 h2
  · obtain rfl : true = r := Option.some.inj h
    rw [Bool.and_eq_true, decide_eq_true_eq, decide_eq_true_eq] at h1
    have a : ((v - tol : Rat) : ℝ) ≤ i.lo := by exact_mod_cast h1.1
    have b : (i.hi : ℝ) ≤ ((v + tol : Rat) : ℝ) := by exact_mod_cast h1.2
    push_cast at a b
    simp only [true_iff, abs_le]
    constructor <;> linarith [hx.1, hx.2]
  · obtain rfl : false = r := Option.some.inj h
    rw [Bool.or_eq_true, decide_eq_true_eq, decide_eq_true_eq] at h2
    simp only [Bool.false_eq_true, false_iff, abs_le, not_and_or, not_le]
    rcases h2 with h2 | h2
    · have a : (i.hi : ℝ) < ((v - tol : Rat) : ℝ) := by exact_mod_cast h2
      push_cast at a
      left; linarith [hx.2]
    · have a : ((v + tol : Rat) : ℝ) < i.lo := by exact_mod_cast h2
      push_cast at a
      right; linarith [hx.1]

end Sys2Proof.Machine
end

