-- ==== Sys2Proof/Laws/Pi.lean ====
section
/-! SUPPORT. The model's rational enclosure of π holds: Machin's formula with the alternating arctangent series. -/

namespace Sys2Proof.Machine

/-- The first `n` terms of the arctangent series at `x`. -/
def arctanSum (x : Rat) : Nat → Rat
  | 0 => 0
  | n + 1 => arctanSum x n + (-1) ^ n * (x ^ (2 * n + 1) / ((2 * n + 1 : Nat) : Rat))

theorem arctanSum_cast (x : Rat) (n : Nat) :
    (arctanSum x n : ℝ) =
      ∑ i ∈ Finset.range n, (-1) ^ i * ((x : ℝ) ^ (2 * i + 1) / ((2 * i + 1 : Nat) : ℝ)) := by
  induction n with
  | zero => simp [arctanSum]
  | succ n ih => rw [arctanSum, Finset.sum_range_succ, ← ih]; push_cast; ring

theorem arctanTerm_antitone (x : Rat) (h0 : 0 ≤ x) (h1 : x < 1) :
    Antitone fun i : Nat => (x : ℝ) ^ (2 * i + 1) / ((2 * i + 1 : Nat) : ℝ) := by
  have h0' : (0 : ℝ) ≤ x := by exact_mod_cast h0
  have h1' : (x : ℝ) ≤ 1 := by exact_mod_cast h1.le
  intro a b hab
  simp only []
  have hp : (x : ℝ) ^ (2 * b + 1) ≤ (x : ℝ) ^ (2 * a + 1) := pow_le_pow_of_le_one h0' h1' (by omega)
  have hd : ((2 * a + 1 : Nat) : ℝ) ≤ ((2 * b + 1 : Nat) : ℝ) := by exact_mod_cast (by omega)
  exact div_le_div₀ (by positivity) hp (by positivity) hd

theorem arctan_tendsto (x : Rat) (h0 : 0 ≤ x) (h1 : x < 1) :
    Filter.Tendsto (fun n => ∑ i ∈ Finset.range n, (-1) ^ i * ((x : ℝ) ^ (2 * i + 1) / ((2 * i + 1 : Nat) : ℝ)))
      Filter.atTop (nhds (Real.arctan x)) := by
  have h0' : (0 : ℝ) ≤ x := by exact_mod_cast h0
  have h1' : (x : ℝ) < 1 := by exact_mod_cast h1
  have h := (Real.hasSum_arctan (x := (x : ℝ)) (by rw [Real.norm_eq_abs, abs_of_nonneg h0']; exact h1')).tendsto_sum_nat
  refine h.congr fun n => Finset.sum_congr rfl fun i _ => ?_
  push_cast; ring

/-- An even number of terms is below the arctangent. -/
theorem arctanSum_le (x : Rat) (h0 : 0 ≤ x) (h1 : x < 1) (k : Nat) : (arctanSum x (2 * k) : ℝ) ≤ Real.arctan x := by
  rw [arctanSum_cast]
  exact (arctanTerm_antitone x h0 h1).alternating_series_le_tendsto (arctan_tendsto x h0 h1) k

/-- An odd number of terms is above it. -/
theorem le_arctanSum (x : Rat) (h0 : 0 ≤ x) (h1 : x < 1) (k : Nat) :
    Real.arctan x ≤ (arctanSum x (2 * k + 1) : ℝ) := by
  rw [arctanSum_cast]
  exact (arctanTerm_antitone x h0 h1).tendsto_le_alternating_series (arctan_tendsto x h0 h1) k

theorem piLo_le_machin : piLo < 4 * (4 * arctanSum (1 / 5) 114 - arctanSum (1 / 239) 35) := by decide +kernel

theorem machin_le_piHi : 4 * (4 * arctanSum (1 / 5) 115 - arctanSum (1 / 239) 34) < piHi := by decide +kernel

theorem machin : Real.pi = 4 * (4 * Real.arctan ((1 / 5 : Rat) : ℝ) - Real.arctan ((1 / 239 : Rat) : ℝ)) := by
  have := Real.four_mul_arctan_inv_5_sub_arctan_inv_239
  push_cast
  rw [one_div, one_div]
  linarith

/-- The lower end of the enclosure of π. -/
theorem piLo_lt_pi : (piLo : ℝ) < Real.pi := by
  have h1 := arctanSum_le (1 / 5) (by norm_num) (by norm_num) 57
  have h2 := le_arctanSum (1 / 239) (by norm_num) (by norm_num) 17
  have h3 : (piLo : ℝ) < ((4 * (4 * arctanSum (1 / 5) 114 - arctanSum (1 / 239) 35) : Rat) : ℝ) := by
    exact_mod_cast piLo_le_machin
  rw [machin]
  push_cast at h3 h1 h2 ⊢
  linarith

/-- The upper end of the enclosure of π. -/
theorem pi_lt_piHi : Real.pi < (piHi : ℝ) := by
  have h1 := le_arctanSum (1 / 5) (by norm_num) (by norm_num) 57
  have h2 := arctanSum_le (1 / 239) (by norm_num) (by norm_num) 17
  have h3 : ((4 * (4 * arctanSum (1 / 5) 115 - arctanSum (1 / 239) 34) : Rat) : ℝ) < piHi := by
    exact_mod_cast machin_le_piHi
  rw [machin]
  push_cast at h3 h1 h2 ⊢
  linarith

theorem piLo_pos : 0 < piLo := by decide +kernel

theorem piHi_pos : 0 < piHi := by decide +kernel

end Sys2Proof.Machine
end

