-- ==== Sys2Proof/Laws/Table.lean ====
section
/-! SUPPORT. The sine table's enclosures contain the sines (spec/40_trig.md R100), and the enclosures of `TSIN` and of
the wrapped angle contain the reals of R102 and 41_angle.md R120. -/

namespace Sys2Proof.Machine

open Reference

theorem unit_pos : (0 : ℝ) < (unit : ℤ) := by
  rw [show unit = 2 ^ precision from rfl]; push_cast; positivity

theorem unit_pos_int : (0 : Int) < unit := by decide +kernel

/-- The real `x` lies in the fixed-point enclosure. -/
def Fixed.Contains (f : Fixed) (x : ℝ) : Prop := (f.lo : ℝ) ≤ x * (unit : ℤ) ∧ x * (unit : ℤ) ≤ f.hi

theorem Fixed.exact_contains (n : Int) : (Fixed.exact n).Contains n := by
  constructor <;> simp [Fixed.exact]

theorem Fixed.add_contains {f g : Fixed} {x y : ℝ} (hx : f.Contains x) (hy : g.Contains y) :
    (f.add g).Contains (x + y) := by
  constructor <;> simp only [Fixed.add] <;> push_cast <;> rw [add_mul]
  · exact add_le_add hx.1 hy.1
  · exact add_le_add hx.2 hy.2

theorem Fixed.sub_contains {f g : Fixed} {x y : ℝ} (hx : f.Contains x) (hy : g.Contains y) :
    (f.sub g).Contains (x - y) := by
  constructor <;> simp only [Fixed.sub] <;> push_cast <;> rw [sub_mul]
  · exact sub_le_sub hx.1 hy.2
  · exact sub_le_sub hx.2 hy.1

/-- A product of two reals lies between the least and the greatest product of the ends of their intervals. -/
theorem mul_mem_corners {a b c d x y : ℝ} (h1 : a ≤ x) (h2 : x ≤ b) (h3 : c ≤ y) (h4 : y ≤ d) :
    min (min (a * c) (a * d)) (min (b * c) (b * d)) ≤ x * y ∧
      x * y ≤ max (max (a * c) (a * d)) (max (b * c) (b * d)) := by
  have hx : ∀ z, min (a * z) (b * z) ≤ x * z ∧ x * z ≤ max (a * z) (b * z) := fun z => by
    rcases le_total 0 z with hz | hz
    · exact ⟨(min_le_left _ _).trans (mul_le_mul_of_nonneg_right h1 hz),
        (mul_le_mul_of_nonneg_right h2 hz).trans (le_max_right _ _)⟩
    · exact ⟨(min_le_right _ _).trans (mul_le_mul_of_nonpos_right h2 hz),
        (mul_le_mul_of_nonpos_right h1 hz).trans (le_max_left _ _)⟩
  have hy : min (x * c) (x * d) ≤ x * y ∧ x * y ≤ max (x * c) (x * d) := by
    rcases le_total 0 x with hx0 | hx0
    · exact ⟨(min_le_left _ _).trans (mul_le_mul_of_nonneg_left h3 hx0),
        (mul_le_mul_of_nonneg_left h4 hx0).trans (le_max_right _ _)⟩
    · exact ⟨(min_le_right _ _).trans (mul_le_mul_of_nonpos_left h4 hx0),
        (mul_le_mul_of_nonpos_left h3 hx0).trans (le_max_left _ _)⟩
  constructor
  · refine le_trans (le_min ?_ ?_) hy.1
    · refine le_trans (le_min ?_ ?_) (hx c).1
      · exact (min_le_left _ _).trans (min_le_left _ _)
      · exact (min_le_right _ _).trans (min_le_left _ _)
    · refine le_trans (le_min ?_ ?_) (hx d).1
      · exact (min_le_left _ _).trans (min_le_right _ _)
      · exact (min_le_right _ _).trans (min_le_right _ _)
  · refine hy.2.trans (max_le ?_ ?_)
    · refine (hx c).2.trans (max_le ?_ ?_)
      · exact (le_max_left _ _).trans (le_max_left _ _)
      · exact (le_max_left _ _).trans (le_max_right _ _)
    · refine (hx d).2.trans (max_le ?_ ?_)
      · exact (le_max_right _ _).trans (le_max_left _ _)
      · exact (le_max_right _ _).trans (le_max_right _ _)

theorem ediv_le_real (a : Int) : ((a / unit : Int) : ℝ) * (unit : ℤ) ≤ a := by
  have : a / unit * unit ≤ a := Int.ediv_mul_le a unit_pos_int.ne'
  exact_mod_cast this

theorem Fixed.mul_contains {f g : Fixed} {x y : ℝ} (hx : f.Contains x) (hy : g.Contains y) :
    (f.mul g).Contains (x * y) := by
  have hu := unit_pos
  obtain ⟨c1, c2⟩ := mul_mem_corners hx.1 hx.2 hy.1 hy.2
  have e : x * (unit : ℤ) * (y * (unit : ℤ)) = x * y * (unit : ℤ) * (unit : ℤ) := by ring
  rw [e] at c1 c2
  constructor
  · have h := ediv_le_real (min (min (f.lo * g.lo) (f.lo * g.hi)) (min (f.hi * g.lo) (f.hi * g.hi)))
    refine le_of_mul_le_mul_right (h.trans ?_) hu
    push_cast
    exact c1
  · have h := ediv_le_real (-max (max (f.lo * g.lo) (f.lo * g.hi)) (max (f.hi * g.lo) (f.hi * g.hi)))
    refine le_of_mul_le_mul_right (le_trans ?_ (neg_le_neg h |>.trans_eq ?_)) hu
    · push_cast
      rw [neg_neg]
      exact c2
    · simp only [Fixed.mul]
      push_cast
      ring

theorem Fixed.toIval_contains {f : Fixed} {x : ℝ} (hx : f.Contains x) : f.toIval.Contains x := by
  have hu := unit_pos
  constructor <;> simp only [Fixed.toIval] <;> push_cast
  · rw [div_le_iff₀ hu]; exact hx.1
  · rw [le_div_iff₀ hu]; exact hx.2

theorem sqrtLo_sq_le (n : Nat) : sqrtLo n * sqrtLo n ≤ n := by
  unfold sqrtLo; simp only []; split_ifs with h
  · exact h
  · omega

theorem le_sqrtHi_sq (n : Nat) : n ≤ sqrtHi n * sqrtHi n := by
  unfold sqrtHi; simp only []; split_ifs with h
  · exact h
  · nlinarith

theorem sqrtLo_le (n : Nat) {x : ℝ} (hx : 0 ≤ x) (h : (n : ℝ) ≤ x * x) : (sqrtLo n : ℝ) ≤ x := by
  have h1 : ((sqrtLo n * sqrtLo n : Nat) : ℝ) ≤ x * x := le_trans (by exact_mod_cast sqrtLo_sq_le n) h
  push_cast at h1
  exact le_of_mul_self_le_mul_self' hx h1
where
  le_of_mul_self_le_mul_self' {a b : ℝ} (hb : 0 ≤ b) (h : a * a ≤ b * b) : a ≤ b := by
    by_contra hc
    rw [not_le] at hc
    nlinarith

theorem le_sqrtHi (n : Nat) {x : ℝ} (h : x * x ≤ n) : x ≤ (sqrtHi n : ℝ) := by
  have h1 : x * x ≤ ((sqrtHi n * sqrtHi n : Nat) : ℝ) := h.trans (by exact_mod_cast le_sqrtHi_sq n)
  push_cast at h1
  by_contra hc
  rw [not_le] at hc
  have : (0 : ℝ) ≤ sqrtHi n := Nat.cast_nonneg _
  nlinarith

/-- `halfRoot` encloses `√((1 + c) / 2)`. -/
theorem halfRoot_contains {f : Fixed} {c r : ℝ} (hf : f.Contains c) (hr : 0 ≤ r) (h : r * r = (1 + c) / 2) :
    (halfRoot f).Contains r := by
  have hu := unit_pos
  have e : (r * (unit : ℤ)) * (r * (unit : ℤ)) = ((unit : ℤ) + c * (unit : ℤ)) * (unit : ℤ) / 2 := by
    have : (r * (unit : ℤ)) * (r * (unit : ℤ)) = (r * r) * ((unit : ℤ) * (unit : ℤ)) := by ring
    rw [this, h]; ring
  have hr' : 0 ≤ r * (unit : ℤ) := mul_nonneg hr hu.le
  constructor
  · simp only [halfRoot]
    rw [Int.cast_natCast]
    apply sqrtLo_le _ hr'
    rw [e]
    by_cases h0 : 0 ≤ (unit + f.lo) * unit / 2
    · have h1 : (((((unit + f.lo) * unit / 2).toNat : Nat) : Int) : ℝ) ≤ ((unit : ℤ) + (f.lo : ℝ)) * (unit : ℤ) / 2 := by
        rw [Int.toNat_of_nonneg h0, le_div_iff₀ (by norm_num)]
        have : (unit + f.lo) * unit / 2 * 2 ≤ (unit + f.lo) * unit := Int.ediv_mul_le _ (by norm_num)
        exact_mod_cast this
      rw [Int.cast_natCast] at h1
      refine h1.trans ?_
      have := hf.1
      gcongr
    · rw [Int.toNat_of_nonpos (not_le.1 h0).le, Nat.cast_zero]
      rw [← e]; positivity
  · simp only [halfRoot]
    rw [Int.cast_natCast]
    apply le_sqrtHi
    rw [e]
    have h1 : ((unit : ℤ) + (f.hi : ℝ)) * (unit : ℤ) / 2 ≤ (((((unit + f.hi) * unit / 2 + 1).toNat : Nat) : Int) : ℝ) := by
      have h2 : (unit + f.hi) * unit / 2 + 1 ≤ (((unit + f.hi) * unit / 2 + 1).toNat : Int) := Int.self_le_toNat _
      have h3 : (unit + f.hi) * unit ≤ ((unit + f.hi) * unit / 2 + 1) * 2 := by omega
      have h4 : (((unit + f.hi) * unit : Int) : ℝ) ≤ ((((unit + f.hi) * unit / 2 + 1) * 2 : Int) : ℝ) := by exact_mod_cast h3
      have h5 : (((unit + f.hi) * unit / 2 + 1 : Int) : ℝ) ≤ ((((unit + f.hi) * unit / 2 + 1).toNat : Int) : ℝ) := by
        exact_mod_cast h2
      rw [div_le_iff₀ (by norm_num)]
      push_cast at h4 h5 ⊢
      linarith
    rw [Int.cast_natCast] at h1
    refine le_trans ?_ h1
    have := hf.2
    gcongr

/-- A pair of enclosures contains the cosine and the sine of an angle. -/
def ContainsAngle (f : Fixed × Fixed) (θ : ℝ) : Prop := f.1.Contains (Real.cos θ) ∧ f.2.Contains (Real.sin θ)

theorem halfAngle_contains {f : Fixed} {θ : ℝ} (h0 : 0 ≤ θ) (h1 : θ ≤ Real.pi) (hf : f.Contains (Real.cos θ)) :
    ContainsAngle (halfAngle f) (θ / 2) := by
  have hpi := Real.pi_pos
  constructor
  · refine halfRoot_contains hf (Real.cos_nonneg_of_mem_Icc ⟨by linarith, by linarith⟩) ?_
    have := Real.cos_sq (θ / 2)
    rw [show 2 * (θ / 2) = θ by ring] at this
    rw [← sq, this]; ring
  · refine halfRoot_contains (c := -Real.cos θ) ?_ (Real.sin_nonneg_of_nonneg_of_le_pi (by linarith) (by linarith)) ?_
    · have := Fixed.sub_contains (Fixed.exact_contains 0) hf
      simpa using this
    · have := Real.cos_sq (θ / 2)
      rw [show 2 * (θ / 2) = θ by ring] at this
      have h2 := Real.sin_sq_add_cos_sq (θ / 2)
      rw [← sq]; linarith

theorem rotate_contains {f g : Fixed × Fixed} {θ φ : ℝ} (hf : ContainsAngle f θ) (hg : ContainsAngle g φ) :
    ContainsAngle (rotate f g) (θ + φ) := by
  constructor
  · rw [Real.cos_add]
    exact Fixed.sub_contains (Fixed.mul_contains hf.1 hg.1) (Fixed.mul_contains hf.2 hg.2)
  · rw [Real.sin_add, add_comm]
    exact Fixed.add_contains (Fixed.mul_contains hf.1 hg.2) (Fixed.mul_contains hf.2 hg.1)

/-- The loop adds the angle of the `t` low bits of `i`, each bit in its place: `step` is the angle of bit `t - 1`. -/
theorem sineLoop_contains (i t : Nat) (step acc : Fixed × Fixed) (φ θ : ℝ) (h0 : 0 ≤ φ) (h1 : φ ≤ Real.pi)
    (hs : ContainsAngle step φ) (ha : ContainsAngle acc θ) :
    ContainsAngle (sineLoop i t step acc) (θ + φ * 2 * ((i % 2 ^ t : Nat) : ℝ) / 2 ^ t) := by
  induction t generalizing step acc φ θ with
  | zero => simpa [sineLoop, Nat.mod_one] using ha
  | succ t ih =>
    simp only [sineLoop]
    have hmod : i % 2 ^ (t + 1) = i % 2 ^ t + 2 ^ t * (i / 2 ^ t % 2) := by
      rw [pow_succ, Nat.mod_mul]
    have hstep := halfAngle_contains h0 h1 hs.1
    have hbit : i.testBit t = decide (i / 2 ^ t % 2 = 1) := Nat.testBit_eq_decide_div_mod_eq
    by_cases hb : i / 2 ^ t % 2 = 1
    · rw [hbit, decide_eq_true hb, if_pos rfl]
      have := ih (halfAngle step.1) (rotate acc step) (φ / 2) (θ + φ) (by linarith) (by linarith) hstep
        (rotate_contains ha hs)
      convert this using 1
      rw [hmod, hb]
      push_cast
      rw [pow_succ]
      field_simp
      ring
    · rw [hbit, decide_eq_false hb, if_neg (by simp)]
      have := ih (halfAngle step.1) acc (φ / 2) θ (by linarith) (by linarith) hstep ha
      convert this using 1
      have hb0 : i / 2 ^ t % 2 = 0 := by omega
      rw [hmod, hb0]
      push_cast
      rw [pow_succ]
      field_simp
      ring

theorem quarterTurns_contains (q : Nat) : ContainsAngle (quarterTurns q) (q * (Real.pi / 2)) := by
  have key : ∀ r k : Nat, ((r + 4 * k : Nat) : ℝ) * (Real.pi / 2) = r * (Real.pi / 2) + k * (2 * Real.pi) := by
    intro r k; push_cast; ring
  have hq : q = q % 4 + 4 * (q / 4) := by omega
  unfold quarterTurns ContainsAngle
  rw [hq, key, Real.cos_add_nat_mul_two_pi, Real.sin_add_nat_mul_two_pi]
  have hlt : q % 4 < 4 := Nat.mod_lt _ (by norm_num)
  have hmod : (q % 4 + 4 * (q / 4)) % 4 = q % 4 := by omega
  rw [hmod]
  generalize q % 4 = r at hlt
  have h1 := Fixed.exact_contains 1
  have h0 := Fixed.exact_contains 0
  have hm := Fixed.exact_contains (-1)
  push_cast at h1 h0 hm
  interval_cases r
  · simpa using ⟨h1, h0⟩
  · simpa using ⟨h0, h1⟩
  · rw [show ((2 : Nat) : ℝ) * (Real.pi / 2) = Real.pi by push_cast; ring]
    simpa using ⟨hm, h0⟩
  · rw [show ((3 : Nat) : ℝ) * (Real.pi / 2) = Real.pi / 2 + Real.pi by push_cast; ring, Real.cos_add_pi,
      Real.sin_add_pi]
    simpa using ⟨h0, hm⟩

/-- The table's enclosures contain the cosine and sine of `2πi / N`. -/
theorem cosSin_contains (logN i : Nat) (h : 2 ≤ logN) :
    ContainsAngle (cosSin logN i) (2 * Real.pi * i / (2 ^ logN : Nat)) := by
  have hpi := Real.pi_pos
  obtain ⟨t, rfl⟩ := Nat.exists_eq_add_of_le h
  unfold cosSin
  rw [show 2 + t - 2 = t by omega]
  have hz : (Fixed.exact 0).Contains (Real.cos (Real.pi / 2)) := by
    rw [Real.cos_pi_div_two]; simpa using Fixed.exact_contains 0
  have hs := halfAngle_contains (by linarith) (by linarith) hz
  have := sineLoop_contains i t _ _ _ _ (by linarith) (by linarith) hs (quarterTurns_contains (i / 2 ^ t))
  convert this using 1
  have hi : (i : ℝ) = ((i / 2 ^ t : Nat) : ℝ) * 2 ^ t + ((i % 2 ^ t : Nat) : ℝ) := by
    have := Nat.div_add_mod i (2 ^ t)
    have h2 : ((2 ^ t * (i / 2 ^ t) + i % 2 ^ t : Nat) : ℝ) = i := by exact_mod_cast this
    rw [← h2]; push_cast; ring
  have h2 : ((2 ^ (2 + t) : Nat) : ℝ) = 4 * 2 ^ t := by push_cast; ring
  rw [h2]
  nth_rewrite 1 [hi]
  field_simp
  ring

theorem tableSize_pos (cfg : Config) : 0 < tableSize cfg := by unfold tableSize; positivity

/-- `LUT[i]`'s enclosure contains the table's entry, for `0 <= i <= N` (R57, R100, R101). -/
theorem lut_contains (cfg : Config) (h : 2 ≤ cfg.logN) (i : Nat) (hi : i ≤ tableSize cfg) {y : Ival}
    (hy : Machine.lut cfg i = some y) : y.Contains (Reference.lut cfg i) := by
  unfold Machine.lut at hy
  unfold Reference.lut
  cases hr : cfg.rom with
  | stored entries =>
    rw [hr] at hy
    simp only [] at hy ⊢
    split at hy
    · rename_i q hq
      obtain rfl := Option.some.inj hy
      rw [hq]
      exact Ival.point_contains _
    · cases hy
  | reference =>
    rw [hr] at hy
    obtain rfl := Option.some.inj hy
    simp only []
    have hc := fun j => Fixed.toIval_contains (cosSin_contains cfg.logN j h).2
    split_ifs with he
    · rw [he, Nat.mod_self]
      simpa using hc 0
    · rw [Nat.mod_eq_of_lt (by omega)]
      exact hc i

theorem turns_contains (x : Rat) : (turns x).Contains ((x : ℝ) / (2 * Real.pi)) := by
  have h1 := piLo_lt_pi
  have h2 := pi_lt_piHi
  have h3 : (0 : ℝ) < piLo := by exact_mod_cast piLo_pos
  have hpi := Real.pi_pos
  unfold turns
  split_ifs with h
  · have hx : (0 : ℝ) ≤ x := by exact_mod_cast h
    constructor <;> simp only [] <;> push_cast
    · exact div_le_div_of_nonneg_left hx (by linarith) (by linarith)
    · exact div_le_div_of_nonneg_left hx (by linarith) (by linarith)
  · have hx : (x : ℝ) ≤ 0 := by exact_mod_cast (not_le.1 h).le
    constructor <;> simp only [] <;> push_cast
    · rw [div_le_div_iff₀ (by linarith) (by linarith)]; nlinarith
    · rw [div_le_div_iff₀ (by linarith) (by linarith)]; nlinarith

/-- Where the ends of an enclosure have one floor, that is the real's floor. -/
theorem floor_of_contains {i : Ival} {x : ℝ} (hx : i.Contains x) (h : i.hi.floor = i.lo.floor) : ⌊x⌋ = i.lo.floor := by
  rw [Int.floor_eq_iff]
  constructor
  · refine le_trans ?_ hx.1
    have : ((i.lo.floor : Int) : Rat) ≤ i.lo := Rat.floor_le _
    exact_mod_cast this
  · refine lt_of_le_of_lt hx.2 ?_
    have : i.hi < ((i.hi.floor : Int) : Rat) + 1 := by
      have := Rat.lt_floor_add_one i.hi
      push_cast at this
      exact this
    rw [h] at this
    exact_mod_cast this

/-- The index of the quarter-period shift: `(k + N/4) mod N` (R106). -/
theorem shifted_index (k : ℤ) (n : Nat) (hn : 0 < n) :
    ((k + (n / 4 : ℕ)) % (n : ℤ)).toNat = ((k % (n : ℤ)).toNat + n / 4) % n := by
  have h0 : 0 ≤ k % (n : ℤ) := Int.emod_nonneg _ (by omega)
  have h1 : (((k % (n : ℤ)).toNat : Nat) : ℤ) = k % (n : ℤ) := Int.toNat_of_nonneg h0
  apply Int.ofNat_inj.1
  rw [Int.toNat_of_nonneg (Int.emod_nonneg _ (by omega))]
  push_cast
  rw [h1, Int.emod_add_emod]

/-- The enclosure of `a * TSIN(s) + b * TSIN(s + N/4)` contains it (R102, R106). -/
theorem tableSum_contains (cfg : Config) (h : 2 ≤ cfg.logN) (x a b : Rat) {i : Ival} (hi : tableSum cfg x a b = some i) :
    i.Contains (a * tsin cfg (indexSpace cfg x) + b * tsin cfg (indexSpace cfg x + (tableSize cfg / 4 : ℕ))) := by
  have hn := tableSize_pos cfg
  have hs : ((turns x).scale (tableSize cfg)).Contains (indexSpace cfg x) := by
    have := Ival.scale_contains (tableSize cfg : Rat) (turns_contains x)
    convert this using 1
    unfold indexSpace; push_cast; ring
  unfold tableSum at hi
  simp only [] at hi
  generalize hS : (turns x).scale (tableSize cfg : Rat) = S at hi hs
  split_ifs at hi with hk
  have hfl := floor_of_contains hs hk
  generalize hS2 : indexSpace cfg (x : ℝ) = s at hs hfl
  set k := S.lo.floor with hkdef
  have hf : (Ival.mk (S.lo - k) (S.hi - k)).Contains (s - k) := by
    constructor <;> simp only [] <;> push_cast
    · linarith [hs.1]
    · linarith [hs.2]
  have hf0 : 0 ≤ (Ival.mk (S.lo - k) (S.hi - k)).lo := by
    simp only [sub_nonneg]
    exact Rat.floor_le _
  have hi0 : (k % (tableSize cfg : ℤ)).toNat < tableSize cfg := by
    have := Int.emod_lt_of_pos k (show (0 : ℤ) < tableSize cfg by exact_mod_cast hn)
    have := Int.emod_nonneg k (show (tableSize cfg : ℤ) ≠ 0 by omega)
    omega
  have e1 : tsin cfg s = Reference.lut cfg (k % (tableSize cfg : ℤ)).toNat +
      (s - k) * (Reference.lut cfg ((k % (tableSize cfg : ℤ)).toNat + 1) - Reference.lut cfg (k % (tableSize cfg : ℤ)).toNat) := by
    unfold tsin; simp only []; rw [hfl]; ring
  have e2 : tsin cfg (s + (tableSize cfg / 4 : ℕ)) =
      Reference.lut cfg (((k % (tableSize cfg : ℤ)).toNat + tableSize cfg / 4) % tableSize cfg) +
      (s - k) * (Reference.lut cfg (((k % (tableSize cfg : ℤ)).toNat + tableSize cfg / 4) % tableSize cfg + 1) -
        Reference.lut cfg (((k % (tableSize cfg : ℤ)).toNat + tableSize cfg / 4) % tableSize cfg)) := by
    unfold tsin; simp only []
    rw [Int.floor_add_natCast, hfl, shifted_index _ _ hn]
    simp only [Int.cast_add, Int.cast_natCast]
    ring
  rw [e1, e2]
  have hj0 := Nat.mod_lt ((k % (tableSize cfg : ℤ)).toNat + tableSize cfg / 4) hn
  generalize (k % (tableSize cfg : ℤ)).toNat = m at hi hi0 hj0
  generalize (m + tableSize cfg / 4) % tableSize cfg = j at hi hj0
  split at hi
  case h_2 => cases hi
  rename_i y y' z z' e1 e2 e3 e4
  obtain rfl := Option.some.inj hi
  have L1 := lut_contains cfg h m hi0.le e1
  have L2 := lut_contains cfg h (m + 1) hi0 e2
  have L3 := lut_contains cfg h j hj0.le e3
  have L4 := lut_contains cfg h (j + 1) hj0 e4
  have A := Ival.add_contains (Ival.scale_contains a L1) (Ival.scale_contains b L3)
  have B := Ival.add_contains (Ival.scale_contains a (Ival.sub_contains L2 L1))
    (Ival.scale_contains b (Ival.sub_contains L4 L3))
  have R := Ival.add_contains A (Ival.mulNonneg_contains hf0 hf B)
  convert R using 1
  ring

/-- The enclosure of the wrapped angle contains it (R120). -/
theorem wrapped_contains (θ : Rat) {i : Ival} (hi : wrapped θ = some i) : i.Contains (normalized θ) := by
  unfold wrapped at hi
  simp only [] at hi
  split_ifs at hi with hm
  obtain rfl := Option.some.inj hi
  have hfl := floor_of_contains (turns_contains θ) hm
  unfold normalized
  rw [hfl]
  have hp : (Ival.mk piLo piHi).Contains Real.pi := ⟨piLo_lt_pi.le, pi_lt_piHi.le⟩
  have := Ival.sub_contains (Ival.point_contains θ) (Ival.scale_contains (2 * ((turns θ).lo.floor : Rat)) hp)
  convert this using 1
  push_cast
  ring

end Sys2Proof.Machine
end

