-- ==== Sys2Proof/Laws/Results.lean ====
section
/-! SUPPORT. The delivered words: `ENC` names one word, what a delivery gives in the exact model, and the bound `2π` on
binary32 values. -/

namespace Sys2Proof.Machine

open Reference

/-! ### `ENC` names one word (spec/30_encoding.md R77) -/

/-- The low bit of a word is the parity of its sign-free part. -/
theorem getLsbD_zero (w : Word) : w.getLsbD 0 = decide (magOf w % 2 = 1) := by
  rw [BitVec.getLsbD, Nat.testBit_eq_decide_div_mod_eq]
  unfold magOf
  simp only [pow_zero, Nat.div_one, decide_eq_decide]
  omega

/-- A finite word's value with its sign bit. -/
theorem decodeReal_sign {w : Word} {v : Rat} (h : decodeReal w = some v) :
    v = if w.getLsbD 31 then -magValue (magOf w) else magValue (magOf w) := by
  unfold decodeReal at h
  split_ifs at h with hf <;> simp_all

/-- Two finite words of one value that is not 0 are one word. -/
theorem decodeReal_inj {w w' : Word} {v : Rat} (h : decodeReal w = some v) (h' : decodeReal w' = some v) (hv : v ≠ 0) :
    w = w' := by
  have e := decodeReal_sign h
  have e' := decodeReal_sign h'
  have p := magValue_nonneg (magOf w)
  have p' := magValue_nonneg (magOf w')
  have key : magOf w = magOf w' ∧ w.getLsbD 31 = w'.getLsbD 31 := by
    cases hs : w.getLsbD 31 <;> cases hs' : w'.getLsbD 31 <;> simp only [hs, hs', if_true, if_false, Bool.false_eq_true] at e e'
    · exact ⟨magValue_strictMono.injective (e.symm.trans e'), rfl⟩
    · exact absurd (by linarith : v = 0) hv
    · exact absurd (by linarith : v = 0) hv
    · exact ⟨magValue_strictMono.injective (by linarith), rfl⟩
  obtain ⟨k1, k2⟩ := key
  apply BitVec.eq_of_toNat_eq
  rw [BitVec.getLsbD, BitVec.getLsbD, Nat.testBit_eq_decide_div_mod_eq, Nat.testBit_eq_decide_div_mod_eq,
    decide_eq_decide] at k2
  unfold magOf at k1
  have := w.isLt
  have := w'.isLt
  omega

/-- Between two finite words whose sign-free parts are even lies a third, where the lower is not `-0`. -/
theorem exists_between {w w' : Word} {v v' : Rat} (h : decodeReal w = some v) (h' : decodeReal w' = some v')
    (hz : v = 0 → w = 0) (he : magOf w % 2 = 0) (he' : magOf w' % 2 = 0) (hlt : v < v') :
    ∃ u x, decodeReal u = some x ∧ v < x ∧ x < v' := by
  have e := decodeReal_sign h
  have e' := decodeReal_sign h'
  have p := magValue_nonneg (magOf w)
  have p' := magValue_nonneg (magOf w')
  have b := (decodeReal_eq_some h).1
  have b' := (decodeReal_eq_some h').1
  have mono := @magValue_strictMono
  rcases lt_trichotomy v 0 with hv | hv | hv
  · rcases lt_or_ge 0 v' with hv' | hv'
    · exact ⟨0, 0, by decide +kernel, hv, hv'⟩
    · have e1 : v = -magValue (magOf w) := by
        cases hs : w.getLsbD 31 <;> simp only [hs, if_true, if_false, Bool.false_eq_true] at e <;> linarith
      have e2 : v' = -magValue (magOf w') := by
        cases hs : w'.getLsbD 31 <;> simp only [hs, if_true, if_false, Bool.false_eq_true] at e' <;> linarith
      have hm : magOf w' < magOf w := mono.lt_iff_lt.1 (by linarith)
      refine ⟨_, _, decodeReal_joinSign true (magOf w - 1) (by omega), ?_, ?_⟩
      · simp only [if_true]; rw [e1, neg_lt_neg_iff]; exact mono (by omega)
      · simp only [if_true]; rw [e2, neg_lt_neg_iff]; exact mono (by omega)
  · have hw : magOf w = 0 := by rw [hz hv]; decide
    have e2 : v' = magValue (magOf w') := by
      cases hs : w'.getLsbD 31 <;> simp only [hs, if_true, if_false, Bool.false_eq_true] at e' <;> linarith
    have hm : 0 < magOf w' := mono.lt_iff_lt.1 (by rw [magValue_zero]; linarith)
    refine ⟨_, _, decodeReal_joinSign false (magOf w' - 1) (by omega), ?_, ?_⟩
    · simp only [Bool.false_eq_true, if_false]; rw [hv, ← magValue_zero]; exact mono (by omega)
    · simp only [Bool.false_eq_true, if_false]; rw [e2]; exact mono (by omega)
  · have e1 : v = magValue (magOf w) := by
      cases hs : w.getLsbD 31 <;> simp only [hs, if_true, if_false, Bool.false_eq_true] at e <;> linarith
    have e2 : v' = magValue (magOf w') := by
      cases hs : w'.getLsbD 31 <;> simp only [hs, if_true, if_false, Bool.false_eq_true] at e' <;> linarith
    have hm : magOf w < magOf w' := mono.lt_iff_lt.1 (by linarith)
    refine ⟨_, _, decodeReal_joinSign false (magOf w + 1) (by omega), ?_, ?_⟩
    · simp only [Bool.false_eq_true, if_false]; rw [e1]; exact mono (by omega)
    · simp only [Bool.false_eq_true, if_false]; rw [e2]; exact mono (by omega)

/-- The nearest word, ties to even, is one (R77). -/
theorem nearestEven_unique {x : ℝ} {w w' : Word} (h : NearestEven x w) (h' : NearestEven x w') : w = w' := by
  obtain ⟨v, hv, hz, hn⟩ := h
  obtain ⟨v', hv', hz', hn'⟩ := h'
  have heq : |(v : ℝ) - x| = |(v' : ℝ) - x| := le_antisymm (hn _ _ hv').1 (hn' _ _ hv).1
  by_cases hvv : v = v'
  · subst hvv
    by_cases h0 : v = 0
    · rw [hz h0, hz' h0]
    · exact decodeReal_inj hv hv' h0
  · exfalso
    have b := (hn _ _ hv').2 heq (Ne.symm hvv)
    have b' := (hn' _ _ hv).2 heq.symm hvv
    rw [getLsbD_zero, decide_eq_false_iff_not] at b b'
    have mid : ∀ (a c u : Rat), |(a : ℝ) - x| = |(c : ℝ) - x| → a < c → a < u → u < c → |(u : ℝ) - x| < |(a : ℝ) - x| := by
      intro a c u h1 h2 h3 h4
      have i2 : (a : ℝ) < c := by exact_mod_cast h2
      have i3 : (a : ℝ) < u := by exact_mod_cast h3
      have i4 : (u : ℝ) < c := by exact_mod_cast h4
      rcases abs_cases ((a : ℝ) - x) with ⟨e1, _⟩ | ⟨e1, _⟩ <;>
        rcases abs_cases ((c : ℝ) - x) with ⟨e2, _⟩ | ⟨e2, _⟩ <;> rw [e1, e2] at h1 <;>
        rw [e1, abs_lt] <;> constructor <;> linarith
    rcases lt_or_gt_of_ne hvv with hl | hl
    · obtain ⟨u, q, hu, h1, h2⟩ := exists_between hv hv' hz (by omega) (by omega) hl
      exact absurd (hn _ _ hu).1 (not_le.2 (mid _ _ _ heq hl h1 h2))
    · obtain ⟨u, q, hu, h1, h2⟩ := exists_between hv' hv hz' (by omega) (by omega) hl
      exact absurd (hn' _ _ hu).1 (not_le.2 (mid _ _ _ heq.symm hl h1 h2))

/-- `ENC` is a function (R77). -/
theorem isEnc_unique {x : ℝ} {r r' : Option Word} (h : IsEnc x r) (h' : IsEnc x r') : r = r' := by
  cases r <;> cases r' <;> simp only [IsEnc] at h h'
  · rfl
  · exact absurd h (not_le.2 h'.1)
  · exact absurd h' (not_le.2 h.1)
  · rw [nearestEven_unique h.2 h'.2]

/-- A real between the values of two finite words has no OVERFLOW, and its word's value lies between them. -/
theorem isEnc_bounds {x : ℝ} {r : Option Word} (h : IsEnc x r) {u v : Word} {a b : Rat} (hu : decodeReal u = some a)
    (hv : decodeReal v = some b) (hax : (a : ℝ) ≤ x) (hxb : x ≤ b) :
    ∃ w y, r = some w ∧ decodeReal w = some y ∧ a ≤ y ∧ y ≤ b := by
  have bound : ∀ (w : Word) (q : Rat), decodeReal w = some q → |(q : ℝ)| < overflowBound := by
    intro w q hq
    obtain ⟨h1, h2⟩ := decodeReal_eq_some hq
    have h3 : magValue (magOf w) < overflowBound :=
      lt_of_le_of_lt (magValue_strictMono.monotone h1) (by decide +kernel)
    have h4 : |q| = magValue (magOf w) := by
      rcases h2 with rfl | rfl
      · exact abs_of_nonneg (magValue_nonneg _)
      · rw [abs_neg]; exact abs_of_nonneg (magValue_nonneg _)
    rw [← h4] at h3
    exact_mod_cast h3
  cases r with
  | none =>
    simp only [IsEnc] at h
    rw [← overflowBound_real] at h
    have h1 := abs_lt.1 (bound _ _ hu)
    have h2 := abs_lt.1 (bound _ _ hv)
    exact absurd h (not_le.2 (abs_lt.2 ⟨by linarith, by linarith⟩))
  | some w =>
    obtain ⟨-, y, hy, -, hn⟩ := h
    have h1 := (hn _ _ hu).1
    have h2 := (hn _ _ hv).1
    refine ⟨w, y, rfl, hy, ?_, ?_⟩
    · by_contra hcon
      have : (y : ℝ) < a := by exact_mod_cast not_le.1 hcon
      rw [abs_of_nonpos (by linarith), abs_of_nonpos (by linarith)] at h1
      linarith
    · by_contra hcon
      have : (b : ℝ) < y := by exact_mod_cast not_le.1 hcon
      rw [abs_of_nonneg (by linarith), abs_of_nonneg (by linarith)] at h2
      linarith

/-- Where the machine decides a result's rounding, it is `ENC` of the exact real (R77). -/
theorem encDecided_isEnc {cfg : Config} (h : 2 ≤ cfg.logN) {e : Exact} {r : Option Word}
    (hd : e.encDecided cfg = some r) : IsEnc (value cfg e) r := by
  cases e with
  | surd x =>
    obtain rfl : x.enc = r := Option.some.inj hd
    exact surd_enc_isEnc x
  | table x a b =>
    obtain ⟨i, hi, h2⟩ := Option.bind_eq_some_iff.1 hd
    exact Ival.enc_isEnc (tableSum_contains cfg h x a b hi) h2
  | wrap θ =>
    obtain ⟨i, hi, h2⟩ := Option.bind_eq_some_iff.1 hd
    exact Ival.enc_isEnc (wrapped_contains θ hi) h2

theorem decodeReal_isSome_iff (w : Word) : (decodeReal w).isSome = true ↔ isFinite w = true := by
  unfold decodeReal; split_ifs <;> simp_all

theorem surd_enc_finite {x : Surd} {w : Word} (h : x.enc = some w) : isFinite w = true := by
  have := surd_enc_isEnc x
  rw [h] at this
  obtain ⟨-, v, hv, -⟩ := this
  exact (decodeReal_isSome_iff w).1 (by rw [hv]; rfl)

theorem encDecided_finite {cfg : Config} {e : Exact} {w : Word} (h : e.encDecided cfg = some (some w)) :
    isFinite w = true := by
  have ival : ∀ i : Ival, i.enc = some (some w) → isFinite w = true := by
    intro i hi
    unfold Ival.enc at hi
    simp only [] at hi
    split_ifs at hi
    exact encRat_finite _ _ (Option.some.inj hi)
  cases e with
  | surd x => exact surd_enc_finite (Option.some.inj h)
  | table x a b => obtain ⟨i, _, h2⟩ := Option.bind_eq_some_iff.1 h; exact ival i h2
  | wrap θ => obtain ⟨i, _, h2⟩ := Option.bind_eq_some_iff.1 h; exact ival i h2

/-- A surd's default `ENC` is the word named for its real. -/
theorem surd_enc_of_isEnc {x : Surd} {y : ℝ} (hxy : surd x = y) {r : Option Word} (h : IsEnc y r) : x.enc = r := by
  subst hxy; exact isEnc_unique (surd_enc_isEnc x) h

/-! ### `ENC` of an instance (00_scope.md R5, 30_encoding.md R77) -/

/-- Every real has a default `ENC`. -/
theorem isEnc_exists (x : ℝ) : ∃ r, IsEnc x r := by
  classical
  have hc : Compares |x| fun q => if |x| < q then .lt else if |x| = q then .eq else .gt := fun q => by
    rcases lt_trichotomy |x| (q : ℝ) with h | h | h
    · simp [h, h.ne, h.not_gt]
    · simp [h]
    · simp [h, h.ne', h.not_gt]
  rcases le_total 0 x with h | h
  · exact ⟨_, isEnc_of_encMag (s := false) hc (abs_nonneg x) (by simp [abs_of_nonneg h])⟩
  · exact ⟨_, isEnc_of_encMag (s := true) hc (abs_nonneg x) (by simp [abs_of_nonpos h])⟩

/-- Every instance's `ENC` is total: some outcome is the rounding's. -/
theorem encodes_exists (enc : Rounding) (x : ℝ) : ∃ r, Encodes enc x r := by
  cases enc with
  | nearestEven => exact isEnc_exists x
  | other k =>
    by_cases h : x = 0
    · exact ⟨some 0, fun _ => rfl, fun h' => absurd h h'⟩
    · exact ⟨_, fun h' => absurd h' h, fun _ => rfl⟩

/-- Every instance's `ENC` is a function. -/
theorem encodes_unique {enc : Rounding} {x : ℝ} {r r' : Option Word} (h : Encodes enc x r) (h' : Encodes enc x r') :
    r = r' := by
  cases enc with
  | nearestEven => exact isEnc_unique h h'
  | other k =>
    by_cases h0 : x = 0
    · rw [h.1 h0, h'.1 h0]
    · rw [h.2 h0, h'.2 h0]

/-- A rounded word is a number (R77). -/
theorem encodes_finite {enc : Rounding} {x : ℝ} {w : Word} (h : Encodes enc x (some w)) : isFinite w = true := by
  cases enc with
  | nearestEven =>
    obtain ⟨-, v, hv, -⟩ := h
    by_contra hf
    rw [decodeReal, if_neg hf] at hv
    cases hv
  | other k =>
    by_cases h0 : x = 0
    · obtain rfl := Option.some.inj (h.1 h0)
      decide
    · have h1 := h.2 h0
      unfold finished at h1
      split_ifs at h1 with hf hm
      · obtain rfl := Option.some.inj h1
        decide
      · obtain rfl := Option.some.inj h1
        exact hf

/-- The machine's rounding of a result is `ENC` of the exact real, in every instance (R8, R77). -/
theorem enc_encodes {cfg : Config} (h : 2 ≤ cfg.logN) (e : Exact) : Encodes cfg.enc (value cfg e) (e.enc cfg) := by
  unfold Exact.enc
  cases hc : cfg.enc with
  | other k => exact suchThat_spec (encodes_exists _ _)
  | nearestEven =>
    cases hd : e.encDecided cfg with
    | none => exact suchThat_spec (encodes_exists _ _)
    | some r => exact encDecided_isEnc h hd

/-- The machine's rounding of a surd needs no condition on the table. -/
theorem enc_encodes_surd (cfg : Config) (x : Surd) : Encodes cfg.enc (surd x) ((Exact.surd x).enc cfg) := by
  unfold Exact.enc
  cases hc : cfg.enc with
  | other k => exact suchThat_spec (encodes_exists _ _)
  | nearestEven => exact surd_enc_isEnc x

/-- A result's rounding is the outcome named for its real. -/
theorem enc_eq_of_encodes {cfg : Config} (h : 2 ≤ cfg.logN) {e : Exact} {r : Option Word} {y : ℝ}
    (hy : value cfg e = y) (hr : Encodes cfg.enc y r) : e.enc cfg = r := by
  subst hy; exact encodes_unique (enc_encodes h e) hr

/-- A surd's rounding is the outcome named for its real. -/
theorem surd_enc_eq_of_encodes {cfg : Config} {x : Surd} {r : Option Word} {y : ℝ} (hy : surd x = y)
    (hr : Encodes cfg.enc y r) : (Exact.surd x).enc cfg = r := by
  subst hy; exact encodes_unique (enc_encodes_surd cfg x) hr

theorem enc_finite {cfg : Config} {e : Exact} {w : Word} (h : e.enc cfg = some w) : isFinite w = true := by
  unfold Exact.enc at h
  cases hc : cfg.enc with
  | other k =>
    rw [hc] at h
    have := suchThat_spec (encodes_exists (.other k) (value cfg e))
    simp only [] at h
    rw [h] at this
    exact encodes_finite this
  | nearestEven =>
    rw [hc] at h
    cases hd : e.encDecided cfg with
    | none =>
      rw [hd] at h
      have := suchThat_spec (encodes_exists .nearestEven (value cfg e))
      simp only [] at h
      rw [h] at this
      exact encodes_finite this
    | some r =>
      rw [hd] at h
      simp only [] at h
      subst h
      exact encDecided_finite hd

/-! ### Results of the table (40_trig.md R105, R106) -/

/-- A quarter period in the angle is `N/4` in index space, since `N/4` is whole (R106). -/
theorem indexSpace_quarter {cfg : Config} (h : 2 ≤ cfg.logN) (x : ℝ) :
    indexSpace cfg (x + Real.pi / 2) = indexSpace cfg x + (tableSize cfg / 4 : ℕ) := by
  obtain ⟨k, hk⟩ := Nat.exists_eq_add_of_le h
  have h4 : tableSize cfg = 4 * 2 ^ k := by unfold tableSize; rw [hk, pow_add]; norm_num
  have h1 : tableSize cfg / 4 = 2 ^ k := by rw [h4]; simp
  unfold indexSpace
  rw [h1, h4]
  push_cast
  have := Real.pi_pos
  field_simp
  ring

/-- A result that involves the table is a combination of the interpolated sine and cosine. -/
theorem value_table {cfg : Config} (h : 2 ≤ cfg.logN) (x a b : Rat) :
    value cfg (.table x a b) = a * sine cfg x + b * cosine cfg x := by
  simp only [value, sine, cosine, indexSpace_quarter h]

/-! ### Nearness (30_encoding.md R78, 41_angle.md R124) -/

theorem nearDecided_iff {cfg : Config} (h : 2 ≤ cfg.logN) {v tol : Rat} {e : Exact} {b : Bool}
    (hb : e.nearDecided cfg v tol = some b) : b = true ↔ |value cfg e - v| ≤ tol := by
  cases e with
  | surd x =>
    obtain rfl := Option.some.inj hb
    exact surd_near_iff x v tol
  | table x a c =>
    obtain ⟨i, hi, h2⟩ := Option.bind_eq_some_iff.1 hb
    exact Ival.near_iff (tableSum_contains cfg h x a c hi) h2
  | wrap θ =>
    obtain ⟨i, hi, h2⟩ := Option.bind_eq_some_iff.1 hb
    exact Ival.near_iff (wrapped_contains θ hi) h2

/-- `near` is the real comparison, in every instance. -/
theorem near_iff {cfg : Config} (h : 2 ≤ cfg.logN) (v : Rat) (tol : RealParam) (e : Exact) :
    e.near cfg v tol = true ↔ |value cfg e - v| ≤ param tol := by
  refine decideBy_iff fun b hb => ?_
  cases tol with
  | rat t => exact nearDecided_iff h hb
  | real k => cases hb

/-- For a surd `near` needs no condition on the table. -/
theorem near_surd_iff (cfg : Config) (v : Rat) (tol : RealParam) (x : Surd) :
    (Exact.surd x).near cfg v tol = true ↔ |surd x - v| ≤ param tol := by
  refine decideBy_iff fun b hb => ?_
  cases tol with
  | rat t =>
    obtain rfl := Option.some.inj hb
    exact surd_near_iff x v t
  | real k => cases hb

/-- An enclosure contains its result. -/
theorem enclosure_contains {cfg : Config} (h : 2 ≤ cfg.logN) {e : Exact} {i : Ival} (hi : e.enclosure cfg = some i) :
    i.Contains (value cfg e) := by
  cases e with
  | surd x => cases hi
  | table x a b => exact tableSum_contains cfg h x a b hi
  | wrap θ => exact wrapped_contains θ hi

/-- `nearAround` is the real comparison round the circle, in every instance (R124). -/
theorem nearAround_iff {cfg : Config} (h : 2 ≤ cfg.logN) (v : Rat) (tol : RealParam) (e : Exact) :
    e.nearAround cfg v tol = true ↔ 2 * Real.pi - |v - value cfg e| ≤ param tol := by
  refine decideBy_iff fun b hb => ?_
  cases tol with
  | real k => cases hb
  | rat t =>
    simp only [Exact.nearAroundDecided] at hb
    split at hb
    · cases hb
    · rename_i i hi
      obtain ⟨c1, c2⟩ := enclosure_contains h hi
      have p1 := piLo_lt_pi
      have p2 := pi_lt_piHi
      simp only [param]
      split_ifs at hb with h1 h2
      · obtain rfl := Option.some.inj hb
        simp only [Bool.or_eq_true, decide_eq_true_eq] at h1
        refine ⟨fun _ => ?_, fun _ => rfl⟩
        rcases h1 with h1 | h1
        · have a : ((2 * piHi - t : Rat) : ℝ) ≤ ((v - i.hi : Rat) : ℝ) := by exact_mod_cast h1
          push_cast at a
          linarith [le_abs_self ((v : ℝ) - value cfg e)]
        · have a : ((2 * piHi - t : Rat) : ℝ) ≤ ((i.lo - v : Rat) : ℝ) := by exact_mod_cast h1
          push_cast at a
          linarith [neg_le_abs ((v : ℝ) - value cfg e)]
      · obtain rfl := Option.some.inj hb
        simp only [Bool.and_eq_true, decide_eq_true_eq] at h2
        have a : ((v - i.lo : Rat) : ℝ) < ((2 * piLo - t : Rat) : ℝ) := by exact_mod_cast h2.1
        have b : ((i.hi - v : Rat) : ℝ) < ((2 * piLo - t : Rat) : ℝ) := by exact_mod_cast h2.2
        push_cast at a b
        refine ⟨fun hf => absurd hf (by simp), fun hle => ?_⟩
        have : |(v : ℝ) - value cfg e| < 2 * Real.pi - t := abs_lt.2 ⟨by linarith, by linarith⟩
        linarith

/-! ### `2π` on binary32 values (41_angle.md R120, R123, 42_clarke_park.md R136) -/

/-- The value of a finite word is below `2π` exactly up to 0x40C90FDA. -/
theorem belowTwoPi_iff_le {w : Word} {v : Rat} (h : decodeReal w = some v) :
    belowTwoPi v = true ↔ v ≤ magValue 0x40C90FDA := by
  have h1 : magValue 0x40C90FDA ≤ 2 * piLo := by decide +kernel
  have h2 : 2 * piLo < magValue 0x40C90FDB := by decide +kernel
  simp only [belowTwoPi, decide_eq_true_eq]
  refine ⟨fun hle => ?_, fun hle => hle.trans h1⟩
  obtain ⟨-, e | e⟩ := decodeReal_eq_some h
  · rw [e] at hle ⊢
    exact magValue_strictMono.monotone (by have := magValue_strictMono.lt_iff_lt.1 (hle.trans_lt h2); omega)
  · rw [e]; linarith [magValue_nonneg (magOf w), magValue_nonneg 0x40C90FDA]

/-- The machine's comparison of a word's value with `2π` is the real one. -/
theorem belowTwoPi_iff {w : Word} {v : Rat} (h : decodeReal w = some v) :
    belowTwoPi v = true ↔ (v : ℝ) < 2 * Real.pi := by
  have h1 : (magValue 0x40C90FDA : ℝ) < 2 * Real.pi := by
    have h3 : magValue 0x40C90FDA ≤ 2 * piLo := by decide +kernel
    have h4 : (magValue 0x40C90FDA : ℝ) ≤ 2 * piLo := by exact_mod_cast h3
    linarith [piLo_lt_pi]
  refine ⟨fun hb => lt_of_le_of_lt (by exact_mod_cast (belowTwoPi_iff_le h).1 hb) h1, fun hlt => ?_⟩
  rw [belowTwoPi, decide_eq_true_eq]
  by_contra hcon
  have h5 : ¬ v ≤ magValue 0x40C90FDA := fun hle => hcon (by
    have := (belowTwoPi_iff_le h).2 hle; simpa [belowTwoPi] using this)
  have h6 : 2 * piHi ≤ magValue 0x40C90FDB := by decide +kernel
  obtain ⟨-, e | e⟩ := decodeReal_eq_some h
  · have h7 : magValue 0x40C90FDB ≤ v := by
      rw [e] at h5 ⊢
      exact magValue_strictMono.monotone (by
        have := magValue_strictMono.lt_iff_lt.1 (not_le.1 h5); omega)
    have h8 : ((2 * piHi : Rat) : ℝ) ≤ v := by exact_mod_cast h6.trans h7
    push_cast at h8
    linarith [pi_lt_piHi]
  · exact h5 (by rw [e]; linarith [magValue_nonneg (magOf w), magValue_nonneg 0x40C90FDA])

/-- The angle check of PARK and IPARK is the real one (R136). -/
theorem angleInRange_iff {s : State} {k : InReg} {θ : Rat} (h : operand s k = some θ) :
    angleInRange θ = true ↔ 0 ≤ (θ : ℝ) ∧ (θ : ℝ) < 2 * Real.pi := by
  unfold angleInRange
  rw [Bool.and_eq_true, decide_eq_true_eq, belowTwoPi_iff h]
  exact and_congr_left fun _ => by norm_num

/-! ### Deliveries (30_encoding.md R78) -/

/-- An instance that draws nothing delivers the exact model's word. -/
theorem deliveredWord_exact (cfg : Config) (cmd : Word) (ops : List Word) {k : Conformance} (hk : k.tolerant = false)
    (j : Nat) (e : Exact) : deliveredWord cfg cmd ops k j e = exactWord cfg (cfg.unstated cmd ops j) k e := by
  unfold deliveredWord
  rw [hk]
  simp only [Bool.false_and, Bool.false_eq_true, if_false]

/-- The exact model's word for a command whose results may overflow is `ENC` of the result. -/
theorem exactWord_plain (cfg : Config) (free : Word) (tol : RealParam) (e : Exact) :
    exactWord cfg free (.plain tol) e = e.enc cfg := by
  unfold exactWord
  simp only [roundedWord]
  cases e.enc cfg <;> rfl

/-- The exact model's word for a bounded result is its `ENC`, where that is a word. -/
theorem exactWord_bounded {cfg : Config} {e : Exact} {w : Word} (h : e.enc cfg = some w) (free : Word) (tol : RealParam)
    (hi : Rat) : exactWord cfg free (.bounded tol hi) e = some w := by
  simp [exactWord, roundedWord, h, Conformance.keeps]

/-- The exact model's word for SIN and COS is `ENC` of the result, where that lies in `[-1, 1]`. -/
theorem exactWord_unitRange {cfg : Config} {e : Exact} {w : Word} (h : e.enc cfg = some w) (free : Word)
    (tol : RealParam) (far : Bool) (hr : (Conformance.unitRange tol far).inRange w = true) :
    exactWord cfg free (.unitRange tol far) e = some w := by
  simp [exactWord, roundedWord, h, Conformance.keeps, hr]

/-- The exact model's word for NORM is `ENC` of the result with R120's last line, where that lies in `[0, 2π)`. -/
theorem exactWord_circle {cfg : Config} {e : Exact} {w : Word} (h : e.enc cfg = some w) (free : Word)
    (tol : RealParam) (hr : (Conformance.circle tol).inRange (clampTwoPi w) = true) :
    exactWord cfg free (.circle tol) e = some (clampTwoPi w) := by
  simp [exactWord, roundedWord, h, Conformance.keeps, hr]

/-- A command with one tolerance of 0 delivers `ENC` of a result that may overflow. -/
theorem deliveredWord_plain (cfg : Config) (cmd : Word) (ops : List Word) {tol : RealParam} (h : tol.isZero = true)
    (j : Nat) (e : Exact) : deliveredWord cfg cmd ops (.plain tol) j e = e.enc cfg := by
  rw [deliveredWord_exact _ _ _ (by simp [Conformance.tolerant, h]), exactWord_plain]

/-- Zero lies in every range. -/
theorem inRange_zero (k : Conformance) : k.inRange 0 = true := by
  have h : decodeReal 0 = some 0 := by decide +kernel
  unfold Conformance.inRange
  rw [h]
  cases k with
  | plain _ => rfl
  | unitRange _ _ => simp
  | circle _ => exact (show (decide ((0 : Rat) ≤ 0) && belowTwoPi 0) = true by decide +kernel)
  | bounded _ hi => simp

/-- Two words of one value are in one range and conform alike. -/
theorem inRange_congr {w u : Word} (h : decodeReal w = decodeReal u) (k : Conformance) : k.inRange w = k.inRange u := by
  unfold Conformance.inRange; rw [h]

theorem conforms_congr {w u : Word} (h : decodeReal w = decodeReal u) (cfg : Config) (k : Conformance) (e : Exact) :
    k.conforms cfg e w = k.conforms cfg e u := by
  unfold Conformance.conforms; rw [h]; simp only [inRange_congr h]

/-- The word that stands in is in the range and not `-0`, and conforms where some word in the range does (log 22). -/
theorem standIn_spec (cfg : Config) (free : Word) (k : Conformance) (e : Exact) :
    k.inRange (k.standIn cfg free e) = true ∧ k.standIn cfg free e ≠ 0x80000000 ∧
      ((∃ u, k.inRange u = true ∧ k.conforms cfg e u = true) → k.conforms cfg e (k.standIn cfg free e) = true) := by
  have adm : ∀ w, k.admissible cfg e w = true ↔ k.inRange w = true ∧ w ≠ 0x80000000 ∧
      ((∃ u, k.inRange u = true ∧ k.conforms cfg e u = true) → k.conforms cfg e w = true) := fun w => by
    unfold Conformance.admissible
    rw [Bool.and_eq_true, Bool.and_eq_true, Bool.or_eq_true, holds_iff, imp_iff_not_or, or_comm, bne_iff_ne, and_assoc]
  rw [← adm]
  unfold Conformance.standIn
  split_ifs with h
  · exact h
  · refine suchThat_spec (P := fun w => k.admissible cfg e w = true) ?_
    by_cases hu : ∃ u, k.inRange u = true ∧ k.conforms cfg e u = true
    · obtain ⟨u, h1, h2⟩ := hu
      by_cases hz : u = 0x80000000
      · have hd : decodeReal 0 = decodeReal u := by subst hz; decide +kernel
        exact ⟨0, (adm 0).2 ⟨inRange_zero k, by decide, fun _ => (conforms_congr hd cfg k e).trans h2⟩⟩
      · exact ⟨u, (adm u).2 ⟨h1, hz, fun _ => h2⟩⟩
    · exact ⟨0, (adm 0).2 ⟨inRange_zero k, by decide, fun h' => absurd h' hu⟩⟩

/-- A word in a range is a number. -/
theorem inRange_finite {k : Conformance} {w : Word} (h : k.inRange w = true) : ∃ v, decodeReal w = some v := by
  unfold Conformance.inRange at h
  split at h
  · cases h
  · exact ⟨_, ‹_›⟩

/-- What the exact model's word is: `ENC` of the result, with R120's last line for NORM, or a word that stands in for it
where it breaks a range the rules promise. -/
theorem exactWord_cases {cfg : Config} {free : Word} {k : Conformance} {e : Exact} {w : Word}
    (h : exactWord cfg free k e = some w) :
    (roundedWord cfg k e = some w ∧ k.keeps w = true) ∨
      ((∀ u, roundedWord cfg k e = some u → k.keeps u = false) ∧ w = k.standIn cfg free e) := by
  unfold exactWord at h
  cases hr : roundedWord cfg k e with
  | none =>
    rw [hr] at h
    simp only [] at h
    split_ifs at h
    exact .inr ⟨fun u hu => absurd hu (by simp), (Option.some.inj h).symm⟩
  | some u =>
    rw [hr] at h
    simp only [Option.some.injEq] at h
    cases hk : k.keeps u
    · rw [hk] at h
      simp only [Bool.false_eq_true, if_false] at h
      exact .inr ⟨fun u' hu => by obtain rfl := Option.some.inj hu; exact hk, h.symm⟩
    · rw [hk, if_pos rfl] at h
      subst h
      exact .inl ⟨rfl, hk⟩

/-- What a delivery that is no OVERFLOW gives: the exact model's word, or a conforming one. -/
theorem deliveredWord_cases {cfg : Config} {cmd : Word} {ops : List Word} {k : Conformance} {j : Nat} {e : Exact} {w : Word}
    (h : deliveredWord cfg cmd ops k j e = some w) :
    exactWord cfg (cfg.unstated cmd ops j) k e = some w ∨ k.tolerant = true ∧ k.conforms cfg e w = true := by
  unfold deliveredWord at h
  split_ifs at h with hc
  · obtain rfl := Option.some.inj h
    rw [Bool.and_eq_true] at hc
    exact .inr hc
  · exact .inl h

/-- A result that R201 says cannot overflow does not. -/
theorem deliveredWord_isSome {k : Conformance} (hk : k.mayOverflow = false) (cfg : Config) (cmd : Word) (ops : List Word)
    (j : Nat) (e : Exact) : ∃ w, deliveredWord cfg cmd ops k j e = some w := by
  unfold deliveredWord exactWord
  rw [hk]
  split
  · exact ⟨_, rfl⟩
  · cases roundedWord cfg k e <;> exact ⟨_, rfl⟩

/-- OVERFLOW comes only of a result whose `ENC` overflows and that may overflow (R77, R201). -/
theorem deliveredWord_none {cfg : Config} {cmd : Word} {ops : List Word} {k : Conformance} {j : Nat} {e : Exact}
    (h : deliveredWord cfg cmd ops k j e = none) : e.enc cfg = none ∧ k.mayOverflow = true := by
  have hm : k.mayOverflow = true := by
    cases hk : k.mayOverflow
    · obtain ⟨w, hw⟩ := deliveredWord_isSome hk cfg cmd ops j e
      rw [hw] at h; cases h
    · rfl
  refine ⟨?_, hm⟩
  unfold deliveredWord at h
  split_ifs at h
  cases k with
  | plain tol => rwa [exactWord_plain] at h
  | _ => cases hm

/-- A conforming word is finite (R78). -/
theorem conforms_finite {cfg : Config} {k : Conformance} {e : Exact} {w : Word} (h : k.conforms cfg e w = true) :
    ∃ v, decodeReal w = some v := by
  unfold Conformance.conforms at h
  split at h
  · cases h
  · exact ⟨_, ‹_›⟩

theorem clampTwoPi_finite {w : Word} (h : isFinite w = true) : isFinite (clampTwoPi w) = true := by
  unfold clampTwoPi
  split
  · exact h
  · split_ifs
    · exact h
    · decide

theorem roundedWord_finite {cfg : Config} {k : Conformance} {e : Exact} {w : Word} (h : roundedWord cfg k e = some w) :
    isFinite w = true := by
  cases k with
  | circle tol =>
    obtain ⟨u, hu, rfl⟩ := Option.map_eq_some_iff.1 h
    exact clampTwoPi_finite (enc_finite hu)
  | _ => exact enc_finite h

/-- "No result is ever NaN or infinite" (R77). -/
theorem deliveredWord_finite {cfg : Config} {cmd : Word} {ops : List Word} {k : Conformance} {j : Nat} {e : Exact}
    {w : Word} (h : deliveredWord cfg cmd ops k j e = some w) : isFinite w = true := by
  rw [← decodeReal_isSome_iff, Option.isSome_iff_exists]
  obtain h | ⟨-, h⟩ := deliveredWord_cases h
  · obtain ⟨h, -⟩ | ⟨-, rfl⟩ := exactWord_cases h
    · exact Option.isSome_iff_exists.1 ((decodeReal_isSome_iff w).2 (roundedWord_finite h))
    · exact inRange_finite (standIn_spec _ _ _ _).1
  · exact conforms_finite h

/-- A SIN, COS or NORM word lies in its range, whatever the table, the tolerance and the rounding (R78, R123). -/
theorem deliveredWord_inRange {cfg : Config} {cmd : Word} {ops : List Word} {k : Conformance} {j : Nat} {e : Exact}
    {w : Word} (hk : ∀ u, k.keeps u = k.inRange u) (hc : ∀ u, k.conforms cfg e u = true → k.inRange u = true)
    (h : deliveredWord cfg cmd ops k j e = some w) : k.inRange w = true := by
  obtain h | ⟨-, h⟩ := deliveredWord_cases h
  · obtain ⟨-, h⟩ | ⟨-, rfl⟩ := exactWord_cases h
    · rwa [← hk]
    · exact (standIn_spec _ _ _ _).1
  · exact hc _ h

/-- Which words conform for SIN and COS, over the reals (R78, R112). -/
theorem conforms_unitRange_iff {cfg : Config} (h : 2 ≤ cfg.logN) {e : Exact} {tol : RealParam} {far : Bool} {w : Word}
    {v : Rat} (hv : decodeReal w = some v) :
    (Conformance.unitRange tol far).conforms cfg e w = true ↔
      (-1 ≤ v ∧ v ≤ 1) ∧ (far = true ∨ |(v : ℝ) - value cfg e| ≤ param tol) := by
  unfold Conformance.conforms Conformance.inRange
  simp only [hv, Bool.and_eq_true, Bool.or_eq_true, decide_eq_true_eq, near_iff h, abs_sub_comm]

/-- Which words conform for NORM, over the reals (R124). -/
theorem conforms_circle_iff {cfg : Config} (h : 2 ≤ cfg.logN) {e : Exact} {tol : RealParam} {w : Word} {v : Rat}
    (hv : decodeReal w = some v) :
    (Conformance.circle tol).conforms cfg e w = true ↔
      (0 ≤ v ∧ (v : ℝ) < 2 * Real.pi) ∧
        min |(v : ℝ) - value cfg e| (2 * Real.pi - |(v : ℝ) - value cfg e|) ≤ param tol := by
  unfold Conformance.conforms Conformance.inRange
  simp only [hv, Bool.and_eq_true, Bool.or_eq_true, decide_eq_true_eq, near_iff h, nearAround_iff h, belowTwoPi_iff hv,
    min_le_iff]
  rw [abs_sub_comm (value cfg e)]

/-- Every word a commit names is finite. -/
theorem outWords_finite {cfg : Config} {cmd : Word} {ops : List Word} {how : OutReg → Conformance} {rs : List (OutReg × Exact)}
    {ws : List (OutReg × Word)} (h : outWords cfg cmd ops how rs = some ws) (r : OutReg) (w : Word) (hm : (r, w) ∈ ws) :
    isFinite w = true := by
  obtain ⟨e, -, he⟩ := (outWords_mem h).2 r w hm
  exact deliveredWord_finite he

/-- A command one of whose results overflows ends with OVERFLOW (R204). -/
theorem deliver_overflow {s : State} {reads : List InReg} {how : OutReg → Conformance} {rs : List (OutReg × Exact)}
    {sec : Option (BitVec 3)} {sat : Option Bool} {r : OutReg} {e : Exact} (hm : (r, e) ∈ rs)
    (hn : deliveredWord s.cfg s.lcmd (operandWords s reads) (how r) (outIndex r) e = none) :
    deliver s reads how rs sec sat = .error .overflow := by
  have : outWords s.cfg s.lcmd (operandWords s reads) how rs = none := by
    induction rs with
    | nil => cases hm
    | cons p rest ih =>
      obtain ⟨r', e'⟩ := p
      simp only [outWords]
      rcases List.mem_cons.1 hm with hm | hm
      · obtain ⟨rfl, rfl⟩ := Prod.mk.inj hm
        rw [hn]
      · rw [ih hm]
        cases deliveredWord s.cfg s.lcmd (operandWords s reads) (how r') (outIndex r') e' <;> rfl
  simp [deliver, this]

/-- A word that stands in conforms, or no word in its range does (log 22). -/
theorem standIn_conforms (cfg : Config) (free : Word) (k : Conformance) (e : Exact) :
    k.conforms cfg e (k.standIn cfg free e) = true ∨ ∀ u, k.inRange u = true → k.conforms cfg e u = false := by
  by_cases h : ∃ u, k.inRange u = true ∧ k.conforms cfg e u = true
  · exact .inl ((standIn_spec cfg free k e).2.2 h)
  · exact .inr fun u hu => Bool.eq_false_iff.2 fun hc => h ⟨u, hu, hc⟩

/-- A delivered word is the rounding that its range keeps, or conforms, or lies in a range in which neither is possible. -/
theorem deliveredWord_ends {cfg : Config} {cmd : Word} {ops : List Word} {k : Conformance} {j : Nat} {e : Exact} {w : Word}
    (h : deliveredWord cfg cmd ops k j e = some w) :
    (roundedWord cfg k e = some w ∧ k.keeps w = true) ∨ k.conforms cfg e w = true ∨
      (∀ u, roundedWord cfg k e = some u → k.keeps u = false) ∧ ∀ u, k.inRange u = true → k.conforms cfg e u = false := by
  obtain h | ⟨-, h⟩ := deliveredWord_cases h
  · obtain h | ⟨hk, rfl⟩ := exactWord_cases h
    · exact .inl h
    · exact .inr ((standIn_conforms _ _ _ _).imp_right fun hn => ⟨hk, hn⟩)
  · exact .inr (.inl h)

/-- A word delivered with a plain conformance (R78). -/
theorem deliveredWord_plain_delivered {cfg : Config} (hn : 2 ≤ cfg.logN) {cmd : Word} {ops : List Word} {tol : RealParam}
    {j : Nat} {e : Exact} {w : Word} (h : deliveredWord cfg cmd ops (.plain tol) j e = some w) (hi : Option Rat) :
    Delivered cfg tol hi (value cfg e) w := by
  obtain h | ⟨-, h⟩ := deliveredWord_cases h
  · rw [exactWord_plain] at h
    exact .inl (h ▸ enc_encodes hn e)
  · obtain ⟨v, hv⟩ := conforms_finite h
    refine .inr ⟨v, hv, .inl ?_⟩
    simp only [Conformance.conforms, hv, near_iff hn] at h
    rwa [abs_sub_comm]

/-- A word delivered with a bounded conformance (R78, R161, R169). -/
theorem deliveredWord_bounded_delivered {cfg : Config} (hn : 2 ≤ cfg.logN) {cmd : Word} {ops : List Word}
    {tol : RealParam} {hi : Rat} {j : Nat} {e : Exact} {w : Word}
    (h : deliveredWord cfg cmd ops (.bounded tol hi) j e = some w) :
    Delivered cfg tol (some hi) (value cfg e) w := by
  obtain ⟨v, hv⟩ := Option.isSome_iff_exists.1 ((decodeReal_isSome_iff w).2 (deliveredWord_finite h))
  have range : ∀ u y, decodeReal u = some y →
      ((Conformance.bounded tol hi).inRange u = true ↔ 0 ≤ y ∧ y ≤ max 0 hi) := fun u y hu => by
    simp only [Conformance.inRange, hu, Bool.and_eq_true, decide_eq_true_eq]
  have near : ∀ u y, decodeReal u = some y →
      ((Conformance.bounded tol hi).conforms cfg e u = true ↔ |(y : ℝ) - value cfg e| ≤ param tol) := fun u y hu => by
    simp only [Conformance.conforms, hu, near_iff hn, abs_sub_comm]
  obtain h | ⟨-, h⟩ := deliveredWord_cases h
  · obtain ⟨hk, -⟩ | ⟨hk, rfl⟩ := exactWord_cases h
    · exact .inl ((show e.enc cfg = some w from hk) ▸ enc_encodes hn e)
    · have hno : e.enc cfg = none := Option.eq_none_iff_forall_ne_some.2 fun u hu =>
        absurd (hk u hu) (by simp [Conformance.keeps])
      refine .inr ⟨v, hv, (standIn_conforms _ _ _ _).imp (near _ _ hv).1 fun hc => ?_⟩
      have hr := (range _ _ hv).1 (standIn_spec _ _ _ _).1
      refine ⟨hi, rfl, hno ▸ enc_encodes hn e, hr.1, hr.2, fun u y hu h0 h1 => ?_⟩
      by_contra hle
      exact absurd ((near _ _ hu).2 (not_lt.1 hle)) (Bool.eq_false_iff.1 (hc u ((range _ _ hu).2 ⟨h0, h1⟩)))
  · exact .inr ⟨v, hv, .inl ((near _ _ hv).1 h)⟩

/-- A word delivered for SIN or COS (R78, R107, R112). -/
theorem deliveredWord_unitRange_delivered {cfg : Config} (hn : 2 ≤ cfg.logN) {cmd : Word} {ops : List Word}
    {tol : RealParam} {far : Bool} {j : Nat} {e : Exact} {w : Word}
    (h : deliveredWord cfg cmd ops (.unitRange tol far) j e = some w) :
    DeliveredUnit cfg tol (far = true) (value cfg e) w := by
  have hr := deliveredWord_inRange (k := .unitRange tol far) (fun _ => rfl) (fun u hu => by
    obtain ⟨v, hv⟩ := conforms_finite hu
    simp only [Conformance.inRange, hv, Bool.and_eq_true, decide_eq_true_eq]
    exact ((conforms_unitRange_iff hn hv).1 hu).1) h
  obtain ⟨v, hv⟩ := inRange_finite hr
  have range : ∀ u y, decodeReal u = some y → ((Conformance.unitRange tol far).inRange u = true ↔ -1 ≤ y ∧ y ≤ 1) :=
    fun u y hu => by simp only [Conformance.inRange, hu, Bool.and_eq_true, decide_eq_true_eq]
  refine ⟨v, hv, ((range _ _ hv).1 hr).1, ((range _ _ hv).1 hr).2, ?_⟩
  obtain ⟨h, -⟩ | h | ⟨hk, hc⟩ := deliveredWord_ends h
  · exact .inl ((show e.enc cfg = some w from h) ▸ enc_encodes hn e)
  · exact .inr (((conforms_unitRange_iff hn hv).1 h).2.symm.imp_right .inl)
  · refine .inr (.inr (.inr ⟨fun u y hu hy hb => ?_, fun u y hu h1 h2 => ?_⟩))
    · exact absurd ((range _ _ hy).2 hb) (Bool.eq_false_iff.1 (hk u (enc_eq_of_encodes hn rfl hu)))
    · by_contra hle
      exact absurd ((conforms_unitRange_iff hn hu).2 ⟨⟨h1, h2⟩, .inr (not_lt.1 hle)⟩)
        (Bool.eq_false_iff.1 (hc u ((range _ _ hu).2 ⟨h1, h2⟩)))

/-- A word delivered for NORM (R78, R120, R123, R124). -/
theorem deliveredWord_circle_delivered {cfg : Config} (hn : 2 ≤ cfg.logN) {cmd : Word} {ops : List Word} {tol : RealParam}
    {j : Nat} {e : Exact} {w : Word} (h : deliveredWord cfg cmd ops (.circle tol) j e = some w) :
    DeliveredCircle cfg tol (value cfg e) w := by
  have range : ∀ u y, decodeReal u = some y →
      ((Conformance.circle tol).inRange u = true ↔ 0 ≤ y ∧ (y : ℝ) < 2 * Real.pi) := fun u y hu => by
    simp only [Conformance.inRange, hu, Bool.and_eq_true, decide_eq_true_eq, belowTwoPi_iff hu]
  have hr := deliveredWord_inRange (k := .circle tol) (fun _ => rfl) (fun u hu => by
    obtain ⟨v, hv⟩ := conforms_finite hu
    exact (range _ _ hv).2 ((conforms_circle_iff hn hv).1 hu).1) h
  obtain ⟨v, hv⟩ := inRange_finite hr
  refine ⟨v, hv, ((range _ _ hv).1 hr).1, ((range _ _ hv).1 hr).2, ?_⟩
  obtain ⟨h, -⟩ | h | ⟨hk, hc⟩ := deliveredWord_ends h
  · obtain ⟨u, hu, rfl⟩ := Option.map_eq_some_iff.1 h
    exact .inl ⟨u, hu ▸ enc_encodes hn e, rfl⟩
  · exact .inr (.inl ((conforms_circle_iff hn hv).1 h).2)
  · refine .inr (.inr ⟨fun u y hu hy => ?_, fun u y hu h1 h2 => ?_⟩)
    · have hf := hk _ (show (e.enc cfg).map clampTwoPi = _ by rw [enc_eq_of_encodes hn rfl hu]; rfl)
      by_contra h0
      refine absurd ?_ (Bool.eq_false_iff.1 hf)
      unfold clampTwoPi
      simp only [hy]
      split_ifs with hb
      · exact (range _ _ hy).2 ⟨not_lt.1 h0, (belowTwoPi_iff hy).1 hb⟩
      · exact inRange_zero (.circle tol)
    · by_contra hle
      exact absurd ((conforms_circle_iff hn hu).2 ⟨⟨h1, h2⟩, not_lt.1 hle⟩)
        (Bool.eq_false_iff.1 (hc u ((range _ _ hu).2 ⟨h1, h2⟩)))

/-- `ENC` of a real is never `-0` (R77). -/
theorem encodes_ne_negZero {enc : Rounding} {x : ℝ} {w : Word} (h : Encodes enc x (some w)) : w ≠ 0x80000000 := by
  rintro rfl
  have hz : decodeReal 0x80000000 = some 0 := by decide +kernel
  cases enc with
  | nearestEven =>
    obtain ⟨-, v, hv, h0, -⟩ := h
    rw [hz] at hv
    exact absurd (h0 (Option.some.inj hv).symm) (by decide)
  | other k =>
    by_cases hx : x = 0
    · exact absurd (h.1 hx) (by decide)
    · have h1 := h.2 hx
      unfold finished at h1
      split_ifs at h1 with hf hm
      · exact absurd h1 (by decide)
      · exact hm (by rw [← Option.some.inj h1]; decide)

/-- A result for which nothing is drawn is never `-0` (R85). -/
theorem deliveredWord_ne_negZero {cfg : Config} (hn : 2 ≤ cfg.logN) {cmd : Word} {ops : List Word} {k : Conformance}
    {j : Nat} {e : Exact} {w : Word} (hk : k.tolerant = false) (h : deliveredWord cfg cmd ops k j e = some w) :
    w ≠ 0x80000000 := by
  have enc : ∀ u, e.enc cfg = some u → u ≠ 0x80000000 := fun u hu => encodes_ne_negZero (hu ▸ enc_encodes hn e)
  rw [deliveredWord_exact _ _ _ hk] at h
  obtain ⟨h, -⟩ | ⟨-, rfl⟩ := exactWord_cases h
  · cases k with
    | circle tol =>
      obtain ⟨u, hu, rfl⟩ := Option.map_eq_some_iff.1 h
      unfold clampTwoPi
      split
      · exact enc u hu
      · split_ifs
        · exact enc u hu
        · decide
    | _ => exact enc w h
  · exact (standIn_spec _ _ _ _).2.1

/-- What a delivery with a commit names: for each listed result a word delivered for it. -/
theorem deliver_ok {s : State} {reads : List InReg} {how : OutReg → Conformance} {rs : List (OutReg × Exact)}
    {sec : Option (BitVec 3)} {sat : Option Bool} {c : Commit} (h : deliver s reads how rs sec sat = .ok c) :
    outWords s.cfg s.lcmd (operandWords s reads) how rs = some c.outs ∧ c.sector = sec ∧ c.sat = sat := by
  unfold deliver at h
  split at h
  · cases h
  · cases h; exact ⟨‹_›, rfl, rfl⟩

end Sys2Proof.Machine
end

