-- ==== Sys2Proof/Laws/Commands.lean ====
section
/-! SUPPORT. Everything a decoded command can do, once: its operands' checks in the order of spec/60_exceptions.md
R202, and the shape of its commit (30_encoding.md R79). -/

namespace Sys2Proof.Machine

/-- What a command commits without a fault (R79): its listed OUT registers, each with a finite word, SECTOR for SECTOR and
SVPWM alone and never 7, and SAT for VTIME and SVPWM alone. -/
structure CommitShape (i : Instr) (c : Commit) : Prop where
  outs   : c.outs.map Prod.fst = resultRegisters i
  finite : ∀ k w, (k, w) ∈ c.outs → isFinite w = true
  sector : ∀ x, c.sector = some x → x ≠ 7
  names  : c.sector.isSome = namesSector i ∧ c.sat.isSome = namesSat i

/-- The angle check of R136 fails. -/
def AngleFails (i : Instr) (s : State) : Prop := (i = .park ∨ i = .ipark) ∧ (operand s .in2).all angleInRange = false

/-- What a command computes from its operands: NONFINITE where one is not finite, then ANGLE_RANGE, then OVERFLOW or a
commit (R202). -/
structure ResultShape (i : Instr) (s : State) (r : Except Code Commit) : Prop where
  nonfinite : ∀ k ∈ operandsOf i, operand s k = none → r = .error .nonfinite
  angle     : (∀ k ∈ operandsOf i, operand s k ≠ none) → AngleFails i s → r = .error .angleRange
  commits   : (∀ k ∈ operandsOf i, operand s k ≠ none) → ¬ AngleFails i s →
    r = .error .overflow ∨ ∃ c, r = .ok c ∧ CommitShape i c

theorem sectorBits_ne_seven (x : Sector) : sectorBits x ≠ 7 := by cases x <;> decide

/-- A delivery is OVERFLOW or a commit of the shape R79 gives. -/
theorem deliver_shape (i : Instr) (s : State) (reads : List InReg) (how : OutReg → Conformance) (rs : List (OutReg × Exact))
    (sec : Option (BitVec 3)) (sat : Option Bool) (hr : rs.map Prod.fst = resultRegisters i)
    (hsec : ∀ x, sec = some x → x ≠ 7) (hn : sec.isSome = namesSector i ∧ sat.isSome = namesSat i) :
    deliver s reads how rs sec sat = .error .overflow ∨ ∃ c, deliver s reads how rs sec sat = .ok c ∧ CommitShape i c := by
  obtain h | ⟨ws, h1, h2⟩ := deliver_cases s reads how rs sec sat
  · exact .inl h
  · exact .inr ⟨_, h2, (outWords_mem h1).1.trans hr, outWords_finite h1, hsec, hn⟩

/-- Of two computations with the shape of one command, the one that stands has it. -/
theorem unlessOverflow_shape {i : Instr} {a b : Except Code Commit}
    (ha : a = .error .overflow ∨ ∃ c, a = .ok c ∧ CommitShape i c)
    (hb : b = .error .overflow ∨ ∃ c, b = .ok c ∧ CommitShape i c) :
    unlessOverflow a b = .error .overflow ∨ ∃ c, unlessOverflow a b = .ok c ∧ CommitShape i c := by
  obtain rfl | ⟨c, rfl, hc⟩ := ha
  · exact hb
  · exact .inr ⟨c, rfl, hc⟩

/-- A command of one operand. -/
theorem shape_of_one {i : Instr} {s : State} {r : Except Code Commit} {f : Rat → Except Code Commit}
    (ho : operandsOf i = [.in0]) (hi : i ≠ .park ∧ i ≠ .ipark)
    (hr : r = match operand s .in0 with | some a => f a | none => .error .nonfinite)
    (hf : ∀ a, f a = .error .overflow ∨ ∃ c, f a = .ok c ∧ CommitShape i c) : ResultShape i s r := by
  subst hr
  refine ⟨fun k hk h => ?_, fun _ h => absurd h.1 (by simp [hi]), fun hfin _ => ?_⟩
  · rw [ho, List.mem_singleton] at hk; subst hk; simp [h]
  · obtain ⟨a, ha⟩ := Option.ne_none_iff_exists'.1 (hfin .in0 (by simp [ho]))
    simpa only [ha] using hf a

/-- A command of two operands. -/
theorem shape_of_two {i : Instr} {s : State} {r : Except Code Commit} {f : Rat → Rat → Except Code Commit}
    (ho : operandsOf i = [.in0, .in1]) (hi : i ≠ .park ∧ i ≠ .ipark)
    (hr : r = match operand s .in0, operand s .in1 with | some a, some b => f a b | _, _ => .error .nonfinite)
    (hf : ∀ a b, f a b = .error .overflow ∨ ∃ c, f a b = .ok c ∧ CommitShape i c) : ResultShape i s r := by
  subst hr
  refine ⟨fun k hk h => ?_, fun _ h => absurd h.1 (by simp [hi]), fun hfin _ => ?_⟩
  · rw [ho] at hk
    simp only [List.mem_cons, List.not_mem_nil, or_false] at hk
    rcases hk with rfl | rfl <;> split <;> simp_all
  · obtain ⟨a, ha⟩ := Option.ne_none_iff_exists'.1 (hfin .in0 (by simp [ho]))
    obtain ⟨b, hb⟩ := Option.ne_none_iff_exists'.1 (hfin .in1 (by simp [ho]))
    simpa only [ha, hb] using hf a b

/-- A command of three operands. -/
theorem shape_of_three {i : Instr} {s : State} {r : Except Code Commit} {f : Rat → Rat → Rat → Except Code Commit}
    (ho : operandsOf i = [.in0, .in1, .in2])
    (hr : r = match operand s .in0, operand s .in1, operand s .in2 with
      | some a, some b, some c => f a b c
      | _, _, _ => .error .nonfinite)
    (ha : ∀ a b c, operand s .in2 = some c → AngleFails i s → f a b c = .error .angleRange)
    (hf : ∀ a b c, operand s .in2 = some c → ¬ AngleFails i s →
      f a b c = .error .overflow ∨ ∃ k, f a b c = .ok k ∧ CommitShape i k) : ResultShape i s r := by
  subst hr
  have all : (∀ k ∈ operandsOf i, operand s k ≠ none) →
      ∃ a b c, operand s .in0 = some a ∧ operand s .in1 = some b ∧ operand s .in2 = some c := fun hfin => by
    obtain ⟨a, ha⟩ := Option.ne_none_iff_exists'.1 (hfin .in0 (by simp [ho]))
    obtain ⟨b, hb⟩ := Option.ne_none_iff_exists'.1 (hfin .in1 (by simp [ho]))
    obtain ⟨c, hc⟩ := Option.ne_none_iff_exists'.1 (hfin .in2 (by simp [ho]))
    exact ⟨a, b, c, ha, hb, hc⟩
  refine ⟨fun k hk h => ?_, fun hfin h => ?_, fun hfin h => ?_⟩
  · rw [ho] at hk
    simp only [List.mem_cons, List.not_mem_nil, or_false] at hk
    rcases hk with rfl | rfl | rfl <;> split <;> simp_all
  · obtain ⟨a, b, c, h0, h1, h2⟩ := all hfin
    simpa only [h0, h1, h2] using ha a b c h2 h
  · obtain ⟨a, b, c, h0, h1, h2⟩ := all hfin
    simpa only [h0, h1, h2] using hf a b c h2 h

/-- A well-formed command runs: it reads the operands R79 lists and its result has the shape above. -/
theorem exec_runs (i : Instr) (s : State) (h : i.wellFormed = true) :
    ∃ g, exec i s = runCommand (operandsOf i) g s ∧ ResultShape i s (g s) := by
  cases i with
  | sin =>
    exact ⟨sinResult, rfl, shape_of_one rfl (by simp) (by unfold sinResult; cases operand s .in0 <;> rfl) fun a =>
      deliver_shape _ _ _ _ _ _ _ rfl (by simp) ⟨rfl, rfl⟩⟩
  | cos =>
    exact ⟨cosResult, rfl, shape_of_one rfl (by simp) (by unfold cosResult; cases operand s .in0 <;> rfl) fun a =>
      deliver_shape _ _ _ _ _ _ _ rfl (by simp) ⟨rfl, rfl⟩⟩
  | norm =>
    exact ⟨normResult, rfl, shape_of_one rfl (by simp) (by unfold normResult; cases operand s .in0 <;> rfl) fun a =>
      deliver_shape _ _ _ _ _ _ _ rfl (by simp) ⟨rfl, rfl⟩⟩
  | clarke =>
    exact ⟨clarkeResult, rfl, shape_of_two rfl (by simp) rfl fun a b =>
      deliver_shape _ _ _ _ _ _ _ rfl (by simp) ⟨rfl, rfl⟩⟩
  | iclarke =>
    exact ⟨iclarkeResult, rfl, shape_of_two rfl (by simp) rfl fun a b =>
      deliver_shape _ _ _ _ _ _ _ rfl (by simp) ⟨rfl, rfl⟩⟩
  | park =>
    refine ⟨parkResult, rfl, shape_of_three rfl rfl (fun a b c h2 hf => ?_) fun a b c h2 hf => ?_⟩
    · exact if_neg (by simpa [AngleFails, h2] using hf)
    · rw [if_pos (by simpa [AngleFails, h2] using hf)]
      exact deliver_shape _ _ _ _ _ _ _ rfl (by simp) ⟨rfl, rfl⟩
  | ipark =>
    refine ⟨iparkResult, rfl, shape_of_three rfl rfl (fun a b c h2 hf => ?_) fun a b c h2 hf => ?_⟩
    · exact if_neg (by simpa [AngleFails, h2] using hf)
    · rw [if_pos (by simpa [AngleFails, h2] using hf)]
      exact deliver_shape _ _ _ _ _ _ _ rfl (by simp) ⟨rfl, rfl⟩
  | sector =>
    exact ⟨sectorResult, rfl, shape_of_two rfl (by simp) rfl fun a b => .inr ⟨_, rfl, rfl, by simp,
      fun x hx => Option.some.inj hx ▸ sectorBits_ne_seven _, ⟨rfl, rfl⟩⟩⟩
  | vtime sec =>
    obtain ⟨k, hk⟩ := Option.isSome_iff_exists.1 (show (sectorOfBits sec).isSome = true by revert h; revert sec; decide)
    have d : ∀ how t, deliverTimes s how t = .error .overflow ∨
        ∃ c, deliverTimes s how t = .ok c ∧ CommitShape (.vtime sec) c := fun how t =>
      deliver_shape _ _ _ _ _ _ _ rfl (by simp) ⟨rfl, rfl⟩
    refine ⟨vtimeResult k, by simp [exec, execVtime, hk, operandsOf], shape_of_two rfl (by simp) rfl fun a b => ?_⟩
    simp only []
    split
    · exact unlessOverflow_shape (d _ _) (d _ _)
    · exact d _ _
  | cmap sec =>
    obtain ⟨k, hk⟩ := Option.isSome_iff_exists.1 (show (sectorOfBits sec).isSome = true by revert h; revert sec; decide)
    exact ⟨cmapResult k, by simp [exec, execCmap, hk, operandsOf], shape_of_three rfl rfl
      (fun a b c _ hf => absurd hf.1 (by simp)) fun a b c _ _ => deliver_shape _ _ _ _ _ _ _ rfl (by simp) ⟨rfl, rfl⟩⟩
  | svpwm =>
    have d : ∀ how x t, deliverSwitching s how x t = .error .overflow ∨
        ∃ c, deliverSwitching s how x t = .ok c ∧ CommitShape .svpwm c := fun how x t =>
      deliver_shape _ _ _ _ _ _ _ rfl (fun x hx => Option.some.inj hx ▸ sectorBits_ne_seven _) ⟨rfl, rfl⟩
    exact ⟨svpwmResult, rfl, shape_of_two rfl (by simp) rfl fun a b => unlessOverflow_shape (d _ _ _) (d _ _ _)⟩

/-- An ill-formed command is VTIME or CMAP with an illegal sector, and ends with ILLEGAL_SECTOR (R72). -/
theorem exec_ill_formed (i : Instr) (s : State) (h : i.wellFormed = false) :
    exec i s = .next (faultEntry .illegalSector s) := by
  cases i with
  | vtime sec =>
    have : sectorOfBits sec = none := by revert h; revert sec; decide
    simp [exec, execVtime, this]
  | cmap sec =>
    have : sectorOfBits sec = none := by revert h; revert sec; decide
    simp [exec, execCmap, this]
  | _ => cases h

/-- A register of the window is found again from its offset (10_state.md R23). -/
theorem registerAt_offsetOf (r : WindowReg) : offsetOf r % 4 = 0 ∧ registerAt (offsetOf r / 4) = some r := by
  cases r with
  | inp k => cases k <;> exact ⟨rfl, rfl⟩
  | out k => cases k <;> exact ⟨rfl, rfl⟩
  | _ => exact ⟨rfl, rfl⟩

/-- A variable just set reads back. -/
theorem lookupVar_setVar (v : List (Nat × Word)) (k : Nat) (w : Word) : lookupVar (setVar v k w) k = some w := by
  induction v with
  | nil => simp [setVar, lookupVar]
  | cons p rest ih =>
    obtain ⟨n, x⟩ := p
    simp only [setVar]
    split_ifs with h1 h2
    · simp [lookupVar]
    · simp [lookupVar]
    · simp [lookupVar, Ne.symm h2, ih]

/-- Setting a variable leaves the others. -/
theorem lookupVar_setVar_of_ne (v : List (Nat × Word)) {k j : Nat} (w : Word) (h : j ≠ k) :
    lookupVar (setVar v k w) j = lookupVar v j := by
  induction v with
  | nil => simp [setVar, lookupVar, Ne.symm h]
  | cons p rest ih =>
    obtain ⟨n, x⟩ := p
    simp only [setVar]
    split_ifs with h1 h2
    · simp [lookupVar, Ne.symm h]
    · subst h2; simp [lookupVar, Ne.symm h]
    · simp [lookupVar, ih]

/-- A delivery whose results cannot overflow, or whose `ENC` does not, is no OVERFLOW. -/
theorem deliver_total {s : State} {reads : List InReg} {how : OutReg → Conformance} {rs : List (OutReg × Exact)}
    {sec : Option (BitVec 3)} {sat : Option Bool}
    (h : ∀ p ∈ rs, (how p.1).mayOverflow = false ∨ p.2.enc s.cfg ≠ none) :
    ∃ ws, deliver s reads how rs sec sat = .ok ⟨ws, sec, sat⟩ := by
  have : ∃ ws, outWords s.cfg s.lcmd (operandWords s reads) how rs = some ws := by
    induction rs with
    | nil => exact ⟨[], rfl⟩
    | cons p rest ih =>
      obtain ⟨r, e⟩ := p
      obtain ⟨w, hw⟩ : ∃ w, deliveredWord s.cfg s.lcmd (operandWords s reads) (how r) (outIndex r) e = some w :=
        Option.ne_none_iff_exists'.1 fun hn => by
          have := deliveredWord_none hn
          obtain h | h := h _ List.mem_cons_self
          · rw [this.2] at h; cases h
          · exact h this.1
      obtain ⟨ws, hws⟩ := ih fun p hp => h p (List.mem_cons_of_mem _ hp)
      exact ⟨(r, w) :: ws, by simp [outWords, hw, hws]⟩
  obtain ⟨ws, hws⟩ := this
  exact ⟨ws, by simp [deliver, hws]⟩

/-- What a delivery with CODE 0 leaves in the OUT register of each of its results: a word delivered for it. -/
theorem deliver_writes {s : State} {reads : List InReg} {how : OutReg → Conformance} {rs : List (OutReg × Exact)}
    {sec : Option (BitVec 3)} {sat : Option Bool} (hn : (rs.map Prod.fst).Nodup)
    (hc : (commit (deliver s reads how rs sec sat) s).code = .ok) {r : OutReg} {e : Exact} (hm : (r, e) ∈ rs) :
    deliveredWord s.cfg s.lcmd (operandWords s reads) (how r) (outIndex r) e =
      some ((commit (deliver s reads how rs sec sat) s).out.get r).word := by
  obtain h | ⟨ws, h1, h2⟩ := deliver_cases s reads how rs sec sat
  · rw [h] at hc; cases hc
  · obtain ⟨m1, m2⟩ := outWords_mem h1
    obtain ⟨p, hp, rfl⟩ := List.mem_map.1 (m1 ▸ List.mem_map.2 ⟨_, hm, rfl⟩ : r ∈ ws.map Prod.fst)
    obtain ⟨e', he', hd⟩ := m2 p.1 p.2 hp
    obtain rfl : e' = e := by
      have := List.inj_on_of_nodup_map hn he' hm rfl
      exact (Prod.mk.inj this).2
    rw [h2, hd, commit_ok]
    show some p.2 = some ((writeOuts s.out ws).get p.1).word
    rw [writeOuts_get_of_mem ws s.out p.1 p.2 (m1 ▸ hn) hp]

/-- `|x| > X_ACC` is the real comparison (R112). -/
theorem beyondAccuracy_iff (cfg : Config) (x : Rat) : beyondAccuracy cfg x = true ↔ BeyondAccuracy cfg x := by
  unfold beyondAccuracy BeyondAccuracy
  cases cfg.xAcc with
  | none => simp
  | some m => simp [RealParam.isBelow_iff]

/-- What VTIME's delivery with a commit names: a word delivered for each of its five times, and SAT (R161). -/
theorem deliverTimes_ok {s : State} {how : Conformance} {t : Times} {c : Commit} (h : deliverTimes s how t = .ok c) :
    ∃ w0 w1 w2 wx wy, c = ⟨[(.out0, w0), (.out1, w1), (.out2, w2), (.out3, wx), (.out4, wy)], none, some t.sat⟩ ∧
      deliveredWord s.cfg s.lcmd (operandWords s [.in0, .in1]) how 0 (.surd t.t0) = some w0 ∧
      deliveredWord s.cfg s.lcmd (operandWords s [.in0, .in1]) how 1 (.surd t.t1) = some w1 ∧
      deliveredWord s.cfg s.lcmd (operandWords s [.in0, .in1]) how 2 (.surd t.t2) = some w2 ∧
      deliveredWord s.cfg s.lcmd (operandWords s [.in0, .in1]) how 3 (.surd t.tx) = some wx ∧
      deliveredWord s.cfg s.lcmd (operandWords s [.in0, .in1]) how 4 (.surd t.ty) = some wy := by
  obtain ⟨h1, h2, h3⟩ := deliver_ok h
  obtain ⟨outs, sec, sat⟩ := c
  simp only [timeResults, outWords_cons_iff] at h1 h2 h3
  obtain ⟨w0, _, d0, ⟨w1, _, d1, ⟨w2, _, d2, ⟨w3, _, d3, ⟨w4, _, d4, h5, rfl⟩, rfl⟩, rfl⟩, rfl⟩, rfl⟩ := h1
  cases h5
  exact ⟨w0, w1, w2, w3, w4, by rw [h2, h3], d0, d1, d2, d3, d4⟩

/-- What SVPWM's delivery with a commit names: a word delivered for each counter and each time, SECTOR and SAT (R169). -/
theorem deliverSwitching_ok {s : State} {how : OutReg → Conformance} {sec : Sector} {t : Times} {c : Commit}
    (h : deliverSwitching s how sec t = .ok c) :
    ∃ wu wv ww w0 w1 w2, c = ⟨[(.out0, wu), (.out1, wv), (.out2, ww), (.out3, w0), (.out4, w1), (.out5, w2)],
        some (sectorBits sec), some t.sat⟩ ∧
      let p := permute sec t.t0 t.t1 t.t2
      let d := fun r e w => deliveredWord s.cfg s.lcmd (operandWords s [.in0, .in1]) (how r) (outIndex r) (.surd e) = some w
      d .out0 (counter s.cfg p.1) wu ∧ d .out1 (counter s.cfg p.2.1) wv ∧ d .out2 (counter s.cfg p.2.2) ww ∧
        d .out3 t.t0 w0 ∧ d .out4 t.t1 w1 ∧ d .out5 t.t2 w2 := by
  obtain ⟨h1, h2, h3⟩ := deliver_ok h
  obtain ⟨outs, sec, sat⟩ := c
  simp only [counterResults, List.cons_append, List.nil_append, outWords_cons_iff] at h1 h2 h3
  obtain ⟨w0, _, d0, ⟨w1, _, d1, ⟨w2, _, d2, ⟨w3, _, d3, ⟨w4, _, d4, ⟨w5, _, d5, h5, rfl⟩, rfl⟩, rfl⟩, rfl⟩, rfl⟩, rfl⟩ := h1
  cases h5
  exact ⟨w0, w1, w2, w3, w4, w5, by rw [h2, h3], d0, d1, d2, d3, d4, d5⟩

/-- A sector's bits name it. -/
theorem sectorBits_inj {a b : Sector} (h : sectorBits a = sectorBits b) : a = b := by
  revert h; cases a <;> cases b <;> decide

end Sys2Proof.Machine
end

