-- ==== Sys2Proof/Laws/Legality.lean ====
section
/-! SUPPORT. The legality of a stored table, over the reals (spec/40_trig.md R101, 70_reset_and_hazards.md R233). -/

namespace Sys2Proof.Machine

open Reference (param)

/-- An entry is legal exactly where its real lies within the real tolerance of the sine (R101). -/
theorem entryLegal_iff {cfg : Config} (h : 2 ≤ cfg.logN) {k : Nat} (hk : k < tableSize cfg) (e : RealParam) :
    entryLegal cfg k e = true ↔ |param e - Real.sin (2 * Real.pi * k / tableSize cfg)| ≤ param cfg.tolLut := by
  refine decideBy_iff fun b hb => ?_
  unfold entryDecided at hb
  split at hb
  · rename_i q tol ht
    have hs := lut_contains { cfg with rom := .reference } h k (show k ≤ tableSize cfg from hk.le)
      (y := (cosSin cfg.logN (k % tableSize cfg)).2.toIval) rfl
    unfold Reference.lut at hs
    simp only [show tableSize { cfg with rom := .reference } = tableSize cfg from rfl, if_neg hk.ne] at hs
    rw [ht, Ival.near_iff hs hb, abs_sub_comm]
    rfl
  · cases hb
  · cases hb

/-- The entries of a list are legal exactly where each is, at its own place in the table. -/
theorem entriesLegal_iff (cfg : Config) (l : List RealParam) (k : Nat) :
    entriesLegal cfg k l = true ↔ ∀ j, j < l.length → entryLegal cfg (k + j) (l.getD j (.rat 0)) = true := by
  induction l generalizing k with
  | nil => simp [entriesLegal]
  | cons e rest ih =>
    rw [entriesLegal, Bool.and_eq_true, ih]
    refine ⟨fun ⟨h1, h2⟩ j hj => ?_, fun h => ⟨h 0 (by simp), fun j hj => ?_⟩⟩
    · cases j with
      | zero => exact h1
      | succ j => simpa [Nat.add_assoc, Nat.add_comm 1 j] using h2 j (by simpa using hj)
    · simpa [Nat.add_assoc, Nat.add_comm 1 j] using h (j + 1) (by simpa using hj)

/-- A ROM is legal exactly where a stored table has its entries, its sentinel and its tolerance (R101). -/
theorem romLegal_iff {cfg : Config} (h : 2 ≤ cfg.logN) :
    romLegal cfg = true ↔ ∀ l, cfg.rom = .stored l →
      l.length = tableSize cfg + 1 ∧ param (l.getD (tableSize cfg) (.rat 0)) = param (l.getD 0 (.rat 0)) ∧
        ∀ k < tableSize cfg,
          |param (l.getD k (.rat 0)) - Real.sin (2 * Real.pi * k / tableSize cfg)| ≤ param cfg.tolLut := by
  unfold romLegal
  cases cfg.rom with
  | reference => simp
  | stored l =>
    simp only [Bool.and_eq_true, beq_iff_eq, RealParam.same_iff, entriesLegal_iff, Nat.zero_add, Rom.stored.injEq,
      forall_eq', and_assoc]
    refine and_congr_right fun hlen => and_congr_right fun _ => ?_
    have key : ∀ k, k < tableSize cfg → (l.take (tableSize cfg)).getD k (.rat 0) = l.getD k (.rat 0) := fun k hk => by
      simp [List.getD_eq_getElem?_getD, hk]
    rw [List.length_take, hlen, Nat.min_eq_left (Nat.le_succ _)]
    exact forall₂_congr fun k hk => by rw [key k hk, entryLegal_iff h hk]

end Sys2Proof.Machine
end

