-- ==== Sys2Proof/Laws/PerInstr.lean ====
section
/-! SUPPORT. Per-instruction laws, one lemma for each constructor of `Instr`. The family FieldsOfWord: the command
word of an instruction holds its opcode, its sector operand and zeros in the fields of spec/30_encoding.md R70. -/

namespace Sys2Proof.Laws.FieldsOfWord

/-- The three fields of the encoded word (R70). -/
def Statement (i : Instr) : Prop :=
  opField (encode i) = opcode i ∧ secField (encode i) = sectorOperand i ∧ reservedField (encode i) = 0

theorem sin : Statement .sin := ⟨by decide, by decide, by decide⟩

theorem cos : Statement .cos := ⟨by decide, by decide, by decide⟩

theorem norm : Statement .norm := ⟨by decide, by decide, by decide⟩

theorem clarke : Statement .clarke := ⟨by decide, by decide, by decide⟩

theorem iclarke : Statement .iclarke := ⟨by decide, by decide, by decide⟩

theorem park : Statement .park := ⟨by decide, by decide, by decide⟩

theorem ipark : Statement .ipark := ⟨by decide, by decide, by decide⟩

theorem sector : Statement .sector := ⟨by decide, by decide, by decide⟩

theorem vtime (sec : BitVec 3) : Statement (.vtime sec) := by
  refine ⟨?_, ?_, ?_⟩ <;> revert sec <;> decide

theorem cmap (sec : BitVec 3) : Statement (.cmap sec) := by
  refine ⟨?_, ?_, ?_⟩ <;> revert sec <;> decide

theorem svpwm : Statement .svpwm := ⟨by decide, by decide, by decide⟩

end Sys2Proof.Laws.FieldsOfWord
end

