-- ==== Sys2Proof/Laws/Svpwm.lean ====
section
/-! SUPPORT. The SVPWM computations against the reals of the rules (spec/43_svpwm.md R150 to R170). -/

namespace Sys2Proof.Machine

open Reference

/-! ### The configuration -/

theorem configLegal_logN {cfg : Config} (h : configLegal cfg = true) : 2 ≤ cfg.logN ∧ cfg.logN ≤ 16 := by
  simp only [configLegal, Bool.and_eq_true, decide_eq_true_eq] at h
  exact ⟨h.1.1.1.1.1.1.1.1.1.1.1, h.1.1.1.1.1.1.1.1.1.1.2⟩

/-- A word `positiveWord` accepts has a value above 0. -/
theorem positiveWord_iff (w : Word) : positiveWord w = true ↔ ∃ v, decodeReal w = some v ∧ 0 < v := by
  unfold positiveWord decodeReal
  cases hf : isFinite w
  · simp
  · cases hs : w.getLsbD 31
    · simp only [Bool.not_false, Bool.and_true, Bool.true_and, bne_iff_ne, ne_eq, if_true, Bool.false_eq_true, if_false,
        Option.some.injEq, exists_eq_left']
      constructor
      · intro h
        have := magValue_strictMono (Nat.pos_of_ne_zero h)
        rwa [magValue_zero] at this
      · intro h h0
        rw [h0, magValue_zero] at h
        exact lt_irrefl _ h
    · simp [magValue_nonneg]

theorem switchingPeriod_spec {cfg : Config} (h : configLegal cfg = true) :
    decodeReal cfg.ts = some (switchingPeriod cfg) ∧ 0 < switchingPeriod cfg := by
  simp only [configLegal, Bool.and_eq_true] at h
  obtain ⟨v, hv, h0⟩ := (positiveWord_iff _).1 h.1.1.1.1.1.1.1.1.1.2
  unfold switchingPeriod
  rw [hv]
  exact ⟨rfl, h0⟩

theorem busVoltage_spec {cfg : Config} (h : configLegal cfg = true) :
    decodeReal cfg.udc = some (busVoltage cfg) ∧ 0 < busVoltage cfg := by
  simp only [configLegal, Bool.and_eq_true] at h
  obtain ⟨v, hv, h0⟩ := (positiveWord_iff _).1 h.1.1.1.1.1.1.1.1.2
  unfold busVoltage
  rw [hv]
  exact ⟨rfl, h0⟩

/-- What an instance that draws nothing has (R78). -/
theorem drawsNothing_spec {cfg : Config} (h : drawsNothing cfg = true) :
    tolOpZero cfg.tolOp = true ∧ cfg.tolSector.isZero = true ∧ cfg.tolSat.isZero = true ∧ cfg.xAcc = none := by
  simpa [drawsNothing, and_assoc] using h

/-- The exact model draws nothing and has the reference table (R101). -/
theorem exactModel_spec {cfg : Config} (h : exactModel cfg = true) :
    drawsNothing cfg = true ∧ cfg.tolLut.isZero = true ∧ cfg.rom = .reference := by
  simpa [exactModel, and_assoc] using h

/-! ### Classification (R150, R151) -/

theorem discriminants_surd (alpha beta : Rat) :
    surd (Machine.discriminants alpha beta).1 = (Reference.discriminants alpha beta).1 ∧
      surd (Machine.discriminants alpha beta).2.1 = (Reference.discriminants alpha beta).2.1 ∧
      surd (Machine.discriminants alpha beta).2.2 = (Reference.discriminants alpha beta).2.2 := by
  refine ⟨surd_ofRat _, ?_, ?_⟩ <;> simp only [Machine.discriminants, Reference.discriminants, surd] <;> push_cast <;>
    ring

/-- A vector's own sector is the sector of the discriminants over the reals. -/
theorem ownSector_number (alpha beta : Rat) :
    sectorBits (ownSector alpha beta) = BitVec.ofNat 3 (sectorNumber alpha beta) := by
  obtain ⟨e1, e2, e3⟩ := discriminants_surd alpha beta
  unfold ownSector sectorNumber Reference.sectorCode
  simp only []
  rw [← e1, ← e2, ← e3]
  simp only [← pos_iff]
  cases (Machine.discriminants alpha beta).1.pos <;> cases (Machine.discriminants alpha beta).2.1.pos <;>
    cases (Machine.discriminants alpha beta).2.2.pos <;> rfl

/-- Outside its band a bit is the strict test (R155). -/
theorem relaxedBit_outside (s : State) (reads : List InReg) (j : Nat) (d : Surd)
    (h : s.cfg.tolSector.isZero = true ∨ param s.cfg.tolSector < |surd d|) : relaxedBit s reads j d = d.pos := by
  unfold relaxedBit
  rw [if_neg]
  rw [Bool.and_eq_true, not_and_or]
  rcases h with h | h
  · exact .inl (by simp [h])
  · exact .inr (by rw [near_surd_iff]; simpa using h)

/-- In an instance without a band the classification is the vector's own sector. -/
theorem classify_exact (s : State) (reads : List InReg) (alpha beta : Rat) (h : s.cfg.tolSector.isZero = true) :
    classify s reads alpha beta = ownSector alpha beta := by
  unfold classify ownSector
  simp only [relaxedBit_outside s reads _ _ (.inl h)]

/-! ### Times (R157 to R160) -/

theorem activeTimes_surd (sec : Sector) (k alpha beta : Rat) :
    (surd (Machine.activeTimes sec (intermediates k alpha beta).1 (intermediates k alpha beta).2.1
        (intermediates k alpha beta).2.2).1,
      surd (Machine.activeTimes sec (intermediates k alpha beta).1 (intermediates k alpha beta).2.1
        (intermediates k alpha beta).2.2).2) = Reference.activeTimes sec k alpha beta := by
  cases sec <;> simp only [Machine.activeTimes, Reference.activeTimes, intermediates, Prod.mk.injEq, surd_neg,
    surd_sqrt3] <;> simp only [surd] <;> push_cast <;> constructor <;> ring

/-- The zero-vector split over the reals (R160). -/
theorem splitTimes_surd (ts : Rat) (sat : Bool) (tx ty : Surd) :
    surd (splitTimes ts sat tx ty).t0 = (ts - surd tx - surd ty) / 4 ∧
      surd (splitTimes ts sat tx ty).t1 = (ts - surd tx - surd ty) / 4 + surd tx / 2 ∧
      surd (splitTimes ts sat tx ty).t2 = (ts - surd tx - surd ty) / 4 + surd tx / 2 + surd ty / 2 := by
  refine ⟨?_, ?_, ?_⟩ <;> simp only [splitTimes, surd_add, surd_scale, surd_sub, surd_ofRat] <;> push_cast <;> ring

/-- The strict test is the real one (R159). -/
theorem exceedsPeriod_iff (cfg : Config) (sum : Surd) :
    exceedsPeriod cfg sum = true ↔ (switchingPeriod cfg : ℝ) < surd sum := by
  unfold exceedsPeriod
  rw [beq_iff_eq]
  exact (surd_compares sum _).2.2

/-- Outside its band a saturation outcome is the strict test (R159, R164). -/
theorem saturates_outside (s : State) (reads : List InReg) (choice : Nat) (sum : Surd)
    (h : s.cfg.tolSat.isZero = true ∨ param s.cfg.tolSat < |surd sum - switchingPeriod s.cfg|) :
    saturates s reads choice sum = exceedsPeriod s.cfg sum := by
  unfold saturates
  rw [if_neg]
  rw [Bool.and_eq_true, not_and_or]
  rcases h with h | h
  · exact .inl (by simp [h])
  · exact .inr (by rw [near_surd_iff]; simpa using h)

/-- `(Tx, Ty)` before saturation, over the reals (R157, R158). -/
theorem demand_surd (cfg : Config) (sec : Sector) (alpha beta : Rat) :
    (surd (demand cfg sec alpha beta).1, surd (demand cfg sec alpha beta).2) =
      Reference.activeTimes sec ((switchingPeriod cfg : ℝ) / busVoltage cfg) alpha beta := by
  have h := activeTimes_surd sec (switchingPeriod cfg / busVoltage cfg) alpha beta
  push_cast at h
  exact h

/-- `Tx + Ty` before saturation, over the reals. -/
theorem demandSum_surd (cfg : Config) (sec : Sector) (alpha beta : Rat) :
    surd (demandSum cfg sec alpha beta) =
      (Reference.activeTimes sec ((switchingPeriod cfg : ℝ) / busVoltage cfg) alpha beta).1 +
        (Reference.activeTimes sec ((switchingPeriod cfg : ℝ) / busVoltage cfg) alpha beta).2 := by
  rw [← demand_surd]; exact surd_add _ _

/-- The times of an outcome over the reals (R159, R160), where the outcome exists. -/
theorem timesOf_surd (cfg : Config) (sec : Sector) (alpha beta : Rat) (outcome sat : Bool)
    (h : outcome = true → surd (demandSum cfg sec alpha beta) ≠ 0) :
    let t := timesOf cfg sec alpha beta outcome sat
    let r := onTimesOf outcome sec (switchingPeriod cfg) (busVoltage cfg) alpha beta
    (surd t.tx, surd t.ty) = r ∧ (surd t.t0, surd t.t1, surd t.t2) = split (switchingPeriod cfg) r := by
  intro t r
  have hon : (surd t.tx, surd t.ty) = r := by
    show (surd (rescale _ _ _ _).1, surd (rescale _ _ _ _).2) = _
    unfold rescale r onTimesOf
    simp only [← demand_surd]
    cases outcome with
    | false => simp
    | true =>
      have hne := h rfl
      have hz : (demandSum cfg sec alpha beta).isZero = false := Bool.eq_false_iff.2 fun hz => hne ((isZero_iff _).1 hz)
      have hne' : surd ((demand cfg sec alpha beta).1.add (demand cfg sec alpha beta).2) ≠ 0 := hne
      simp only [hz, Bool.not_false, Bool.and_true, if_true, surd_div _ _ hne', surd_scale, surd_add, Prod.mk.injEq]
      constructor <;> ring
  refine ⟨hon, ?_⟩
  obtain ⟨g0, g1, g2⟩ := splitTimes_surd (switchingPeriod cfg) t.sat t.tx t.ty
  rw [← hon]
  exact Prod.ext g0 (Prod.ext g1 g2)

/-- An outcome that does not exist gives the times without saturation (log 15). -/
theorem timesOf_zero {cfg : Config} {sec : Sector} {alpha beta : Rat} (h : surd (demandSum cfg sec alpha beta) = 0)
    (outcome sat : Bool) : timesOf cfg sec alpha beta outcome sat = timesOf cfg sec alpha beta false sat := by
  unfold timesOf
  rw [(isZero_iff _).2 h]
  simp

/-- With the strict outcome the on-times are those of R159. -/
theorem onTimesOf_strict {sat : Bool} {sec : Sector} {ts udc alpha beta : ℝ} (h : sat = true ↔ Saturates sec ts udc alpha beta) :
    onTimesOf sat sec ts udc alpha beta = onTimes sec ts udc alpha beta := by
  unfold onTimesOf onTimes
  by_cases hb : Saturates sec ts udc alpha beta
  · rw [if_pos (h.2 hb)]; exact (if_pos hb).symm
  · rw [if_neg (fun hs => hb (h.1 hs))]; exact (if_neg hb).symm

/-- What the drawn times are (R159, R160, R164): admitted ones, with the instants of R160. -/
theorem vectorTimes_admitted (s : State) (reads : List InReg) (sec : Sector) (alpha beta : Rat)
    (hts : 0 < switchingPeriod s.cfg) :
    let t := vectorTimes s reads sec alpha beta
    AdmittedTimes s.cfg sec alpha beta (surd t.tx, surd t.ty) ∧
      (surd t.t0, surd t.t1, surd t.t2) = split (switchingPeriod s.cfg) (surd t.tx, surd t.ty) := by
  intro t
  have hts' : (0 : ℝ) < switchingPeriod s.cfg := Rat.cast_pos.2 hts
  have hsum := demandSum_surd s.cfg sec alpha beta
  by_cases h0 : surd (demandSum s.cfg sec alpha beta) = 0
  · have ht : t = timesOf s.cfg sec alpha beta false t.sat := timesOf_zero h0 _ _
    obtain ⟨h1, h2⟩ := timesOf_surd s.cfg sec alpha beta false t.sat (by simp)
    rw [← ht] at h1 h2
    refine ⟨⟨false, fun _ => ?_, by simp, h1⟩, by rw [h2, h1]⟩
    rw [← hsum, h0]
    simpa using hts'.le
  · obtain ⟨h1, h2⟩ := timesOf_surd s.cfg sec alpha beta (saturates s reads 19 (demandSum s.cfg sec alpha beta)) t.sat
      fun _ => h0
    refine ⟨⟨_, fun h => ?_, fun _ => by rwa [← hsum], h1⟩, h2.trans (congrArg _ h1.symm)⟩
    rw [saturates_outside, exceedsPeriod_iff, hsum]
    rwa [RealParam.isZero_iff, hsum]

/-- The reported SAT is an admitted outcome (R164). -/
theorem vectorTimes_sat (s : State) (reads : List InReg) (sec : Sector) (alpha beta : Rat) :
    AdmittedOutcome s.cfg sec alpha beta (vectorTimes s reads sec alpha beta).sat := by
  intro h
  show saturates s reads 20 _ = true ↔ _
  rw [saturates_outside, exceedsPeriod_iff, demandSum_surd]
  rwa [RealParam.isZero_iff, demandSum_surd]

/-- In an instance without a band the drawn times are those of the strict outcome. -/
theorem strictTimes_eq (s : State) (reads : List InReg) (sec : Sector) (alpha beta : Rat)
    (h : s.cfg.tolSat.isZero = true) : strictTimes s reads sec alpha beta = vectorTimes s reads sec alpha beta := by
  unfold strictTimes vectorTimes
  simp only [saturates_outside s reads _ _ (.inl h)]

/-- The times of the strict outcome are the rules' times over the reals, in every instance. -/
theorem strictTimes_exact (s : State) (reads : List InReg) (sec : Sector) (alpha beta : Rat)
    (hts : 0 < switchingPeriod s.cfg) :
    let t := strictTimes s reads sec alpha beta
    let ts : ℝ := switchingPeriod s.cfg
    let udc : ℝ := busVoltage s.cfg
    (surd t.tx, surd t.ty) = onTimes sec ts udc alpha beta ∧
      (surd t.t0, surd t.t1, surd t.t2) = instants sec ts udc alpha beta := by
  intro t ts udc
  have hts' : (0 : ℝ) < ts := Rat.cast_pos.2 hts
  have ho : exceedsPeriod s.cfg (demandSum s.cfg sec alpha beta) = true ↔ Saturates sec ts udc alpha beta := by
    rw [exceedsPeriod_iff, demandSum_surd]; exact Iff.rfl
  obtain ⟨h1, h2⟩ := timesOf_surd s.cfg sec alpha beta (exceedsPeriod s.cfg (demandSum s.cfg sec alpha beta)) t.sat
    fun h => by have := (exceedsPeriod_iff _ _).1 h; linarith
  rw [onTimesOf_strict ho] at h1 h2
  exact ⟨h1, h2⟩

/-- The times of the strict outcome are admitted, with the instants of R160. -/
theorem strictTimes_admitted (s : State) (reads : List InReg) (sec : Sector) (alpha beta : Rat)
    (hts : 0 < switchingPeriod s.cfg) :
    let t := strictTimes s reads sec alpha beta
    AdmittedTimes s.cfg sec alpha beta (surd t.tx, surd t.ty) ∧
      (surd t.t0, surd t.t1, surd t.t2) = split (switchingPeriod s.cfg) (surd t.tx, surd t.ty) := by
  intro t
  have hts' : (0 : ℝ) < switchingPeriod s.cfg := Rat.cast_pos.2 hts
  have hsum := demandSum_surd s.cfg sec alpha beta
  have hne : exceedsPeriod s.cfg (demandSum s.cfg sec alpha beta) = true → surd (demandSum s.cfg sec alpha beta) ≠ 0 :=
    fun h => by have := (exceedsPeriod_iff _ _).1 h; linarith
  obtain ⟨h1, h2⟩ := timesOf_surd s.cfg sec alpha beta (exceedsPeriod s.cfg (demandSum s.cfg sec alpha beta)) t.sat hne
  refine ⟨⟨_, fun _ => ?_, fun h => by rw [← hsum]; exact hne h, h1⟩, h2.trans (congrArg _ h1.symm)⟩
  rw [exceedsPeriod_iff, hsum]

/-- The classification gives an admitted sector (R155). -/
theorem classify_admitted (s : State) (reads : List InReg) (alpha beta : Rat) :
    AdmittedSector s.cfg alpha beta (classify s reads alpha beta) := by
  obtain ⟨e1, e2, e3⟩ := discriminants_surd alpha beta
  refine ⟨relaxedBit s reads 1 (Machine.discriminants alpha beta).2.1,
    relaxedBit s reads 2 (Machine.discriminants alpha beta).2.2, ?_, fun h => ?_, fun h => ?_⟩
  · have : (Machine.discriminants alpha beta).1.pos = decide (0 < beta) := by
      rw [Bool.eq_iff_iff, pos_iff, e1]; simp [Reference.discriminants]
    rw [← this]; rfl
  · rw [relaxedBit_outside, pos_iff, e2]
    rwa [RealParam.isZero_iff, e2]
  · rw [relaxedBit_outside, pos_iff, e3]
    rwa [RealParam.isZero_iff, e3]

/-- A vector's own sector is an admitted one in every instance. -/
theorem ownSector_admitted (cfg : Config) (alpha beta : Rat) : AdmittedSector cfg alpha beta (ownSector alpha beta) := by
  obtain ⟨e1, e2, e3⟩ := discriminants_surd alpha beta
  refine ⟨(Machine.discriminants alpha beta).2.1.pos, (Machine.discriminants alpha beta).2.2.pos, ?_, fun _ => ?_, fun _ => ?_⟩
  · have : (Machine.discriminants alpha beta).1.pos = decide (0 < beta) := by
      rw [Bool.eq_iff_iff, pos_iff, e1]; simp [Reference.discriminants]
    rw [← this]; rfl
  · rw [pos_iff, e2]
  · rw [pos_iff, e3]

/-- In an instance without a band the machine's times are the rules' times over the reals. -/
theorem vectorTimes_exact (s : State) (reads : List InReg) (sec : Sector) (alpha beta : Rat)
    (hsat : s.cfg.tolSat.isZero = true) (hts : 0 < switchingPeriod s.cfg) :
    let t := vectorTimes s reads sec alpha beta
    let ts : ℝ := switchingPeriod s.cfg
    let udc : ℝ := busVoltage s.cfg
    (t.sat = true ↔ Saturates sec ts udc alpha beta) ∧ (surd t.tx, surd t.ty) = onTimes sec ts udc alpha beta ∧
      (surd t.t0, surd t.t1, surd t.t2) = instants sec ts udc alpha beta := by
  refine ⟨vectorTimes_sat s reads sec alpha beta (.inl ((RealParam.isZero_iff _).1 hsat)), ?_⟩
  rw [← strictTimes_eq s reads sec alpha beta hsat]
  exact strictTimes_exact s reads sec alpha beta hts

/-! ### The mapper (R165, R166) -/

theorem permute_surd (sec : Sector) (t0 t1 t2 : Surd) :
    (surd (Machine.permute sec t0 t1 t2).1, surd (Machine.permute sec t0 t1 t2).2.1,
      surd (Machine.permute sec t0 t1 t2).2.2) = Reference.permute sec (surd t0, surd t1, surd t2) := by
  cases sec <;> rfl

theorem counter_surd (cfg : Config) (t : Surd) :
    surd (counter cfg t) = surd t * (cfg.maxCounter.toNat : ℝ) / (switchingPeriod cfg : ℝ) := by
  unfold counter maxCount
  rw [surd_scale]
  push_cast
  ring

/-! ### Deliveries (R161, R169) -/

/-- A bounded result with a tolerance of 0 is delivered as its `ENC`, where that is a word. -/
theorem deliveredWord_bounded {cfg : Config} {tol : RealParam} (ht : tol.isZero = true) {e : Exact} {w : Word}
    (h : e.enc cfg = some w) (cmd : Word) (ops : List Word) (hi : Rat) (j : Nat) :
    deliveredWord cfg cmd ops (.bounded tol hi) j e = some w := by
  rw [deliveredWord_exact _ _ _ (by simp [Conformance.tolerant, ht]), exactWord_bounded h]

/-- Every result of SVPWM is bounded. -/
theorem svpwmConformance_bounded (cfg : Config) (k : OutReg) :
    ∃ hi, svpwmConformance cfg k = .bounded cfg.tolOp.svpwm hi := by cases k <;> exact ⟨_, rfl⟩

end Sys2Proof.Machine
end

