-- ==== Sys2Proof/Tests/Slice0.lean ====
section
/-! SUPPORT. Tests. Expected values are those of spec/95_test_vectors.md and the worked examples of the rules, or
words written out by hand from spec/30_encoding.md R70 and R71; each test runs one step. -/

namespace Sys2Proof.Tests

open Sys2Proof.Machine

/-- A block right after reset with a configuration, three operand words and a command in flight. -/
def placed (cmd a b c : Word) (cfg : Config := {}) : State :=
  State.withFetchWord { State.reset with inp := ⟨⟨a, true⟩, ⟨b, true⟩, ⟨c, true⟩⟩, cfg := cfg } 32 cmd.toNat

/-- The state after one step, where there is one. -/
def after (s : State) : Option State :=
  match step s with
  | .next t => some t
  | .fault _ => none
  | .refused _ => none

/-- STATUS, SECTOR and the first `n` result words after one step. -/
def outcome (n : Nat) (s : State) : Option (Word × BitVec 3 × List Word) :=
  (after s).map fun t =>
    (statusWord t, t.sector,
      [t.out.out0.word, t.out.out1.word, t.out.out2.word, t.out.out3.word, t.out.out4.word, t.out.out5.word].take n)

/-! ### Well-formedness (R72) -/

theorem test_vtime_sector_0_ill_formed : (Instr.vtime 0).wellFormed = false := by decide

theorem test_vtime_sector_7_ill_formed : (Instr.vtime 7).wellFormed = false := by decide

theorem test_cmap_sector_0_ill_formed : (Instr.cmap 0).wellFormed = false := by decide

theorem test_cmap_sector_7_ill_formed : (Instr.cmap 7).wellFormed = false := by decide

theorem test_vtime_sector_6_well_formed : (Instr.vtime 6).wellFormed = true := by decide

/-! ### Decoding: the words of R70 and R71, bit by bit (RSV, SEC, OP) -/

theorem test_decode_sin : decode 0b0000000000000000000000000_000_0001 = .ok .sin := by decide

theorem test_decode_cos : decode 0b0000000000000000000000000_000_0010 = .ok .cos := by decide

theorem test_decode_norm : decode 0b0000000000000000000000000_000_0011 = .ok .norm := by decide

theorem test_decode_clarke : decode 0b0000000000000000000000000_000_0100 = .ok .clarke := by decide

theorem test_decode_iclarke : decode 0b0000000000000000000000000_000_0101 = .ok .iclarke := by decide

theorem test_decode_park : decode 0b0000000000000000000000000_000_0110 = .ok .park := by decide

theorem test_decode_ipark : decode 0b0000000000000000000000000_000_0111 = .ok .ipark := by decide

theorem test_decode_sector : decode 0b0000000000000000000000000_000_1000 = .ok .sector := by decide

theorem test_decode_vtime_5 : decode 0b0000000000000000000000000_101_1001 = .ok (.vtime 5) := by decide

theorem test_decode_cmap_3 : decode 0b0000000000000000000000000_011_1010 = .ok (.cmap 3) := by decide

theorem test_decode_svpwm : decode 0b0000000000000000000000000_000_1011 = .ok .svpwm := by decide

/-- 2.12: OP 0 is reserved. -/
theorem test_decode_zero : decode 0x00000000 = .error .reservedOpcode := by decide

/-- 2.12: OP 0xC is reserved. -/
theorem test_decode_0xC : decode 0x0000000C = .error .reservedOpcode := by decide

/-- 2.12: SIN with SEC = 1. -/
theorem test_decode_sin_with_sector : decode 0x00000011 = .error .sectorField := by decide

/-- 2.12: reserved bit 7, checked before SEC. -/
theorem test_decode_reserved_bit_7 : decode 0x00000089 = .error .reservedBits := by decide

/-- 2.12: reserved bit 31. -/
theorem test_decode_reserved_bit_31 : decode 0x80000001 = .error .reservedBits := by decide

/-- R52 and R70: the bytes of `VTIME 3` = 0x00000039 in address order. -/
theorem test_decode_bytes_vtime_3 : decodeBytes [0x39, 0, 0, 0] = .ok (.vtime 3) := by decide

/-- R83: "CMAP 3 = 0x0000003A". -/
theorem test_encode_cmap_3 : encode (.cmap 3) = 0x0000003A := by decide

/-! ### Commands (95_test_vectors.md 2.1 to 2.11; N = 512, Ts = Udc = 1, MAX_COUNTER = 5000) -/

/-- 2.1: the exact `k mod N` at 1e30. -/
theorem test_sin_huge : outcome 1 (placed 0x1 0x7149F2CA 0 0) = some (0, 0, [0xBF4A88C6]) := by decide +kernel

/-- 2.1: floor toward negative infinity at -1e-7. -/
theorem test_sin_small_negative : outcome 1 (placed 0x1 0xB3D6BF95 0 0) = some (0, 0, [0xB3D6BE34]) := by
  decide +kernel

/-- 2.2: cosine of π/2 rounded up. -/
theorem test_cos_quarter : outcome 1 (placed 0x2 0x3FC90FDB 0 0) = some (0, 0, [0xB33BBBFA]) := by decide +kernel

/-- 2.2: cosine of a negative angle. -/
theorem test_cos_negative : outcome 1 (placed 0x2 0xBF800000 0 0) = some (0, 0, [0x3F0A5096]) := by decide +kernel

/-- 2.3: a result that rounds to 2π is 0. -/
theorem test_norm_rounds_to_two_pi : outcome 1 (placed 0x3 0xB22BCC77 0 0) = some (0, 0, [0]) := by decide +kernel

/-- 2.3: many periods out of range. -/
theorem test_norm_huge : outcome 1 (placed 0x3 0x60AD78EC 0 0) = some (0, 0, [0x3F375D8B]) := by decide +kernel

/-- 2.4. -/
theorem test_clarke : outcome 2 (placed 0x4 0xC0000000 0x40400000 0x7FC00000) =
    some (0, 0, [0xC0000000, 0x4013CD3A]) := by decide +kernel

/-- 2.4: OVERFLOW writes no result. -/
theorem test_clarke_overflow : outcome 2 (placed 0x4 0x7F7FFFFF 0x7F7FFFFF 0) = some (0x52, 0, [0, 0]) := by
  decide +kernel

/-- 2.5: cancellation in `v`. -/
theorem test_iclarke : outcome 3 (placed 0x5 0x3F800000 0x3F13CD3A 0) =
    some (0, 0, [0x3F800000, 0xB21A2C94, 0xBF800000]) := by decide +kernel

/-- 2.5: OVERFLOW in one result. -/
theorem test_iclarke_overflow : outcome 3 (placed 0x5 0xFF7FFFFF 0x7F7FFFFF 0) = some (0x52, 0, [0, 0, 0]) := by
  decide +kernel

/-- 2.6. -/
theorem test_park : outcome 2 (placed 0x6 0x3E99999A 0x3ECCCCCD 0x3F800000) =
    some (0, 0, [0x3EFF51A3, 0xBD14C3F6]) := by decide +kernel

/-- 2.6: NONFINITE before ANGLE_RANGE. -/
theorem test_park_nonfinite_first : outcome 2 (placed 0x6 0x7F800000 0 0x40E00000) = some (0x32, 0, [0, 0]) := by
  decide +kernel

/-- 2.7. -/
theorem test_ipark : outcome 2 (placed 0x7 0x3F000000 0x3F000000 0x3F490FDB) =
    some (0, 0, [0xB284BF89, 0x3F3504F3]) := by decide +kernel

/-- 2.7: 0x40C90FDB is above 2π. -/
theorem test_ipark_angle_range : outcome 2 (placed 0x7 0 0x3F000000 0x40C90FDB) = some (0x42, 0, [0, 0]) := by
  decide +kernel

/-- 2.8: the 60° ray in binary32 falls in region I. -/
theorem test_sector_ray : outcome 0 (placed 0x8 0x3E800000 0x3EDDB3D7 0) = some (0, 3, []) := by decide +kernel

/-- 2.8: the origin, with -0. -/
theorem test_sector_origin : outcome 0 (placed 0x8 0 0x80000000 0) = some (0, 6, []) := by decide +kernel

/-- 2.9: saturation by a hair. -/
theorem test_vtime_saturated : outcome 5 (placed 0x29 0x3F2AAAAB 0 0) =
    some (0x8, 0, [0, 0x3F000000, 0x3F000000, 0x3F800000, 0]) := by decide +kernel

/-- 2.9, the equality case with Udc = 1.5: not saturated. -/
theorem test_vtime_equality : outcome 3 (placed 0x29 0x3F800000 0 0 { udc := 0x3FC00000 }) =
    some (0, 0, [0, 0x3F000000, 0x3F000000]) := by decide +kernel

/-- 2.10, E1. -/
theorem test_cmap_sector_2 : outcome 3 (placed 0x2A 0x3DCCCCCD 0x3ECCCCCD 0x3F666666) =
    some (0, 0, [0x43FA0000, 0x458CA000, 0x44FA0000]) := by decide +kernel

/-- 2.12: CMAP with SEC = 7. -/
theorem test_cmap_illegal_sector : outcome 3 (placed 0x7A 0 0 0) = some (0x22, 0, [0, 0, 0]) := by decide +kernel

/-- 2.11: the last row, saturated at the edge of the range. -/
theorem test_svpwm_huge : outcome 6 (placed 0xB 0x7F7FFFFF 0x7F7FFFFF 0) =
    some (0x8, 3, [0, 0x442777DF, 0x451C4000, 0, 0x3E0930A3, 0x3F000000]) := by decide +kernel

/-- 2.11: 330°. -/
theorem test_svpwm_330 : outcome 6 (placed 0xB 0x3EDDB3D7 0xBE800000 0) =
    some (0, 2, [0x432777E0, 0x4511C882, 0x449C4000, 0x3D0930A4, 0x3E800000, 0x3EEED9EC]) := by decide +kernel

/-! ### Faults, the window and the host -/

/-- 2.12: OP 0 ends with ILLEGAL_OP, STATUS 0x12. -/
theorem test_illegal_op : outcome 0 (placed 0x0 0 0 0) = some (0x12, 0, []) := by decide +kernel

/-- 2.12: VTIME with SEC = 0 reports the sector before its NaN operand. -/
theorem test_illegal_sector_first : outcome 0 (placed 0x9 0x7FC00000 0 0) = some (0x22, 0, []) := by decide +kernel

/-- R210: VTIME 1 whose operands were never written ends in the model-only fault. -/
theorem test_unwritten_operand :
    exec (.vtime 1) (accept 0x19 State.reset) = .fault .unwrittenOperand := by rfl

/-- P5, outcome (a): a CMD write while busy is dropped and sets OVR. -/
theorem test_overrun : (writeCmd 0x2 (accept 0x1 State.reset)).ovr = true ∧
    (writeCmd 0x2 (accept 0x1 State.reset)).cmd = 0x1 := by decide

/-- R23: OUT5 stands at offset 0x2C and CFG_N, at 0x30, reads 512. -/
theorem test_window : accessed {} 0x2C 4 = some (.out .out5) ∧
    (accessed {} 0x30 4).map (readRegister State.reset) = some 0x200 := by decide

/-- R51: a halfword access is refused. -/
theorem test_halfword_refused : hostRead 0x18 2 0 State.reset = .refused (.busError 0x18 2) := by rfl

/-- R233: N = 2 has no machine. -/
theorem test_illegal_configuration :
    step { State.reset with cfg := { logN := 1 } } = .refused .illegalConfiguration := by rfl

/-- R52: byte 0 of CFG_MAXC (5000 = 0x00001388) is 0x88. -/
theorem test_byte_order : windowByte State.reset 0x3C = some 0x88 := by decide

/-- R101: a stored table of N = 4 with its sentinel is legal, and one with a wrong entry is not. -/
theorem test_stored_table :
    configLegal { logN := 2, rom := .stored [.rat 0, .rat 1, .rat 0, .rat (-1), .rat 0] } = true ∧
      configLegal { logN := 2, rom := .stored [.rat 0, .rat 1, .rat 0, .rat 1, .rat 0] } = false := by decide +kernel

/-- R155 relaxes the bits of `d2` and `d3` alone: with `beta < 0` a sector bit 0 is 0 in every band. -/
theorem test_sector_bit_0_is_exact :
    let s := placed 0x8 0 0xBF800000 0 { tolSector := .rat 2 }
    (sectorBits (classify s [.in0, .in1] 0 (-1))).getLsbD 0 = false := by
  have h : ∀ b1 b2, (sectorBits (sectorOfCode (sectorCode (discriminants 0 (-1)).1.pos b1 b2))).getLsbD 0 = false := by
    decide +kernel
  exact h _ _

/-- R83 and R77: the word of a script's decimal is `ENC` of it: 0.1 rounds to 0x3DCCCCCD. -/
theorem test_script_decimal :
    scriptWriteDecimal {} (.inp .in0) (1 / 10) = some (.write 0x08 4 (.word 0x3DCCCCCD)) := by decide +kernel

/-- R85: a word that stands in for a result is not `-0`. -/
theorem test_stand_in_is_not_minus_zero (free : Word) :
    (Conformance.unitRange (.rat 0) false).standIn {} free (.table 1 1 0) ≠ 0x80000000 := (standIn_spec _ _ _ _).2.1

/-- R164: SAT may be either outcome inside the band, also where `Tx + Ty` is negative: the choice is the instance's. -/
theorem test_sat_in_the_band :
    let s := placed 0x19 0xBF800000 0 0 { tolSat := .rat 4 }
    (vectorTimes s [.in0, .in1] .s2 (-1) 0).sat = s.cfg.tolerantBit s.lcmd (operandWords s [.in0, .in1]) 20 :=
  if_pos (by decide +kernel)

/-- R78: a word at the tolerance itself conforms, and the next one does not. -/
theorem test_tolerance_edge :
    (Conformance.plain (.rat 1)).conforms {} (.surd (.ofRat 0)) 0x3F800000 = true ∧
      (Conformance.plain (.rat 1)).conforms {} (.surd (.ofRat 0)) 0x3F800001 = false := by decide +kernel

/-- R155: at `|d2| = TOL_SECTOR` the bit is the instance's draw, and with a smaller tolerance it is `d2 > 0`. -/
theorem test_sector_band_edge :
    let s := placed 0x8 0 0xBF800000 0 { tolSector := .rat (1 / 2) }
    relaxedBit s [.in0, .in1] 1 (discriminants 0 (-1)).2.1 = s.cfg.tolerantBit s.lcmd (operandWords s [.in0, .in1]) 17 ∧
      let s := placed 0x8 0 0xBF800000 0 { tolSector := .rat (1 / 2 - 1 / 2 ^ 20) }
      relaxedBit s [.in0, .in1] 1 (discriminants 0 (-1)).2.1 = true :=
  ⟨if_pos (by decide +kernel), by decide +kernel⟩

/-- R164: at `|Tx + Ty - Ts| = TOL_SAT` the outcome is the instance's draw, and with a smaller tolerance it is R159's. -/
theorem test_sat_band_edge :
    let s := placed 0x29 0 0 0 { tolSat := .rat 1 }
    saturates s [.in0, .in1] 19 (demandSum s.cfg .s2 (4 / 3) 0) =
        s.cfg.tolerantBit s.lcmd (operandWords s [.in0, .in1]) 19 ∧
      let s := placed 0x29 0 0 0 { tolSat := .rat (1 - 1 / 2 ^ 20) }
      saturates s [.in0, .in1] 19 (demandSum s.cfg .s2 (4 / 3) 0) = true :=
  ⟨if_pos (by decide +kernel), by decide +kernel⟩

/-! ### Witnesses: for each statement with hypotheses, values that meet all of them together -/

open Reference (IsEnc Encodes)

/-- A placed command in the default configuration: SIN, COS, NORM, CLARKE, ICLARKE, PARK or IPARK of three words. -/
abbrev w1 : State := placed 0x1 0x3F800000 0x3F800000 0x3F800000

/-- A block in a configuration, with nothing placed. -/
def configured (cfg : Config) : State := { State.reset with cfg := cfg }

/-- A host with a one-line script, to move next, beside a command in flight or none. -/
def scripted (op : HostOp) (busy : Bool) (cfg : Config := {}) : State :=
  { State.reset with host := ⟨[op], 0, []⟩, agenda := [.host], busy := busy, lcmd := 0x1, cmd := 0x1, cfg := cfg }

theorem default_exact : exactModel {} = true := by decide

theorem default_draws_nothing : drawsNothing {} = true := by decide

theorem default_legal : configLegal {} = true := by decide

theorem isEnc_of_encRat {x : Rat} {y : ℝ} {r : Option Word} (h : encRat x = r) (hy : (x : ℝ) = y) : IsEnc y r := by
  subst h hy; exact encRat_isEnc x

theorem isEnc_of_surd {x : Surd} {y : ℝ} {r : Option Word} (h : x.enc = r) (hy : Reference.surd x = y) : IsEnc y r := by
  subst h hy; exact surd_enc_isEnc x

theorem inv_one : (1 : ℝ) / Real.sqrt 3 = Reference.surd ⟨0, 1 / 3⟩ := by
  rw [div_eq_iff sqrt3_pos.ne']
  simp only [Reference.surd]
  push_cast
  linear_combination (-1 / 3 : ℝ) * sqrt3_sq

theorem witness_IllegalWordsEndWithIllegalOp :
    reservedField 0x00000081 ≠ 0 ∧ opField 0xF ∈ ([0x0, 0xC, 0xD, 0xE, 0xF] : List (BitVec 4)) ∧
      (opField 0x71 ∉ ([0x9, 0xA] : List (BitVec 4)) ∧ secField 0x71 ≠ 0) := by decide

/-- A completion, an idle block's move, a host's move, an agenda that is not empty, and an empty one with and without a
command in flight. -/
theorem witness_StepRunsTheDecodedCommand :
    (configLegal w1.cfg = true ∧ nextMove w1 = .block ∧ w1.busy = true ∧ decode w1.lcmd = .ok .sin) ∧
      (let idle : State := { State.reset with agenda := [.block] };
        configLegal idle.cfg = true ∧ nextMove idle = .block ∧ idle.busy = false) ∧
      (let s := scripted (.write 0 4 (.word 2)) true;
        configLegal s.cfg = true ∧ nextMove s = .host ∧ s.agenda = .host :: []) ∧
      State.reset.agenda = [] ∧ ({ State.reset with busy := true } : State).agenda = [] := by decide

theorem witness_PlacedWordRunsNext : configLegal State.reset.cfg = true ∧ decode 0x7A = .ok (.cmap 7) := by decide

/-- One configuration on each side, for each of the conditions of R5 (the statement is an equivalence). -/
theorem witness_IllegalConfigurationIsRefused :
    step (configured { logN := 17 }) = .refused .illegalConfiguration ∧
      step (configured { ts := 0x7F800000 }) = .refused .illegalConfiguration ∧
      step (configured { udc := 0 }) = .refused .illegalConfiguration ∧
      step (configured { maxCounter := 0 }) = .refused .illegalConfiguration ∧
      step (configured { base := 4 }) = .refused .illegalConfiguration ∧
      step (configured { logN := 2, rom := .stored [.rat 0, .rat 1, .rat 0, .rat (-1)] }) =
        .refused .illegalConfiguration ∧
      step (configured { tolSat := .rat (-1) }) = .refused .illegalConfiguration ∧
      step (configured { xAcc := some (.rat 0) }) = .refused .illegalConfiguration ∧
      step (configured {}) ≠ .refused .illegalConfiguration :=
  ⟨rfl, rfl, rfl, rfl, rfl, rfl, rfl, rfl, fun h => by
    have e : step (configured {}) = .next (configured {}) := rfl
    rw [e] at h
    cases h⟩

theorem witness_NoStepChangesTheConfiguration : ∃ t, step State.reset = .next t := ⟨_, rfl⟩

theorem witness_ResetClearsTheBlock :
    configLegal ({ w1 with agenda := [.reset] } : State).cfg = true ∧
      nextMove ({ w1 with agenda := [.reset] } : State) = .reset := by decide

/-- A read, a write of a word, of a variable and of a formed command word (R238), and a branch. -/
theorem witness_HostAccessReachesTheRegister :
    (scripted (.read 0x2C 4 0) false).host.script[0]? = some (.read (0 + offsetOf (.out .out5)) 4 0) ∧
      (scripted (.write 0x0 4 (.word 0x1)) false).host.script[0]? = some (.write (0 + offsetOf .cmd) 4 (.word 0x1)) ∧
      (scripted (.write 0x8 4 (.var 3)) false).host.script[0]? = some (.write (0 + offsetOf (.inp .in0)) 4 (.var 3)) ∧
      (scripted (.write 0x0 4 (.sectorCommand 0x9 3)) false).host.script[0]? =
        some (.write (0 + offsetOf .cmd) 4 (.sectorCommand 0x9 3)) ∧
      lookupVar [(3, (5 : Word))] 3 = some 5 ∧
      (scripted (.branchIfSet 3 0 0) false).host.script[0]? = some (.branchIfSet 3 0 0) := by
  decide

/-- R51 at each edge of the window at 0x40 to 0x7F: a halfword, one byte below, one byte above, and misaligned; and each
source of a written word. -/
theorem witness_OtherAccessesAreRefused :
    let s := scripted (.read 0x40 2 0) false { base := 0x40 }
    let line := fun src => (scripted (.write 0x80 4 src) false { base := 0x40 }).host
    ((2 : Nat) ≠ 4 ∧ s.host.script[s.host.next]? = some (.read 0x40 2 0)) ∧
      (s.cfg.base + 0x40 ≤ 0x80 ∧ (line (.word 0)).script[0]? = some (.write 0x80 4 (.word 0))) ∧
      (line (.var 3)).script[0]? = some (.write 0x80 4 (.var 3)) ∧
      (line (.sectorCommand 0x9 3)).script[0]? = some (.write 0x80 4 (.sectorCommand 0x9 3)) ∧
      lookupVar [(3, (5 : Word))] 3 = some 5 ∧ 0x3F < s.cfg.base ∧ (0x41 - s.cfg.base) % 4 ≠ 0 := by decide

theorem witness_WindowBytesAreLittleEndian : (3 : Nat) < 4 := by decide

theorem witness_ReadOnlyRegistersIgnoreWrites : WindowReg.cfgMaxc ≠ .cmd ∧ ∀ k, WindowReg.cfgMaxc ≠ .inp k :=
  ⟨by decide, fun _ => by simp⟩

theorem witness_ConfigurationRegisters :
    configLegal (configured { logN := 2 }).cfg = true ∧ configLegal (configured { logN := 16 }).cfg = true := by decide

theorem witness_CommandWrites : State.reset.busy = false ∧ w1.busy = true := by decide

theorem witness_ResultsAreStaleUntilCompletion :
    (scripted (.read 0x18 4 0) true).busy = true ∧ nextMove (scripted (.read 0x18 4 0) true) = .host ∧
      ∃ t, step (scripted (.read 0x18 4 0) true) = .next t := ⟨rfl, rfl, _, rfl⟩

theorem witness_OperandWriteReadsBack : WindowReg.status ≠ .inp .in0 := by decide

theorem witness_UnlistedOperandsAreNotUsed : InReg.in2 ∉ operandsOf .clarke ∧ InReg.in1 ∉ operandsOf .norm := by decide

theorem witness_CommitWritesWhatItNames :
    Code.overflow ≠ .ok ∧ (([(OutReg.out0, (1 : Word)), (OutReg.out5, 2)]).map Prod.fst).Nodup := by decide

/-- A placed command whose operands were written completes. -/
theorem placed_completes (i : Instr) (reads : List InReg) (g : State → Except Code Commit) (s : State)
    (h : exec i s = runCommand reads g s) (hr : runnable s reads = true) : ∃ t, exec i s = .next t :=
  ⟨_, h.trans (runCommand_of_runnable hr g)⟩

theorem witness_EveryCommandIsAllOrNothing : ∃ t, exec .sin w1 = .next t :=
  placed_completes _ [.in0] sinResult _ rfl (by decide)

theorem witness_IllegalSectorIsReported : (0 : BitVec 3) = 0 ∧ (7 : BitVec 3) = 7 := by decide

theorem witness_UnwrittenOperandIsTheModelFault :
    (Instr.cmap 6).wellFormed = true ∧ State.reset.cfg.operandCheck = true ∧ InReg.in2 ∈ operandsOf (.cmap 6) ∧
      (State.reset.lin.get .in2).written = false := by decide

theorem witness_NonfiniteOperandIsReported :
    Instr.park.wellFormed = true ∧ runnable (placed 0x6 0 0 0x7F800000) (operandsOf .park) = true ∧
      InReg.in2 ∈ operandsOf .park ∧ isFinite (operandWord (placed 0x6 0 0 0x7F800000) .in2) = false := by decide

/-- At the greatest legal angle and at the next word above it. -/
theorem witness_AngleRangeIsChecked :
    runnable (placed 0x6 0 0 0x40C90FDA) [.in0, .in1, .in2] = true ∧
      operand (placed 0x6 0 0 0x40C90FDA) .in0 = some 0 ∧ operand (placed 0x6 0 0 0x40C90FDA) .in1 = some 0 ∧
      (∃ θ, operand (placed 0x6 0 0 0x40C90FDA) .in2 = some θ ∧ 0 ≤ (θ : ℝ) ∧ (θ : ℝ) < 2 * Real.pi) ∧
      ∃ θ, operand (placed 0x6 0 0 0x40C90FDB) .in2 = some θ ∧ ¬ (0 ≤ (θ : ℝ) ∧ (θ : ℝ) < 2 * Real.pi) := by
  have h1 : operand (placed 0x6 0 0 0x40C90FDA) .in2 = some (magValue 0x40C90FDA) := by decide +kernel
  have h2 : operand (placed 0x6 0 0 0x40C90FDB) .in2 = some (magValue 0x40C90FDB) := by decide +kernel
  refine ⟨by decide, by decide +kernel, by decide +kernel, ⟨_, h1, (angleInRange_iff h1).1 (by decide +kernel)⟩, _, h2, ?_⟩
  rw [← angleInRange_iff h2]
  decide +kernel

theorem witness_FaultPriority :
    decode 0x80000001 = .error .reservedBits ∧ decode 0x0 = .error .reservedOpcode ∧ decode 0x11 = .error .sectorField ∧
      decode 0x9 = .ok (.vtime 0) ∧ decode 0x6 = .ok .park := by decide

theorem witness_StickyFlagsFallOnlyAtReset :
    (∃ t, step (scripted (.read 0x18 4 0) true) = .next t) ∧ nextMove (scripted (.read 0x18 4 0) true) ≠ .reset :=
  ⟨⟨_, rfl⟩, by decide⟩

theorem witness_OnlyCompletionsWriteResults :
    (∃ t, step (scripted (.write 0 4 (.word 2)) false) = .next t) ∧
      nextMove (scripted (.write 0 4 (.word 2)) false) ≠ .reset ∧
      ¬ (nextMove (scripted (.write 0 4 (.word 2)) false) = .block ∧ (scripted (.write 0 4 (.word 2)) false).busy = true) :=
  ⟨⟨_, rfl⟩, by decide, by decide⟩

theorem witness_EveryRoundingIsExact :
    configLegal {} = true ∧ configLegal { enc := .other 0 } = true ∧
      configLegal { logN := 2, rom := .stored [.rat 0, .rat 1, .rat 0, .rat (-1), .rat 0] } = true := by
  decide +kernel

/-- In the exact model and in a tolerant instance each kind of delivery gives a word. -/
theorem witness_TolerantChoicesConform :
    configLegal {} = true ∧ deliveredWord {} 0x4 [] (.plain (.rat 0)) 0 (.surd ⟨1, 0⟩) = some 0x3F800000 ∧
      (Conformance.circle (.rat 0)).tolerant = false ∧
      (∃ w, deliveredWord {} 0x4 [] (.plain (.rat 1)) 0 (.surd ⟨1, 0⟩) = some w) ∧
      (∃ w, deliveredWord {} 0xB [] (.bounded (.rat 1) 1) 0 (.surd ⟨1, 0⟩) = some w) ∧
      (∃ w, deliveredWord {} 0x1 [] (.unitRange (.rat 1) false) 0 (.table 1 1 0) = some w) ∧
      (∃ w, deliveredWord {} 0x3 [] (.circle (.rat 1)) 0 (.wrap 7) = some w) ∧
      Reference.param (Config.tolSector {}) = 0 ∧ Reference.param (Config.tolSat {}) = 0 := by
  refine ⟨default_legal, ?_, by decide, Option.ne_none_iff_exists'.1 fun h => ?_, deliveredWord_isSome rfl _ _ _ _ _,
    deliveredWord_isSome rfl _ _ _ _ _, deliveredWord_isSome rfl _ _ _ _ _, Rat.cast_zero, Rat.cast_zero⟩
  · rw [deliveredWord_plain _ _ _ (by decide)]; decide +kernel
  · exact absurd (deliveredWord_none h).1 (by decide +kernel)

/-- An instance with every tolerance, and `X_ACC = 1`. -/
def tolerantCfg : Config :=
  { tolOp := ⟨.rat (1 / 8), .rat (1 / 8), .rat (1 / 8), .rat (1 / 8), .rat (1 / 8), .rat (1 / 8), .rat (1 / 8), .rat (1 / 8),
      .rat (1 / 8), .rat (1 / 8)⟩
    tolSector := .rat (1 / 2), tolSat := .rat 1, xAcc := some (.rat 1) }

/-- Three operands of 1 in it. -/
abbrev w2 : State := placed 0x1 0x3F800000 0x3F800000 0x3F800000 tolerantCfg

theorem ok_completes {i : Instr} {g : State → Except Code Commit} {s : State}
    (h : exec i s = runCommand (operandsOf i) g s) (hr : runnable s (operandsOf i) = true) (hg : ∃ c, g s = .ok c) :
    ∃ t, exec i s = .next t ∧ t.code = .ok := by
  obtain ⟨c, hc⟩ := hg
  exact ⟨_, h.trans (runCommand_of_runnable hr g), by rw [hc]; rfl⟩

/-- In a tolerant instance every command ends with CODE 0 on operands of 1, VTIME in the vector's own sector. -/
theorem witness_TolerantChoicesConform_commands :
    configLegal w2.cfg = true ∧ operand w2 .in0 = some 1 ∧ operand w2 .in1 = some 1 ∧ operand w2 .in2 = some 1 ∧
      sectorOfBits 3 = some .s3 ∧
      ∀ i ∈ ([.sin, .cos, .norm, .clarke, .iclarke, .park, .ipark, .sector, .vtime 3, .cmap 3, .svpwm] : List Instr),
        ∃ t, exec i w2 = .next t ∧ t.code = .ok := by
  have h0 : operand w2 .in0 = some 1 := by decide +kernel
  have h1 : operand w2 .in1 = some 1 := by decide +kernel
  have h2 : operand w2 .in2 = some 1 := by decide +kernel
  have ok : ∀ reads how rs sec sat, (∀ p ∈ rs, (how p.1).mayOverflow = false ∨ p.2.enc w2.cfg ≠ none) →
      ∃ c, deliver w2 reads how rs sec sat = .ok c := fun _ _ _ _ _ h => (deliver_total h).imp' _ fun _ => id
  refine ⟨by decide +kernel, h0, h1, h2, rfl, ?_⟩
  simp only [List.mem_cons, List.not_mem_nil, or_false, forall_eq_or_imp, forall_eq]
  refine ⟨ok_completes (g := sinResult) rfl (by decide) ?_, ok_completes (g := cosResult) rfl (by decide) ?_,
    ok_completes (g := normResult) rfl (by decide) ?_, ok_completes (g := clarkeResult) rfl (by decide) ?_,
    ok_completes (g := iclarkeResult) rfl (by decide) ?_, ok_completes (g := parkResult) rfl (by decide) ?_,
    ok_completes (g := iparkResult) rfl (by decide) ?_, ok_completes (g := sectorResult) rfl (by decide) ?_,
    ok_completes (g := vtimeResult .s3) rfl (by decide) ?_, ok_completes (g := cmapResult .s3) rfl (by decide) ?_,
    ok_completes (g := svpwmResult) rfl (by decide) ?_⟩
  · simp only [sinResult, h0]; exact ok _ _ _ _ _ fun _ _ => .inl rfl
  · simp only [cosResult, h0]; exact ok _ _ _ _ _ fun _ _ => .inl rfl
  · simp only [normResult, h0]; exact ok _ _ _ _ _ fun _ _ => .inl rfl
  · simp only [clarkeResult, h0, h1]; exact ok _ _ _ _ _ fun p hp => .inr ((by decide +kernel :
      ∀ p ∈ clarkeResults 1 1, p.2.enc w2.cfg ≠ none) p hp)
  · simp only [iclarkeResult, h0, h1]; exact ok _ _ _ _ _ fun p hp => .inr ((by decide +kernel :
      ∀ p ∈ iclarkeResults 1 1, p.2.enc w2.cfg ≠ none) p hp)
  · simp only [parkResult, h0, h1, h2]; rw [if_pos (by decide +kernel)]
    exact ok _ _ _ _ _ fun p hp => .inr ((by decide +kernel : ∀ p ∈ parkResults 1 1 1, p.2.enc w2.cfg ≠ none) p hp)
  · simp only [iparkResult, h0, h1, h2]; rw [if_pos (by decide +kernel)]
    exact ok _ _ _ _ _ fun p hp => .inr ((by decide +kernel : ∀ p ∈ iparkResults 1 1 1, p.2.enc w2.cfg ≠ none) p hp)
  · simp only [sectorResult, h0, h1]; exact ⟨_, rfl⟩
  · simp only [vtimeResult, h0, h1]; rw [if_pos (by decide +kernel)]
    exact unlessOverflow_ok (ok _ _ _ _ _ fun _ _ => .inl rfl)
  · simp only [cmapResult, h0, h1, h2]; exact ok _ _ _ _ _ fun p hp => .inr ((by decide +kernel :
      ∀ p ∈ counterResults w2.cfg .s3 (.ofRat 1) (.ofRat 1) (.ofRat 1), p.2.enc w2.cfg ≠ none) p hp)
  · simp only [svpwmResult, h0, h1]
    exact unlessOverflow_ok (ok _ _ _ _ _ fun p _ => .inl (by cases p.1 <;> rfl))

/-- The edges of its bands: at `|d2| = TOL_SECTOR` and `|Tx + Ty - Ts| = TOL_SAT` nothing is asked of the draw, and with a
smaller tolerance the strict tests are; `X_ACC` itself is not beyond `X_ACC` (R112), and the next word is. -/
theorem witness_TolerantChoicesConform_edges :
    (let d := Reference.discriminants 0 ((-1 : Rat) : ℝ);
      ¬ Reference.param (.rat (1 / 2)) < |d.2.1| ∧ Reference.param (.rat (1 / 2 - 1 / 2 ^ 20)) < |d.2.1|) ∧
      (let a := Reference.activeTimes .s2 1 ((4 / 3 : Rat) : ℝ) 0;
        ¬ Reference.param (.rat 1) < |a.1 + a.2 - 1| ∧ Reference.param (.rat (1 - 1 / 2 ^ 20)) < |a.1 + a.2 - 1|) ∧
      ¬ BeyondAccuracy w2.cfg (1 : Rat) ∧ BeyondAccuracy w2.cfg (magValue 0x3F800001) := by
  refine ⟨?_, ?_, ?_, ?_⟩
  · simp only [Reference.discriminants, Reference.param]; norm_num [abs_of_pos]
  · simp only [Reference.activeTimes, Reference.param]; norm_num [abs_of_pos]
  · rw [← beyondAccuracy_iff]; decide +kernel
  · rw [← beyondAccuracy_iff]; decide +kernel

/-- The default `ENC` of a result that the enclosure decides. -/
theorem encodes_of_decided {cfg : Config} (hn : 2 ≤ cfg.logN) (hc : cfg.enc = .nearestEven) {e : Exact} {y : ℝ}
    {r : Option Word} (h : e.encDecided cfg = some r) (hy : Reference.value cfg e = y) : Encodes cfg.enc y r := by
  rw [hc, ← hy]; exact encDecided_isEnc hn h

/-- `ENC` of SIN at 1 (2.1) and of COS at 1 (2.2). -/
theorem encodes_at_one :
    Encodes w1.cfg.enc (Reference.sine w1.cfg (1 : Rat)) (some 0x3F57699B) ∧
      Encodes w1.cfg.enc (Reference.cosine w1.cfg (1 : Rat)) (some 0x3F0A5096) :=
  ⟨encodes_of_decided (by decide) rfl (e := .table 1 1 0) (by decide +kernel) (by rw [value_table (by decide)]; simp),
    encodes_of_decided (by decide) rfl (e := .table 1 0 1) (by decide +kernel) (by rw [value_table (by decide)]; simp)⟩

theorem witness_SinWritesTheInterpolatedSine :
    drawsNothing w1.cfg = true ∧ configLegal w1.cfg = true ∧ runnable w1 [.in0] = true ∧ operand w1 .in0 = some 1 ∧
      Encodes w1.cfg.enc (Reference.sine w1.cfg (1 : Rat)) (some 0x3F57699B) ∧
      ∃ v, decodeReal 0x3F57699B = some v ∧ -1 ≤ v ∧ v ≤ 1 :=
  ⟨by decide, by decide, by decide, by decide +kernel, encodes_at_one.1, magValue 0x3F57699B, by decide +kernel,
    by decide +kernel, by decide +kernel⟩

theorem witness_CosWritesTheInterpolatedCosine :
    drawsNothing w1.cfg = true ∧ configLegal w1.cfg = true ∧ runnable w1 [.in0] = true ∧ operand w1 .in0 = some 1 ∧
      Encodes w1.cfg.enc (Reference.cosine w1.cfg (1 : Rat)) (some 0x3F0A5096) ∧
      ∃ v, decodeReal 0x3F0A5096 = some v ∧ -1 ≤ v ∧ v ≤ 1 :=
  ⟨by decide, by decide, by decide, by decide +kernel, encodes_at_one.2, magValue 0x3F0A5096, by decide +kernel,
    by decide +kernel, by decide +kernel⟩

theorem witness_SinAndCosAlwaysComplete :
    configLegal w1.cfg = true ∧ runnable w1 [.in0] = true ∧ operand w1 .in0 = some 1 ∧ exactModel w1.cfg = true ∧
      w1.cfg.enc = .nearestEven := by
  decide +kernel

/-- 2.3: an angle whose result is below `2π`, and one whose result rounds to `2π`. -/
theorem witness_NormWritesTheWrappedAngle :
    (let s := placed 0x3 0x40E00000 0 0;
      drawsNothing s.cfg = true ∧ configLegal s.cfg = true ∧ runnable s [.in0] = true ∧ operand s .in0 = some 7 ∧
        Encodes s.cfg.enc (Reference.normalized (7 : Rat)) (some 0x3F37812B) ∧
        ∃ v, decodeReal 0x3F37812B = some v ∧ 0 ≤ v ∧ (v : ℝ) < 2 * Real.pi) ∧
      let s := placed 0x3 0xB22BCC77 0 0;
      runnable s [.in0] = true ∧ operand s .in0 = some (-magValue 0x322BCC77) ∧
        Encodes s.cfg.enc (Reference.normalized (-magValue 0x322BCC77 : Rat)) (some 0x40C90FDB) ∧
        ∃ v, decodeReal 0x40C90FDB = some v ∧ 0 ≤ v ∧ 2 * Real.pi ≤ (v : ℝ) := by
  have h1 : decodeReal 0x3F37812B = some (magValue 0x3F37812B) := by decide +kernel
  have h2 : decodeReal 0x40C90FDB = some (magValue 0x40C90FDB) := by decide +kernel
  refine ⟨⟨by decide, by decide, by decide, by decide +kernel,
    encodes_of_decided (by decide) rfl (e := .wrap 7) (by decide +kernel) rfl, _, h1, magValue_nonneg _,
    (belowTwoPi_iff h1).1 (by decide +kernel)⟩, by decide, by decide +kernel,
    encodes_of_decided (by decide) rfl (e := .wrap (-magValue 0x322BCC77)) (by decide +kernel) rfl, _, h2,
    magValue_nonneg _, ?_⟩
  rw [← not_lt, ← belowTwoPi_iff h2]
  decide +kernel

theorem witness_NormOutputPassesTheAngleCheck :
    configLegal w1.cfg = true ∧ runnable w1 [.in0] = true ∧ operand w1 .in0 = some 1 := by decide +kernel

/-- 2.4: `u = 1, v = 0`; and the greatest finite word twice, which overflows. -/
theorem witness_ClarkeWritesTheTransform :
    (let s := placed 0x4 0x3F800000 0 0;
      drawsNothing s.cfg = true ∧ runnable s [.in0, .in1] = true ∧ operand s .in0 = some 1 ∧ operand s .in1 = some 0 ∧
        IsEnc ((1 : Rat) : ℝ) (some 0x3F800000) ∧
        IsEnc ((((1 : Rat) : ℝ) + 2 * ((0 : Rat) : ℝ)) / Real.sqrt 3) (some 0x3F13CD3A)) ∧
      let s := placed 0x4 0x7F7FFFFF 0x7F7FFFFF 0;
      operand s .in0 = some (magValue maxMag) ∧ operand s .in1 = some (magValue maxMag) ∧
        IsEnc (((magValue maxMag : Rat) + 2 * (magValue maxMag : Rat)) / Real.sqrt 3) none := by
  refine ⟨⟨by decide, by decide, by decide +kernel, by decide +kernel, isEnc_of_encRat (by decide +kernel) rfl,
    isEnc_of_surd (x := ⟨0, 1 / 3⟩) (by decide +kernel) ?_⟩, by decide +kernel, by decide +kernel,
    isEnc_of_surd (x := ⟨0, magValue maxMag⟩) (by decide +kernel) ?_⟩
  · rw [← inv_one]; simp
  · rw [eq_div_iff sqrt3_pos.ne']
    simp only [Reference.surd]
    push_cast
    linear_combination (magValue maxMag : ℝ) * sqrt3_sq

/-- R132's example, `alpha = 0`, `beta = 1/2`; and 2.5, overflow in one result. -/
theorem witness_IclarkeWritesTheInverseTransform :
    (let s := placed 0x5 0 0x3F000000 0;
      drawsNothing s.cfg = true ∧ runnable s [.in0, .in1] = true ∧ operand s .in0 = some 0 ∧
        operand s .in1 = some (1 / 2) ∧ IsEnc ((0 : Rat) : ℝ) (some 0) ∧
        IsEnc ((-((0 : Rat) : ℝ) + Real.sqrt 3 * ((1 / 2 : Rat) : ℝ)) / 2) (some 0x3EDDB3D7) ∧
        IsEnc ((-((0 : Rat) : ℝ) - Real.sqrt 3 * ((1 / 2 : Rat) : ℝ)) / 2) (some 0xBEDDB3D7)) ∧
      let s := placed 0x5 0xFF7FFFFF 0x7F7FFFFF 0;
      operand s .in0 = some (-magValue maxMag) ∧ operand s .in1 = some (magValue maxMag) ∧
        IsEnc ((-((-magValue maxMag : Rat) : ℝ) + Real.sqrt 3 * (magValue maxMag : Rat)) / 2) none := by
  refine ⟨⟨by decide, by decide, by decide +kernel, by decide +kernel, isEnc_of_encRat (by decide +kernel) rfl,
    isEnc_of_surd (x := ⟨0, 1 / 4⟩) (by decide +kernel) ?_, isEnc_of_surd (x := ⟨0, -1 / 4⟩) (by decide +kernel) ?_⟩,
    by decide +kernel, by decide +kernel,
    isEnc_of_surd (x := ⟨magValue maxMag / 2, magValue maxMag / 2⟩) (by decide +kernel) ?_⟩ <;>
    simp only [Reference.surd] <;> push_cast <;> ring

/-- `ENC` of a combination of the interpolated sine and cosine, in the default configuration. -/
theorem encodes_table {x a b : Rat} {y : ℝ} {r : Option Word} (h : (Exact.table x a b).encDecided {} = some r)
    (hy : a * Reference.sine {} x + b * Reference.cosine {} x = y) : Encodes .nearestEven y r :=
  encodes_of_decided (cfg := {}) (by decide) rfl h ((value_table (by decide) x a b).trans hy)

/-- At 1, 1, 1; and the greatest finite words at 45°, which overflow. -/
theorem witness_ParkWritesTheRotation :
    (drawsNothing w1.cfg = true ∧ configLegal w1.cfg = true ∧ runnable w1 [.in0, .in1, .in2] = true ∧
        operand w1 .in0 = some 1 ∧ operand w1 .in1 = some 1 ∧ operand w1 .in2 = some 1 ∧
        0 ≤ ((1 : Rat) : ℝ) ∧ ((1 : Rat) : ℝ) < 2 * Real.pi ∧
        Encodes w1.cfg.enc (Reference.cosine w1.cfg (1 : Rat) * (1 : Rat) + Reference.sine w1.cfg (1 : Rat) * (1 : Rat))
          (some 0x3FB0DD18) ∧
        Encodes w1.cfg.enc (-Reference.sine w1.cfg (1 : Rat) * (1 : Rat) + Reference.cosine w1.cfg (1 : Rat) * (1 : Rat))
          (some 0xBE9A320A)) ∧
      let s := placed 0x6 0x7F7FFFFF 0x7F7FFFFF 0x3F490FDB;
      operand s .in0 = some (magValue maxMag) ∧ operand s .in1 = some (magValue maxMag) ∧
        operand s .in2 = some (magValue 0x3F490FDB) ∧
        Encodes s.cfg.enc (Reference.cosine s.cfg (magValue 0x3F490FDB) * magValue maxMag +
          Reference.sine s.cfg (magValue 0x3F490FDB) * magValue maxMag) none := by
  have h : operand w1 .in2 = some 1 := by decide +kernel
  have ha := (angleInRange_iff h).1 (by decide +kernel)
  refine ⟨⟨by decide, by decide, by decide, by decide +kernel, by decide +kernel, h, ha.1, ha.2,
    encodes_table (x := 1) (a := 1) (b := 1) (by decide +kernel) ?_,
    encodes_table (x := 1) (a := -1) (b := 1) (by decide +kernel) ?_⟩, by decide +kernel, by decide +kernel,
    by decide +kernel,
    encodes_table (x := magValue 0x3F490FDB) (a := magValue maxMag) (b := magValue maxMag) (by decide +kernel) ?_⟩
  · show _ = Reference.cosine {} _ * _ + Reference.sine {} _ * _; ring
  · show _ = -Reference.sine {} _ * _ + Reference.cosine {} _ * _; push_cast; ring
  · show _ = Reference.cosine {} _ * _ + Reference.sine {} _ * _; ring

/-- At 1, 1, 1; and the greatest finite word and its negative at 45°, which overflow. -/
theorem witness_IparkWritesTheInverseRotation :
    (drawsNothing w1.cfg = true ∧ configLegal w1.cfg = true ∧ runnable w1 [.in0, .in1, .in2] = true ∧
        operand w1 .in0 = some 1 ∧ operand w1 .in1 = some 1 ∧ operand w1 .in2 = some 1 ∧
        0 ≤ ((1 : Rat) : ℝ) ∧ ((1 : Rat) : ℝ) < 2 * Real.pi ∧
        Encodes w1.cfg.enc (Reference.cosine w1.cfg (1 : Rat) * (1 : Rat) - Reference.sine w1.cfg (1 : Rat) * (1 : Rat))
          (some 0xBE9A320A) ∧
        Encodes w1.cfg.enc (Reference.sine w1.cfg (1 : Rat) * (1 : Rat) + Reference.cosine w1.cfg (1 : Rat) * (1 : Rat))
          (some 0x3FB0DD18)) ∧
      let s := placed 0x7 0x7F7FFFFF 0xFF7FFFFF 0x3F490FDB;
      operand s .in0 = some (magValue maxMag) ∧ operand s .in1 = some (-magValue maxMag) ∧
        operand s .in2 = some (magValue 0x3F490FDB) ∧
        Encodes s.cfg.enc (Reference.cosine s.cfg (magValue 0x3F490FDB) * magValue maxMag -
          Reference.sine s.cfg (magValue 0x3F490FDB) * ((-magValue maxMag : Rat) : ℝ)) none := by
  have h : operand w1 .in2 = some 1 := by decide +kernel
  have ha := (angleInRange_iff h).1 (by decide +kernel)
  refine ⟨⟨by decide, by decide, by decide, by decide +kernel, by decide +kernel, h, ha.1, ha.2,
    encodes_table (x := 1) (a := -1) (b := 1) (by decide +kernel) ?_,
    encodes_table (x := 1) (a := 1) (b := 1) (by decide +kernel) ?_⟩, by decide +kernel, by decide +kernel,
    by decide +kernel,
    encodes_table (x := magValue 0x3F490FDB) (a := magValue maxMag) (b := magValue maxMag) (by decide +kernel) ?_⟩
  · show _ = Reference.cosine {} _ * _ - Reference.sine {} _ * _; push_cast; ring
  · show _ = Reference.sine {} _ * _ + Reference.cosine {} _ * _; ring
  · show _ = Reference.cosine {} _ * _ - Reference.sine {} _ * _; push_cast; ring

theorem witness_SectorWritesTheClassification :
    drawsNothing w1.cfg = true ∧ runnable w1 [.in0, .in1] = true ∧ operand w1 .in0 = some 1 ∧ operand w1 .in1 = some 1 := by
  decide +kernel

/-- R161's example, sector 3 at 30°; and a mismatched sector whose on-times overflow without saturation (R161). -/
theorem witness_VtimeWritesTheVectorTimes :
    (let s := placed 0x39 0x3F000000 0x3E800000 0;
      sectorOfBits 3 = some .s3 ∧ drawsNothing s.cfg = true ∧ configLegal s.cfg = true ∧
        runnable s [.in0, .in1] = true ∧ operand s .in0 = some (1 / 2) ∧ operand s .in1 = some (1 / 4) ∧
        let t := Reference.onTimes .s3 (switchingPeriod s.cfg) (busVoltage s.cfg) ((1 / 2 : Rat) : ℝ) ((1 / 4 : Rat) : ℝ)
        let i := Reference.instants .s3 (switchingPeriod s.cfg) (busVoltage s.cfg) ((1 / 2 : Rat) : ℝ) ((1 / 4 : Rat) : ℝ)
        ∃ (w0 w1 w2 wx wy : Word) (sat : Bool), IsEnc i.1 (some w0) ∧ IsEnc i.2.1 (some w1) ∧ IsEnc i.2.2 (some w2) ∧
          IsEnc t.1 (some wx) ∧ IsEnc t.2 (some wy) ∧
          (sat = true ↔ Reference.Saturates .s3 (switchingPeriod s.cfg) (busVoltage s.cfg) ((1 / 2 : Rat) : ℝ)
            ((1 / 4 : Rat) : ℝ))) ∧
      let s := placed 0x19 0x7F7FFFFF 0 0;
      sectorOfBits 1 = some .s1 ∧ operand s .in0 = some (magValue maxMag) ∧ operand s .in1 = some 0 ∧
        sectorBits .s1 ≠ BitVec.ofNat 3 (Reference.sectorNumber (magValue maxMag) ((0 : Rat) : ℝ)) ∧
        IsEnc (Reference.onTimes .s1 (switchingPeriod s.cfg) (busVoltage s.cfg) (magValue maxMag : ℝ) ((0 : Rat) : ℝ)).1
          none := by
  refine ⟨⟨rfl, by decide, by decide, by decide, by decide +kernel, by decide +kernel, ?_⟩, rfl, by decide +kernel,
    by decide +kernel, by rw [← ownSector_number]; decide +kernel, ?_⟩
  · obtain ⟨v1, v2, v3⟩ := vectorTimes_exact (placed 0x39 0x3F000000 0x3E800000 0) [.in0, .in1] .s3 (1 / 2) (1 / 4) rfl
      (by decide +kernel)
    exact ⟨_, _, _, _, _, _, isEnc_of_surd (Option.some_get (by decide +kernel)).symm (congrArg Prod.fst v3),
      isEnc_of_surd (Option.some_get (by decide +kernel)).symm (congrArg (fun p => p.2.1) v3),
      isEnc_of_surd (Option.some_get (by decide +kernel)).symm (congrArg (fun p => p.2.2) v3),
      isEnc_of_surd (Option.some_get (by decide +kernel)).symm (congrArg Prod.fst v2),
      isEnc_of_surd (Option.some_get (by decide +kernel)).symm (congrArg Prod.snd v2), v1⟩
  · obtain ⟨-, v2, -⟩ := vectorTimes_exact (placed 0x19 0x7F7FFFFF 0 0) [.in0, .in1] .s1 (magValue maxMag) 0 rfl
      (by decide +kernel)
    exact isEnc_of_surd (by decide +kernel) (congrArg Prod.fst v2)

/-- The ends and the middle of `[0, Ts]` (R166), and a time whose counter overflows. -/
theorem witness_CmapWritesTheCounters :
    (let s := placed 0x3A 0 0x3F000000 0x3F800000;
      sectorOfBits 3 = some .s3 ∧ drawsNothing s.cfg = true ∧ configLegal s.cfg = true ∧
        runnable s [.in0, .in1, .in2] = true ∧ operand s .in0 = some 0 ∧ operand s .in1 = some (1 / 2) ∧
        operand s .in2 = some 1 ∧
        IsEnc (((0 : Rat) : ℝ) * (s.cfg.maxCounter.toNat : ℝ) / (switchingPeriod s.cfg : ℝ)) (some 0) ∧
        IsEnc (((1 / 2 : Rat) : ℝ) * (s.cfg.maxCounter.toNat : ℝ) / (switchingPeriod s.cfg : ℝ)) (some 0x451C4000) ∧
        IsEnc (((1 : Rat) : ℝ) * (s.cfg.maxCounter.toNat : ℝ) / (switchingPeriod s.cfg : ℝ)) (some 0x459C4000)) ∧
      let s := placed 0x3A 0x7F7FFFFF 0 0;
      operand s .in0 = some (magValue maxMag) ∧
        IsEnc ((magValue maxMag : ℝ) * (s.cfg.maxCounter.toNat : ℝ) / (switchingPeriod s.cfg : ℝ)) none := by
  have c : ∀ (s : State) (q : Rat) (r : Option Word), (counter s.cfg (.ofRat q)).enc = r →
      IsEnc ((q : ℝ) * (s.cfg.maxCounter.toNat : ℝ) / (switchingPeriod s.cfg : ℝ)) r := fun s q r h =>
    isEnc_of_surd h (by rw [counter_surd, surd_ofRat])
  exact ⟨⟨rfl, by decide, by decide, by decide, by decide +kernel, by decide +kernel, by decide +kernel,
    c _ _ _ (by decide +kernel), c _ _ _ (by decide +kernel), c _ _ _ (by decide +kernel)⟩, by decide +kernel,
    c _ _ _ (by decide +kernel)⟩

theorem witness_SvpwmWritesTheComposedResults :
    w1.cfg.enc = .nearestEven ∧ drawsNothing w1.cfg = true ∧ configLegal w1.cfg = true ∧ runnable w1 [.in0, .in1] = true ∧
      operand w1 .in0 = some 1 ∧ operand w1 .in1 = some 1 := by decide +kernel

theorem witness_SvpwmAtTheOrigin :
    let s := placed 0xB 0 0x80000000 0;
    drawsNothing s.cfg = true ∧ configLegal s.cfg = true ∧ runnable s [.in0, .in1] = true ∧ operand s .in0 = some 0 ∧
      operand s .in1 = some 0 ∧ IsEnc ((s.cfg.maxCounter.toNat : ℝ) / 4) (some 0x449C4000) ∧
      IsEnc ((switchingPeriod s.cfg : ℝ) / 4) (some 0x3E800000) := by
  refine ⟨by decide, by decide, by decide, by decide +kernel, by decide +kernel,
    isEnc_of_encRat (x := ((placed 0xB 0 0x80000000 0).cfg.maxCounter.toNat : Rat) / 4) (by decide +kernel) ?_,
    isEnc_of_encRat (x := switchingPeriod (placed 0xB 0 0x80000000 0).cfg / 4) (by decide +kernel) ?_⟩ <;> push_cast <;> rfl

/-- CLARKE of the greatest finite word twice overflows (2.4). -/
theorem witness_OverflowOnlyWhereItIsPossible :
    ∃ t, exec .clarke (placed 0x4 0x7F7FFFFF 0x7F7FFFFF 0) = .next t ∧ t.code = .overflow := by
  have h : runnable (placed 0x4 0x7F7FFFFF 0x7F7FFFFF 0) [.in0, .in1] = true := by decide
  refine ⟨_, show runCommand [.in0, .in1] clarkeResult _ = _ from runCommand_of_runnable h _, ?_⟩
  rw [show clarkeResult (placed 0x4 0x7F7FFFFF 0x7F7FFFFF 0) = .error .overflow by decide +kernel]
  rfl

theorem witness_EveryCommandCompletes :
    (Instr.cmap 1).wellFormed = true ∧ runnable w1 (operandsOf (.cmap 1)) = true ∧ (Instr.vtime 6).wellFormed = true ∧
      runnable w1 (operandsOf (.vtime 6)) = true := by decide

theorem witness_InterpolationErrorBound : w1.cfg.rom = .reference ∧ configLegal w1.cfg = true := by decide

theorem witness_MatchingSectorTimesAreOrdered : drawsNothing w1.cfg = true ∧ configLegal w1.cfg = true := by decide

theorem witness_CountersStayInRange :
    configLegal {} = true ∧ 0 ≤ Reference.surd (.ofRat 0) ∧ Reference.surd (.ofRat 0) ≤ Reference.surd (.ofRat (1 / 2)) ∧
      Reference.surd (.ofRat (1 / 2)) ≤ Reference.surd (.ofRat 1) ∧ Reference.surd (.ofRat 1) ≤ switchingPeriod {} := by
  have h : switchingPeriod {} = 1 := by decide +kernel
  rw [h]
  refine ⟨default_legal, ?_, ?_, ?_, ?_⟩ <;> simp only [surd_ofRat] <;> norm_num

theorem witness_FrameOfNumericCommands :
    (∃ t, exec .ipark w1 = .next t) ∧ (∃ t, exec (.cmap 7) w1 = .next t) ∧
      WindowReg.out .out5 ≠ .status ∧ (∀ k ∈ resultRegisters .ipark, WindowReg.out .out5 ≠ .out k) :=
  ⟨placed_completes _ [.in0, .in1, .in2] iparkResult _ rfl (by decide), ⟨_, rfl⟩, by decide, by decide⟩

theorem witness_FrameOfSvpwmCommands :
    (∃ t, exec .sector w1 = .next t) ∧ (∃ t, exec .svpwm w1 = .next t) ∧ (∃ t, exec (.vtime 0) w1 = .next t) ∧
      WindowReg.out .out5 ≠ .status ∧ WindowReg.out .out5 ≠ .sector ∧
      (∀ k ∈ resultRegisters (.vtime 0), WindowReg.out .out5 ≠ .out k) :=
  ⟨placed_completes _ [.in0, .in1] sectorResult _ rfl (by decide),
    placed_completes _ [.in0, .in1] svpwmResult _ rfl (by decide), ⟨_, rfl⟩, by decide, by decide,
    by decide⟩

theorem witness_EveryStepKeepsTheInvariant : Inv w1 ∧ ∃ t, step w1 = .next t := by
  obtain ⟨t, ht⟩ := placed_completes .sin [.in0] sinResult (popAgenda w1) rfl (by decide)
  refine ⟨⟨by unfold sectorLegalInState; decide, fun h => absurd rfl h, fun _ => ⟨rfl, fun k h => h⟩, fun k h => ?_,
    rfl⟩, t, (show step w1 = exec .sin (popAgenda w1) by rfl).trans ht⟩
  cases k <;> cases h

end Sys2Proof.Tests
end

/-! Proofs about the state and the step (spec/10_state.md): how a command, a completion and a host move end, the invariant of
the state, the frames of the commands and of the host's accesses, and the registers of the window. -/

namespace Sys2Proof.Machine

/-! ### How a command and a completion end -/

/-- The result of a command is a fault code, or a commit of the command's shape. -/
theorem ResultShape.error_or_commit {i : Instr} {s : State} {r : Except Code Commit} (h : ResultShape i s r) :
    (∃ c, c ≠ .ok ∧ r = .error c) ∨ ∃ c, r = .ok c ∧ CommitShape i c := by
  by_cases hfin : ∀ k ∈ operandsOf i, operand s k ≠ none
  · by_cases hang : AngleFails i s
    · exact .inl ⟨.angleRange, by decide, h.angle hfin hang⟩
    · exact (h.commits hfin hang).imp (fun hr => ⟨.overflow, by decide, hr⟩) id
  · push Not at hfin
    obtain ⟨k, hk, hnone⟩ := hfin
    exact .inl ⟨.nonfinite, by decide, h.nonfinite k hk hnone⟩

/-- A well-formed command whose operands do not end it in the model-only fault completes with its result (R202). -/
theorem exec_of_runnable {i : Instr} {s : State} (hwf : i.wellFormed = true) (hrun : runnable s (operandsOf i) = true) :
    ∃ r, exec i s = .next (commit r s) ∧ ResultShape i s r := by
  obtain ⟨g, hg, hshape⟩ := exec_runs i s hwf
  exact ⟨g s, hg.trans (runCommand_of_runnable hrun g), hshape⟩

/-- A command that answers a next state made the fault entry or a commit of its shape (R30, R203). -/
theorem exec_next_cases {i : Instr} {s t : State} (h : exec i s = .next t) :
    (∃ c, c ≠ .ok ∧ t = faultEntry c s) ∨ ∃ c, CommitShape i c ∧ t = commitOk c s := by
  cases hwf : i.wellFormed with
  | false =>
    rw [exec_ill_formed i s hwf, Host.Outcome.next.injEq] at h
    exact .inl ⟨.illegalSector, by decide, h.symm⟩
  | true =>
    cases hrun : runnable s (operandsOf i) with
    | false =>
      obtain ⟨g, hg, -⟩ := exec_runs i s hwf
      rw [hg, runCommand_of_not_runnable hrun] at h
      cases h
    | true =>
      obtain ⟨r, hr, hshape⟩ := exec_of_runnable hwf hrun
      rw [hr, Host.Outcome.next.injEq] at h
      subst h
      obtain ⟨c, hc, rfl⟩ | ⟨c, rfl, hc⟩ := hshape.error_or_commit
      · exact .inl ⟨c, hc, rfl⟩
      · exact .inr ⟨c, hc, rfl⟩

/-- A completion that answers a next state made the fault entry or the commit of some command (R30, R203). -/
theorem complete_next_cases {s t : State} (h : complete s = .next t) :
    (∃ c, c ≠ .ok ∧ t = faultEntry c s) ∨ ∃ i c, CommitShape i c ∧ t = commitOk c s := by
  obtain ⟨i, -, hi⟩ | hill := complete_cases s
  · exact (exec_next_cases (hi.symm.trans h)).imp id fun hc => ⟨i, hc⟩
  · rw [hill, Host.Outcome.next.injEq] at h
    exact .inl ⟨.illegalOp, by decide, h.symm⟩

/-- A completion that answers a next state made some commit, so `commit_frame` holds of it (R30). -/
theorem complete_next_commit {s t : State} (h : complete s = .next t) : ∃ r, t = commit r s := by
  obtain ⟨c, -, rfl⟩ | ⟨-, c, -, rfl⟩ := complete_next_cases h
  · exact ⟨.error c, rfl⟩
  · exact ⟨.ok c, rfl⟩

/-! ### The next move -/

/-- In a legal configuration a step is the next agent's move (R233, R241). -/
theorem step_of_legal {s : State} (h : configLegal s.cfg = true) : step s = move (nextMove s) (popAgenda s) := if_pos h

/-- The block's move with a command in flight is its completion (R30). -/
theorem step_of_block_busy {s : State} (h : configLegal s.cfg = true) (hm : nextMove s = .block) (hb : s.busy = true) :
    step s = complete (popAgenda s) := by
  rw [step_of_legal h, hm]
  exact if_pos hb

/-- A completion of a word that decodes runs that command (R71). -/
theorem complete_of_decode {s : State} {i : Instr} (h : decode s.lcmd = .ok i) : complete s = exec i s := by
  unfold complete
  rw [h]

/-- The block's move while idle takes the move off the agenda (R30). -/
theorem step_of_block_idle {s : State} (h : configLegal s.cfg = true) (hm : nextMove s = .block) (hb : s.busy = false) :
    step s = .next (popAgenda s) := by
  rw [step_of_legal h, hm]
  exact if_neg (by simp [hb])

/-- The host's move is its script line (R83). -/
theorem step_of_host {s : State} (h : configLegal s.cfg = true) (hm : nextMove s = .host) :
    step s = hostMove (popAgenda s) := by
  rw [step_of_legal h, hm]
  rfl

/-! ### What a host move leaves unchanged -/

/-- What no host access changes: the results, the codes, the sticky flags once set, the constants; and, with a command in
flight, BUSY, CMD and the latches (10_state.md R22, R27 to R30, 60_exceptions.md R207). -/
structure HostFrame (s t : State) : Prop where
  out      : t.out = s.out
  sector   : t.sector = s.sector
  sat      : t.sat = s.sat
  code     : t.code = s.code
  fault    : t.fault = s.fault
  cfg      : t.cfg = s.cfg
  resets   : t.resets = s.resets
  ovr      : s.ovr = true → t.ovr = true
  inFlight : s.busy = true → t.busy = true ∧ t.cmd = s.cmd ∧ t.lcmd = s.lcmd ∧ t.lin = s.lin

theorem HostFrame.refl (s : State) : HostFrame s s :=
  ⟨rfl, rfl, rfl, rfl, rfl, rfl, rfl, id, fun hb => ⟨hb, rfl, rfl, rfl⟩⟩

theorem HostFrame.trans {s t u : State} (h : HostFrame s t) (h' : HostFrame t u) : HostFrame s u where
  out := h'.out.trans h.out
  sector := h'.sector.trans h.sector
  sat := h'.sat.trans h.sat
  code := h'.code.trans h.code
  fault := h'.fault.trans h.fault
  cfg := h'.cfg.trans h.cfg
  resets := h'.resets.trans h.resets
  ovr := fun ho => h'.ovr (h.ovr ho)
  inFlight := fun hb => by
    obtain ⟨busy, cmd, lcmd, lin⟩ := h.inFlight hb
    obtain ⟨busy', cmd', lcmd', lin'⟩ := h'.inFlight busy
    exact ⟨busy', cmd'.trans cmd, lcmd'.trans lcmd, lin'.trans lin⟩

theorem popAgenda_hostFrame (s : State) : HostFrame s (popAgenda s) := by constructor <;> simp

theorem hostGoto_hostFrame (n : Nat) (s : State) : HostFrame s (hostGoto n s) := by constructor <;> simp

theorem hostAssign_hostFrame (k : Nat) (w : Word) (s : State) : HostFrame s (hostAssign k w s) := by
  constructor <;> simp

theorem writeIn_hostFrame (k : InReg) (w : Word) (s : State) : HostFrame s (writeIn k w s) := by constructor <;> simp

theorem setOverrun_hostFrame (s : State) : HostFrame s (setOverrun s) := by constructor <;> simp

theorem accept_hostFrame (c : Word) (s : State) (h : s.busy = false) : HostFrame s (accept c s) := by
  constructor <;> simp [h]

/-- Everything a host write can do: nothing, a drop, an acceptance, or an operand write (R24, R26, R56). -/
theorem writeRegister_cases (r : WindowReg) (w : Word) (s : State) :
    writeRegister r w s = s ∨ (s.busy = true ∧ writeRegister r w s = setOverrun s) ∨
      (s.busy = false ∧ writeRegister r w s = accept w s) ∨ ∃ k, writeRegister r w s = writeIn k w s := by
  cases r with
  | cmd =>
    cases hb : s.busy with
    | true => exact .inr (.inl ⟨rfl, if_pos hb⟩)
    | false => exact .inr (.inr (.inl ⟨rfl, if_neg (by simp [hb])⟩))
  | inp k => exact .inr (.inr (.inr ⟨k, rfl⟩))
  | _ => exact .inl rfl

theorem writeRegister_hostFrame (r : WindowReg) (w : Word) (s : State) : HostFrame s (writeRegister r w s) := by
  obtain h | ⟨-, h⟩ | ⟨hb, h⟩ | ⟨k, h⟩ := writeRegister_cases r w s <;> rw [h]
  · exact .refl s
  · exact setOverrun_hostFrame s
  · exact accept_hostFrame w s hb
  · exact writeIn_hostFrame k w s

theorem hostMove_hostFrame {s t : State} (h : hostMove s = .next t) : HostFrame s t := by
  obtain rfl | ⟨r, w, rfl⟩ | ⟨r, dst, rfl⟩ | ⟨n, rfl⟩ := hostMove_cases h
  · exact .refl _
  · exact (hostGoto_hostFrame _ s).trans (writeRegister_hostFrame r w _)
  · exact (hostGoto_hostFrame _ s).trans (hostAssign_hostFrame _ _ _)
  · exact hostGoto_hostFrame n s

/-- The frame of the host's move as a step. -/
theorem step_hostFrame {s t : State} (h : hostMove (popAgenda s) = .next t) : HostFrame s t :=
  (popAgenda_hostFrame s).trans (hostMove_hostFrame h)

/-! ### The invariant -/

theorem inv_popAgenda {s : State} (h : Inv s) : Inv (popAgenda s) :=
  ⟨h.sector, h.fault, h.latches, h.results, h.vars⟩

theorem inv_hostGoto {s : State} (h : Inv s) (n : Nat) : Inv (hostGoto n s) :=
  ⟨h.sector, h.fault, h.latches, h.results, h.vars⟩

theorem inv_setOverrun {s : State} (h : Inv s) : Inv (setOverrun s) :=
  ⟨h.sector, h.fault, h.latches, h.results, h.vars⟩

theorem inv_hostAssign {s : State} (h : Inv s) (k : Nat) (w : Word) : Inv (hostAssign k w s) :=
  ⟨h.sector, h.fault, h.latches, h.results, setVar_rising _ k w h.vars⟩

theorem inv_accept {s : State} (h : Inv s) (c : Word) : Inv (accept c s) :=
  ⟨h.sector, h.fault, fun _ => ⟨rfl, fun _ hk => hk⟩, h.results, h.vars⟩

/-- An operand write sets one written mark and clears none. -/
theorem inv_writeIn {s : State} (h : Inv s) (k : InReg) (w : Word) : Inv (writeIn k w s) := by
  obtain ⟨sector, fault, latches, results, vars⟩ := h
  refine ⟨sector, fault, fun hb => ⟨(latches hb).1, fun j hj => ?_⟩, results, vars⟩
  by_cases hjk : j = k
  · simp [hjk]
  · simpa [InRegs.get_set_of_ne _ _ hjk] using (latches hb).2 j hj

theorem inv_writeRegister {s : State} (h : Inv s) (r : WindowReg) (w : Word) : Inv (writeRegister r w s) := by
  obtain hw | ⟨-, hw⟩ | ⟨-, hw⟩ | ⟨k, hw⟩ := writeRegister_cases r w s <;> rw [hw]
  · exact h
  · exact inv_setOverrun h
  · exact inv_accept h w
  · exact inv_writeIn h k w

theorem inv_hostMove {s t : State} (h : Inv s) (ht : hostMove s = .next t) : Inv t := by
  obtain rfl | ⟨r, w, rfl⟩ | ⟨r, dst, rfl⟩ | ⟨n, rfl⟩ := hostMove_cases ht
  · exact h
  · exact inv_writeRegister (inv_hostGoto h _) r w
  · exact inv_hostAssign (inv_hostGoto h _) dst _
  · exact inv_hostGoto h n

theorem inv_faultEntry {s : State} (h : Inv s) {c : Code} (hc : c ≠ .ok) : Inv (faultEntry c s) := by
  obtain ⟨sector, -, -, results, vars⟩ := h
  exact ⟨sector, fun _ => by simp [hc], fun hb => absurd hb (by simp), results, vars⟩

/-- A commit names finite words and no sector 7 (R28, R77). -/
theorem inv_commitOk {s : State} (h : Inv s) {i : Instr} {c : Commit} (hc : CommitShape i c) : Inv (commitOk c s) := by
  obtain ⟨sector, -, -, results, vars⟩ := h
  refine ⟨?_, fun hcode => absurd rfl hcode, fun hb => absurd hb (by simp), fun k hk => ?_, vars⟩
  · show c.sector.getD s.sector ≠ 7
    cases hs : c.sector with
    | none => exact sector
    | some x => exact hc.sector x hs
  · simp only [commitOk_out] at hk ⊢
    obtain hold | ⟨w, hw, hnew⟩ := writeOuts_get_cases c.outs s.out k
    · rw [hold] at hk ⊢
      exact results k hk
    · rw [hnew]
      exact hc.finite k w hw

theorem inv_complete {s t : State} (h : Inv s) (ht : complete s = .next t) : Inv t := by
  obtain ⟨c, hc, rfl⟩ | ⟨i, c, hc, rfl⟩ := complete_next_cases ht
  · exact inv_faultEntry h hc
  · exact inv_commitOk h hc

/-- A reset clears what the invariant speaks of, but the host's variables. -/
theorem inv_resetBlock {s : State} (h : Inv s) : Inv (resetBlock s) where
  sector := by simp [sectorLegalInState]
  fault := fun hcode => absurd rfl hcode
  latches := fun hb => absurd hb (by simp)
  results := fun k hk => absurd hk (by simp [Reg.unwritten])
  vars := h.vars

/-- Settles O60: each of the four moves keeps the invariant. -/
theorem everyStepKeepsTheInvariant : Obligations.EveryStepKeepsTheInvariant := by
  intro s t hinv hstep
  have hpop : Inv (popAgenda s) := inv_popAgenda hinv
  obtain ⟨-, ⟨-, -, hc⟩ | ⟨-, -, rfl⟩ | ⟨-, hh⟩ | ⟨-, rfl⟩⟩ := step_cases hstep
  · exact inv_complete hpop hc
  · exact hpop
  · exact inv_hostMove hpop hh
  · exact inv_resetBlock hpop

/-! ### What every step keeps -/

/-- Settles O7: no move writes the configuration. -/
theorem noStepChangesTheConfiguration : Obligations.NoStepChangesTheConfiguration := by
  intro s t hstep
  obtain ⟨-, ⟨-, -, hc⟩ | ⟨-, -, rfl⟩ | ⟨-, hh⟩ | ⟨-, rfl⟩⟩ := step_cases hstep
  · obtain ⟨r, rfl⟩ := complete_next_commit hc
    obtain ⟨-, -, -, hcfg, -⟩ := commit_frame r (popAgenda s)
    exact hcfg
  · rfl
  · exact (step_hostFrame hh).cfg
  · rfl

/-- A commit never clears FAULT (R25). -/
theorem commit_fault_of_fault (r : Except Code Commit) {s : State} (h : s.fault = true) : (commit r s).fault = true := by
  cases r <;> simp [h]

/-- Settles O29: a completion and a host move set FAULT and OVR and never clear them. -/
theorem stickyFlagsFallOnlyAtReset : Obligations.StickyFlagsFallOnlyAtReset := by
  intro s t hstep hreset
  obtain ⟨-, ⟨-, -, hc⟩ | ⟨-, -, rfl⟩ | ⟨-, hh⟩ | ⟨hr, -⟩⟩ := step_cases hstep
  · obtain ⟨r, rfl⟩ := complete_next_commit hc
    obtain ⟨-, hovr, -⟩ := commit_frame r (popAgenda s)
    exact ⟨fun hf => commit_fault_of_fault r hf, fun ho => hovr.trans ho⟩
  · exact ⟨id, id⟩
  · have frame := step_hostFrame hh
    exact ⟨fun hf => frame.fault.trans hf, frame.ovr⟩
  · exact absurd hr hreset

/-- Settles O30: an idle block's move changes the agenda alone, and a host move has the host's frame. -/
theorem onlyCompletionsWriteResults : Obligations.OnlyCompletionsWriteResults := by
  intro s t hstep hreset hcomplete
  obtain ⟨-, ⟨hm, hb, -⟩ | ⟨-, -, rfl⟩ | ⟨-, hh⟩ | ⟨hr, -⟩⟩ := step_cases hstep
  · exact absurd ⟨hm, hb⟩ hcomplete
  · exact ⟨rfl, rfl, rfl, rfl, rfl⟩
  · have frame := step_hostFrame hh
    exact ⟨frame.out, frame.sector, frame.sat, frame.code, frame.fault⟩
  · exact absurd hr hreset

/-! ### Reads of the window -/

/-- A register other than STATUS reads the same in two states that agree on what it shows. -/
theorem readRegister_congr {s t : State} {r : WindowReg} (hstatus : r ≠ .status) (hcmd : t.cmd = s.cmd)
    (hresets : t.resets = s.resets) (hcfg : t.cfg = s.cfg) (hin : ∀ k, r = .inp k → t.inp.get k = s.inp.get k)
    (hsector : r = .sector → t.sector = s.sector) (hout : ∀ k, r = .out k → t.out.get k = s.out.get k) :
    readRegister t r = readRegister s r := by
  cases r with
  | cmd => exact hcmd
  | status => exact absurd rfl hstatus
  | inp k => simp only [readRegister, hresets, hin k rfl]
  | sector => simp only [readRegister, hsector rfl]
  | out k => simp only [readRegister, hresets, hout k rfl]
  | cfgN => simp only [readRegister, hcfg]
  | cfgTs => simp only [readRegister, hcfg]
  | cfgUdc => simp only [readRegister, hcfg]
  | cfgMaxc => simp only [readRegister, hcfg]

/-- A 32-bit access at BASE plus a register's offset reaches it (R23, R50). -/
theorem accessed_offsetOf (cfg : Config) (r : WindowReg) : accessed cfg (cfg.base + offsetOf r) 4 = some r := by
  obtain ⟨haligned, hat⟩ := registerAt_offsetOf r
  simp [accessed, haligned, hat]

/-- The byte of the window at a register's offset plus `b` is byte `b` of what the register reads as (R52). -/
theorem windowByte_offsetOf (s : State) (r : WindowReg) {b : Nat} (hb : b < 4) :
    windowByte s (s.cfg.base + offsetOf r + b) = some ((readRegister s r).extractLsb' (8 * b) 8) := by
  obtain ⟨haligned, hat⟩ := registerAt_offsetOf r
  have hdiff : s.cfg.base + offsetOf r + b - s.cfg.base = offsetOf r + b := by omega
  have hdiv : (offsetOf r + b) / 4 = offsetOf r / 4 := by omega
  have hmod : (offsetOf r + b) % 4 = b := by omega
  have hbase : s.cfg.base ≤ s.cfg.base + offsetOf r + b := by omega
  simp only [windowByte, if_pos hbase, hdiff, hdiv, hmod, hat, Option.map_some]

/-- Settles O19: the registers that keep their words are those the host's frame covers. -/
theorem resultsAreStaleUntilCompletion : Obligations.ResultsAreStaleUntilCompletion := by
  intro s t hbusy hnext hstep
  obtain ⟨hlegal, -⟩ := step_cases hstep
  have frame := step_hostFrame ((step_of_host hlegal hnext).symm.trans hstep)
  obtain ⟨busy, cmd, lcmd, lin⟩ := frame.inFlight hbusy
  refine ⟨fun r hstatus hin => ?_, busy, frame.fault, frame.sat, frame.code, lcmd, lin⟩
  exact readRegister_congr hstatus cmd frame.resets frame.cfg (fun k hk => absurd hk (hin k)) (fun _ => frame.sector)
    fun k _ => by rw [frame.out]

/-! ### A command and an operand write -/

/-- A command commutes with an update that changes neither its checks nor its result, and that commutes with commits. -/
theorem runCommand_mapNext {f : State → State} {reads : List InReg} {result : State → Except Code Commit} {s : State}
    (hrun : runnable (f s) reads = runnable s reads) (hresult : result (f s) = result s)
    (hcommit : ∀ r, commit r (f s) = f (commit r s)) :
    runCommand reads result (f s) = mapNext f (runCommand reads result s) := by
  cases h : runnable s reads with
  | false => rw [runCommand_of_not_runnable h, runCommand_of_not_runnable (hrun.trans h)]; rfl
  | true => rw [runCommand_of_runnable h, runCommand_of_runnable (hrun.trans h), hresult, hcommit]; rfl

/-- A commit does not look at IN0 to IN2. -/
theorem commit_writeIn (k : InReg) (w : Word) (r : Except Code Commit) (s : State) :
    commit r (writeIn k w s) = writeIn k w (commit r s) := by
  cases r <;> rfl

/-- A command that computes from its latches commutes with an operand write. -/
theorem runCommand_writeIn (k : InReg) (w : Word) {reads : List InReg} {result : State → Except Code Commit} {s : State}
    (hresult : result (writeIn k w s) = result s) :
    runCommand reads result (writeIn k w s) = mapNext (writeIn k w) (runCommand reads result s) :=
  runCommand_mapNext rfl hresult fun r => commit_writeIn k w r s

/-- Settles O20: every command's result is computed from its latches, the configuration and LCMD, which the write leaves. -/
theorem lateOperandWritesDoNotReachTheCommand : Obligations.LateOperandWritesDoNotReachTheCommand := by
  intro i s k w
  cases i with
  | sin => exact runCommand_writeIn k w rfl
  | cos => exact runCommand_writeIn k w rfl
  | norm => exact runCommand_writeIn k w rfl
  | clarke => exact runCommand_writeIn k w rfl
  | iclarke => exact runCommand_writeIn k w rfl
  | park => exact runCommand_writeIn k w rfl
  | ipark => exact runCommand_writeIn k w rfl
  | sector => exact runCommand_writeIn k w rfl
  | vtime sec =>
    simp only [exec, execVtime]
    cases sectorOfBits sec with
    | none => rfl
    | some x => exact runCommand_writeIn k w rfl
  | cmap sec =>
    simp only [exec, execCmap]
    cases sectorOfBits sec with
    | none => rfl
    | some x => exact runCommand_writeIn k w rfl
  | svpwm => exact runCommand_writeIn k w rfl

/-! ### Completion and the frames of the commands -/

/-- Settles O48: a command that runs ends in a commit, and a commit clears BUSY. -/
theorem everyCommandCompletes : Obligations.EveryCommandCompletes := by
  intro i s hwf hrun
  obtain ⟨r, hr, -⟩ := exec_of_runnable hwf hrun
  obtain ⟨-, -, -, -, -, -, -, -, -, hbusy⟩ := commit_frame r s
  exact ⟨commit r s, hr, hbusy⟩

/-- What no commit changes, as the frames name it (R30, R203). -/
theorem commit_sameOutsideResults (r : Except Code Commit) (s : State) : SameOutsideResults s (commit r s) := by
  obtain ⟨cmd, ovr, inp, cfg, lcmd, lin, resets, agenda, host, -⟩ := commit_frame r s
  exact ⟨cmd, ovr, inp, cfg, lcmd, lin, resets, agenda, host⟩

/-- The frame of every command: SAT, SECTOR and the OUT registers change only where R79 lists them. -/
structure ExecFrame (i : Instr) (s t : State) : Prop where
  same   : SameOutsideResults s t
  sat    : namesSat i = false → t.sat = s.sat
  sector : namesSector i = false → t.sector = s.sector
  out    : ∀ k, k ∉ resultRegisters i → t.out.get k = s.out.get k

theorem exec_frame {i : Instr} {s t : State} (h : exec i s = .next t) : ExecFrame i s t := by
  obtain ⟨c, -, rfl⟩ | ⟨c, ⟨houts, -, -, hsector, hsat⟩, rfl⟩ := exec_next_cases h
  · exact ⟨commit_sameOutsideResults (.error c) s, fun _ => rfl, fun _ => rfl, fun _ _ => rfl⟩
  · refine ⟨commit_sameOutsideResults (.ok c) s, fun hn => ?_, fun hn => ?_, fun k hk => ?_⟩
    · rw [hn, Option.isSome_eq_false_iff, Option.isNone_iff_eq_none] at hsat
      simp [hsat]
    · rw [hn, Option.isSome_eq_false_iff, Option.isNone_iff_eq_none] at hsector
      simp [hsector]
    · exact writeOuts_get_of_not_mem c.outs s.out k (houts ▸ hk)

/-- The bytes of the window a command leaves: all but those of STATUS, of SECTOR where it names it, and of its results. -/
theorem windowByte_of_execFrame {i : Instr} {s t : State} (h : ExecFrame i s t) {r : WindowReg} {b : Nat}
    (hstatus : r ≠ .status) (hsector : r = .sector → namesSector i = false) (hout : ∀ k ∈ resultRegisters i, r ≠ .out k)
    (hb : b < 4) :
    windowByte t (s.cfg.base + offsetOf r + b) = windowByte s (s.cfg.base + offsetOf r + b) := by
  obtain ⟨cmd, -, inp, cfg, -, -, resets, -, -⟩ := h.same
  have hread : readRegister t r = readRegister s r :=
    readRegister_congr hstatus cmd resets cfg (fun k _ => by rw [inp]) (fun hr => h.sector (hsector hr)) fun k hr =>
      h.out k fun hk => hout k hk hr
  rw [windowByte_offsetOf s r hb, ← cfg, windowByte_offsetOf t r hb, hread]

/-- Settles O57: R79 names neither SAT nor SECTOR for these eight commands. -/
theorem frameOfNumericCommands : Obligations.FrameOfNumericCommands := by
  intro i s t hi hexec
  have frame := exec_frame hexec
  have hnames : namesSat i = false ∧ namesSector i = false := by
    obtain rfl | rfl | rfl | rfl | rfl | rfl | rfl | ⟨sec, rfl⟩ := hi <;> exact ⟨rfl, rfl⟩
  obtain ⟨hsat, hsector⟩ := hnames
  exact ⟨frame.same, frame.sat hsat, frame.sector hsector, frame.out, fun r b hstatus hout hb =>
    windowByte_of_execFrame frame hstatus (fun _ => hsector) hout hb⟩

/-- Settles O58: R79 does not name SAT for SECTOR, nor SECTOR for VTIME. -/
theorem frameOfSvpwmCommands : Obligations.FrameOfSvpwmCommands := by
  intro i s t _ hexec
  have frame := exec_frame hexec
  refine ⟨frame.same, ?_, ?_, frame.out, fun r b hstatus hsector hout hb =>
    windowByte_of_execFrame frame hstatus (fun hr => absurd hr hsector) hout hb⟩
  · rintro rfl
    exact frame.sat rfl
  · rintro ⟨sec, rfl⟩
    exact frame.sector rfl

/-! ### The step -/

/-- Settles O4: the agenda's first move decides, and each agent's move is what the step makes. -/
theorem stepRunsTheDecodedCommand : Obligations.StepRunsTheDecodedCommand := by
  intro s hlegal
  refine ⟨fun i hm hb hi => ?_, step_of_block_busy hlegal, step_of_block_idle hlegal, step_of_host hlegal,
    fun m rest ha => ?_, fun ha => ?_, rfl, rfl⟩
  · exact (step_of_block_busy hlegal hm hb).trans (complete_of_decode hi)
  · simp [nextMove, ha]
  · simp [nextMove, ha]

/-- Settles O5: the placed word is in LCMD, BUSY is set and the block is first on the agenda. -/
theorem placedWordRunsNext : Obligations.PlacedWordRunsNext := by
  intro s nbits w i hlegal hi
  have hplace : s.withFetchWord nbits w.toNat = placeCommand w s := by simp [State.withFetchWord]
  have hstep : step (placeCommand w s) = complete (popAgenda (placeCommand w s)) := step_of_block_busy hlegal rfl rfl
  rw [hplace, hstep]
  exact complete_of_decode hi

/-! ### The registers -/

/-- Settles O9, by evaluation of the one state it is about. -/
theorem powerUpValues : Obligations.PowerUpValues := by
  refine ⟨rfl, by decide, by decide, by decide, rfl, fun k => ?_, fun k => ?_⟩
  · exact congrArg Reg.written (InRegs.unwritten_get k)
  · exact congrArg Reg.written (OutRegs.unwritten_get k)

/-- Settles O10: an access at a register's offset finds it in the map, and the offsets are the map's. -/
theorem everyRegisterAtItsOffset : Obligations.EveryRegisterAtItsOffset := ⟨accessed_offsetOf, rfl⟩

/-- BUSY, FAULT, OVR and SAT stand in bits 0 to 3 (R25). -/
theorem statusWord_flags (s : State) :
    (statusWord s).getLsbD 0 = s.busy ∧ (statusWord s).getLsbD 1 = s.fault ∧ (statusWord s).getLsbD 2 = s.ovr ∧
      (statusWord s).getLsbD 3 = s.sat := by
  simp only [statusWord, BitVec.getLsbD_append, BitVec.getLsbD_ofBool]
  simp

/-- From bit 4 on STATUS holds CODE and zeros (R25). -/
theorem statusWord_getLsbD_add_four (s : State) (j : Nat) :
    (statusWord s).getLsbD (4 + j) = (decide (j < 4) && (codeBits s.code).getLsbD j) := by
  simp only [statusWord, BitVec.getLsbD_append, show ¬ 4 + j < 1 by omega, show ¬ 4 + j - 1 < 1 by omega,
    show ¬ 4 + j - 1 - 1 < 1 by omega, show ¬ 4 + j - 1 - 1 - 1 < 1 by omega, show 4 + j - 1 - 1 - 1 - 1 = j by omega]
  by_cases hj : j < 4 <;> simp [hj]

/-- CODE stands in bits 7:4 (R25). -/
theorem statusWord_code (s : State) : (statusWord s).extractLsb' 4 4 = codeBits s.code := by
  ext j hj
  simp [statusWord_getLsbD_add_four, hj]

/-- Bits 31:8 read as 0 (R25). -/
theorem statusWord_reserved (s : State) : (statusWord s).extractLsb' 8 24 = 0 := by
  ext j hj
  rw [BitVec.getElem_extractLsb', show 8 + j = 4 + (4 + j) by omega, statusWord_getLsbD_add_four]
  simp

/-- Settles O15: the flags, the reserved bits and CODE at their places, and the number of each code. -/
theorem statusFields : Obligations.StatusFields := by
  intro s
  obtain ⟨busy, fault, ovr, sat⟩ := statusWord_flags s
  have hcode : ∀ c, s.code = c → (statusWord s).extractLsb' 4 4 = codeBits c := fun c hc => hc ▸ statusWord_code s
  exact ⟨busy, fault, ovr, sat, statusWord_reserved s, hcode .ok, hcode .illegalOp, hcode .illegalSector,
    hcode .nonfinite, hcode .angleRange, hcode .overflow⟩

/-- Settles O16: `N` is at most `2^16`, so CFG_N holds it, and `Ts` and `Udc` are the values of their words. -/
theorem configurationRegisters : Obligations.ConfigurationRegisters := by
  intro s hlegal
  have hlt : 2 ^ s.cfg.logN < 2 ^ 32 :=
    Nat.pow_lt_pow_right (by decide) (Nat.lt_of_le_of_lt (configLegal_logN hlegal).2 (by decide))
  refine ⟨?_, (switchingPeriod_spec hlegal).1, (busVoltage_spec hlegal).1, rfl⟩
  simp only [readRegister, tableSize, BitVec.toNat_ofNat]
  exact Nat.mod_eq_of_lt hlt

/-- Settles O17: an idle block accepts, a busy one sets OVR. -/
theorem commandWrites : Obligations.CommandWrites := by
  intro s c
  refine ⟨fun hb => ?_, fun hb => ?_⟩
  · have hw : writeRegister .cmd c s = accept c s := if_neg (by simp [hb])
    rw [hw]
    exact ⟨rfl, rfl⟩
  · have hw : writeRegister .cmd c s = setOverrun s := if_pos hb
    rw [hw]
    exact ⟨rfl, rfl⟩

/-- Settles O18: a written register reads its word, and the write changes IN0 to IN2 alone. -/
theorem operandWriteReadsBack : Obligations.OperandWriteReadsBack := by
  intro s k w
  refine ⟨by simp [writeRegister, readRegister, contents], fun r hr => ?_, rfl⟩
  by_cases hstatus : r = .status
  · subst hstatus
    rfl
  · refine readRegister_congr hstatus rfl rfl rfl (fun j hj => ?_) (fun _ => rfl) fun _ _ => rfl
    subst hj
    exact InRegs.get_set_of_ne _ _ fun hjk => hr (congrArg WindowReg.inp hjk)

end Sys2Proof.Machine

/-! Proofs about the host's window (spec/20_memory.md): what each line of the host's script does, which accesses are refused,
the byte view, and writes to read-only registers. -/

namespace Sys2Proof.Machine

/-! ### The lines of the host's script -/

/-- RD is the line's access (R83). -/
theorem hostMove_of_read {s : State} {addr size dst : Nat} (h : s.host.script[s.host.next]? = some (.read addr size dst)) :
    hostMove s = hostRead addr size dst s := by
  simp only [hostMove, h]

/-- WR is the line's access (R83). -/
theorem hostMove_of_write {s : State} {addr size : Nat} {src : Source}
    (h : s.host.script[s.host.next]? = some (.write addr size src)) : hostMove s = hostWrite addr size src s := by
  simp only [hostMove, h]

/-- BNZ on a variable that has been read goes to its target or to the next line (R83). -/
theorem hostMove_of_branch {s : State} {k bit target : Nat} {v : Word}
    (h : s.host.script[s.host.next]? = some (.branchIfSet k bit target)) (hv : lookupVar s.host.vars k = some v) :
    hostMove s = .next (hostGoto (if v.getLsbD bit then target else s.host.next + 1) s) := by
  simp only [hostMove, h, hostBranch, hv]

/-- A word given is the word written (R83). -/
theorem evalSource_word (s : State) (w : Word) : evalSource s (.word w) = .ok w := rfl

/-- A variable that has been read gives its word (R83). -/
theorem evalSource_var {s : State} {k : Nat} {v : Word} (h : lookupVar s.host.vars k = some v) :
    evalSource s (.var k) = .ok v := by
  simp only [evalSource, sourceVar, h, sourceWord]

/-- `@SECTOR` on a variable that has been read forms the command word from its bits 2:0 (R83, R238). -/
theorem evalSource_sectorCommand {s : State} {k : Nat} {v : Word} (op : BitVec 4) (h : lookupVar s.host.vars k = some v) :
    evalSource s (.sectorCommand op k) = .ok ((0 : BitVec 25) ++ v.extractLsb' 0 3 ++ op) := by
  simp only [evalSource, sourceVar, h, sourceWord]

/-! ### Which accesses the block defines -/

/-- The window ends after its sixteenth register (10_state.md R23). -/
theorem registerAt_of_ge {j : Nat} (h : 16 ≤ j) : registerAt j = none := by
  obtain ⟨k, rfl⟩ := Nat.exists_eq_add_of_le' h
  rfl

/-- An access of another size, outside the window or between its words reaches no register (R51). -/
theorem accessed_eq_none {cfg : Config} {addr size : Nat}
    (h : size ≠ 4 ∨ addr < cfg.base ∨ cfg.base + 0x40 ≤ addr ∨ (addr - cfg.base) % 4 ≠ 0) :
    accessed cfg addr size = none := by
  by_cases hword : size = 4 ∧ cfg.base ≤ addr ∧ (addr - cfg.base) % 4 = 0
  · rw [accessed, if_pos hword]
    exact registerAt_of_ge (by omega)
  · exact if_neg hword

/-- A read the block defines keeps the register's word and moves to the next line (R50, R83). -/
theorem hostRead_of_accessed {s : State} {addr size : Nat} {r : WindowReg} (dst : Nat)
    (h : accessed s.cfg addr size = some r) :
    hostRead addr size dst s = .next (hostAssign dst (readRegister s r) (hostGoto (s.host.next + 1) s)) := by
  simp only [hostRead, h]

/-- Any other read is refused (R51). -/
theorem hostRead_of_not_accessed {s : State} {addr size : Nat} (dst : Nat) (h : accessed s.cfg addr size = none) :
    hostRead addr size dst s = .refused (.busError addr size) := by
  simp only [hostRead, h]

/-- A write the block defines, of a source that has a word, moves to the next line and writes it (R50, R83). -/
theorem hostWrite_of_accessed {s : State} {addr size : Nat} {r : WindowReg} {src : Source} {w : Word}
    (hsrc : evalSource s src = .ok w) (h : accessed s.cfg addr size = some r) :
    hostWrite addr size src s = .next (writeRegister r w (hostGoto (s.host.next + 1) s)) := by
  simp only [hostWrite, hsrc, h]

/-- Any other write of a source that has a word is refused (R51). -/
theorem hostWrite_of_not_accessed {s : State} {addr size : Nat} {src : Source} {w : Word}
    (hsrc : evalSource s src = .ok w) (h : accessed s.cfg addr size = none) :
    hostWrite addr size src s = .refused (.busError addr size) := by
  simp only [hostWrite, hsrc, h]

/-! ### The statements -/

/-- Settles O11: the access finds its register by `accessed_offsetOf`, and the source gives the word the statement names. -/
theorem hostAccessReachesTheRegister : Obligations.HostAccessReachesTheRegister := by
  intro s r
  have haccess := accessed_offsetOf s.cfg r
  refine ⟨fun dst hline => ?_, fun src w hline hsrc => ?_, fun k bit target v hline hv => hostMove_of_branch hline hv⟩
  · exact ⟨_, (hostMove_of_read hline).trans (hostRead_of_accessed dst haccess), rfl, rfl, rfl,
      lookupVar_setVar s.host.vars dst _, fun k hk => lookupVar_setVar_of_ne s.host.vars _ hk⟩
  · have hword : evalSource s src = .ok w := by
      obtain rfl | ⟨k, rfl, hk⟩ | ⟨op, k, v, rfl, hk, rfl⟩ := hsrc
      · exact evalSource_word s w
      · exact evalSource_var hk
      · exact evalSource_sectorCommand op hk
    exact (hostMove_of_write hline).trans (hostWrite_of_accessed hword haccess)

/-- Settles O12: the access reaches no register, and a write's source, of each kind, has a word. -/
theorem otherAccessesAreRefused : Obligations.OtherAccessesAreRefused := by
  intro s addr size hbad
  have hnone : accessed s.cfg addr size = none := accessed_eq_none hbad
  refine ⟨fun dst hline => (hostMove_of_read hline).trans (hostRead_of_not_accessed dst hnone), fun src hline hsrc => ?_⟩
  obtain ⟨w, hword⟩ : ∃ w, evalSource s src = .ok w := by
    obtain ⟨w, rfl⟩ | ⟨k, v, hk, rfl | ⟨op, rfl⟩⟩ := hsrc
    · exact ⟨w, evalSource_word s w⟩
    · exact ⟨v, evalSource_var hk⟩
    · exact ⟨_, evalSource_sectorCommand op hk⟩
  exact (hostMove_of_write hline).trans (hostWrite_of_not_accessed hword hnone)

/-- Settles O13: the byte view at a register's offset is `windowByte_offsetOf`. -/
theorem windowBytesAreLittleEndian : Obligations.WindowBytesAreLittleEndian := fun s r _ hb => windowByte_offsetOf s r hb

/-- Settles O14: apart from CMD and IN0 to IN2, every register's write is the identity. -/
theorem readOnlyRegistersIgnoreWrites : Obligations.ReadOnlyRegistersIgnoreWrites := by
  intro r w s hcmd hin
  cases r with
  | cmd => exact absurd rfl hcmd
  | inp k => exact absurd rfl (hin k)
  | _ => rfl

end Sys2Proof.Machine

/-! Proofs about the command word and the rounding (spec/30_encoding.md): the decoder against the encoder, words and sectors
that are illegal, operands a command does not list, and the rounding of exact results. -/

namespace Sys2Proof.Machine

/-! ### The command word -/

/-- The command word of every instruction has the fields of R70. -/
theorem fieldsOfWord (i : Instr) : Laws.FieldsOfWord.Statement i := by
  cases i with
  | sin => exact Laws.FieldsOfWord.sin
  | cos => exact Laws.FieldsOfWord.cos
  | norm => exact Laws.FieldsOfWord.norm
  | clarke => exact Laws.FieldsOfWord.clarke
  | iclarke => exact Laws.FieldsOfWord.iclarke
  | park => exact Laws.FieldsOfWord.park
  | ipark => exact Laws.FieldsOfWord.ipark
  | sector => exact Laws.FieldsOfWord.sector
  | vtime sec => exact Laws.FieldsOfWord.vtime sec
  | cmap sec => exact Laws.FieldsOfWord.cmap sec
  | svpwm => exact Laws.FieldsOfWord.svpwm

/-- A word is its three fields, from high to low (R70). -/
theorem word_of_fields (w : Word) : reservedField w ++ secField w ++ opField w = w := by
  unfold reservedField secField opField
  rw [BitVec.append_assoc, BitVec.extractLsb'_append_extractLsb'_eq_extractLsb' (by rfl), BitVec.cast_eq,
    BitVec.extractLsb'_append_extractLsb'_eq_extractLsb' (by rfl)]
  exact BitVec.extractLsb'_eq_self

/-- A command without a sector decodes exactly where SEC is 0 (R72). -/
theorem withoutSector_eq_ok_iff {i j : Instr} {sec : BitVec 3} : withoutSector i sec = .ok j ↔ sec = 0 ∧ i = j := by
  unfold withoutSector
  split
  case isTrue h => simp [h]
  case isFalse h => exact ⟨nofun, fun hi => absurd hi.1 h⟩

/-- The decoder reads a command exactly from the words whose fields are the command's (R71 to R74). -/
theorem decode_eq_ok_iff {w : Word} {i : Instr} :
    decode w = .ok i ↔ reservedField w = 0 ∧ secField w = sectorOperand i ∧ opField w = opcode i := by
  unfold decode
  constructor
  · intro h
    split_ifs at h with hr
    refine ⟨not_not.1 hr, ?_⟩
    have hop : ∀ n, (opField w).toNat = n → opField w = BitVec.ofNat 4 n := fun n hn => by simp [← hn]
    split at h
    case h_9 hn => cases h; exact ⟨rfl, hop 9 hn⟩
    case h_10 hn => cases h; exact ⟨rfl, hop 10 hn⟩
    case h_12 => cases h
    all_goals
      obtain ⟨hs, rfl⟩ := withoutSector_eq_ok_iff.1 h
      exact ⟨hs, hop _ ‹_›⟩
  · rintro ⟨hr, hs, ho⟩
    rw [if_neg (not_not.2 hr), ho, hs]
    cases i <;> rfl

/-- Settles O1: both sides say that the word's fields are the command's, and a word is its fields. -/
theorem decodeIsTheInverseOfEncode : Obligations.DecodeIsTheInverseOfEncode := by
  intro w i
  rw [decode_eq_ok_iff]
  constructor
  · rintro ⟨hr, hs, ho⟩
    calc encode i = reservedField w ++ secField w ++ opField w := by rw [hr, hs, ho, encode]
      _ = w := word_of_fields w
  · rintro rfl
    obtain ⟨ho, hs, hr⟩ := fieldsOfWord i
    exact ⟨hr, hs, ho⟩

/-- The decoder reads back every encoded command (R70, R71). -/
theorem decode_encode (i : Instr) : decode (encode i) = .ok i := (decodeIsTheInverseOfEncode _ _).2 rfl

/-- Settles O2: each word written out is its command's encoding. -/
theorem decodeOfWordsOfTheSpec : Obligations.DecodeOfWordsOfTheSpec :=
  ⟨decode_encode .sin, decode_encode .cos, decode_encode .norm, decode_encode .clarke, decode_encode .iclarke,
    decode_encode .park, decode_encode .ipark, decode_encode .sector, decode_encode (.vtime 3), decode_encode (.cmap 6),
    decode_encode .svpwm⟩

/-! ### The fault entry of words and sectors that are illegal -/

/-- The fault entry sets CODE and FAULT, clears BUSY, and changes nothing else (60_exceptions.md R203). -/
theorem faultEntry_eq {c : Code} (h : c ≠ .ok) (s : State) :
    faultEntry c s = { s with code := c, fault := true, busy := false } := by
  simp [faultEntry, completeStatus, h]

/-- No command has a reserved opcode (R74). -/
theorem opcode_not_reserved (i : Instr) : opcode i ∉ ([0x0, 0xC, 0xD, 0xE, 0xF] : List (BitVec 4)) := by
  cases i <;> simp [opcode]

/-- Only VTIME and CMAP have a sector operand (R72). -/
theorem sectorOperand_eq_zero {i : Instr} (h : opcode i ∉ ([0x9, 0xA] : List (BitVec 4))) : sectorOperand i = 0 := by
  cases i with
  | vtime sec => exact absurd (by simp [opcode]) h
  | cmap sec => exact absurd (by simp [opcode]) h
  | _ => rfl

/-- Settles O3: a word that decodes has the fields of a command, which none of the three forms has. -/
theorem illegalWordsEndWithIllegalOp : Obligations.IllegalWordsEndWithIllegalOp := by
  intro s hbad
  obtain ⟨i, hi, -⟩ | h := complete_cases s
  · obtain ⟨hr, hs, ho⟩ := decode_eq_ok_iff.1 hi
    rw [ho, hs] at hbad
    obtain hres | hop | ⟨hop, hsec⟩ := hbad
    · exact absurd hr hres
    · exact absurd hop (opcode_not_reserved i)
    · exact absurd (sectorOperand_eq_zero hop) hsec
  · rw [h, faultEntry_eq (by decide)]

/-- Settles O24: sectors 0 and 7 make the command ill-formed. -/
theorem illegalSectorIsReported : Obligations.IllegalSectorIsReported := by
  intro sec s hsec
  have hlegal : sectorLegal sec = false := by
    obtain rfl | rfl := hsec <;> rfl
  rw [← faultEntry_eq (by decide)]
  exact ⟨exec_ill_formed (.vtime sec) s hlegal, exec_ill_formed (.cmap sec) s hlegal⟩

/-! ### Operands a command does not list -/

/-- The state with another register in one operand's latch. -/
def setLatch (k : InReg) (r : Reg) (s : State) : State := { s with lin := s.lin.set k r }

/-- Another latch than the listed ones decides nothing about the run (R31, R79). -/
theorem runnable_setLatch {reads : List InReg} {k : InReg} (hk : k ∉ reads) (r : Reg) (s : State) :
    runnable (setLatch k r s) reads = runnable s reads := by
  have hmarks : operandsWritten (setLatch k r s) reads = operandsWritten s reads := by
    rw [Bool.eq_iff_iff, operandsWritten, operandsWritten, List.all_eq_true, List.all_eq_true]
    refine forall₂_congr fun j hj => ?_
    have hjk : j ≠ k := fun h => hk (h ▸ hj)
    rw [setLatch, InRegs.get_set_of_ne _ _ hjk]
  rw [runnable, hmarks]
  rfl

/-- A command whose result is computed without the latch commutes with a change of it. -/
theorem runCommand_setLatch {reads : List InReg} {result : State → Except Code Commit} {k : InReg} {r : Reg} {s : State}
    (hk : k ∉ reads) (hresult : result (setLatch k r s) = result s) :
    runCommand reads result (setLatch k r s) =
      mapNext (fun t => { t with lin := s.lin.set k r }) (runCommand reads result s) :=
  runCommand_mapNext (f := fun t => { t with lin := s.lin.set k r }) (runnable_setLatch hk r s) hresult
    fun c => by cases c <;> rfl

/-- A command that lists IN0 alone. -/
theorem runCommand_setLatch_of_one {result : State → Except Code Commit} {k : InReg} {r : Reg} {s : State}
    (hk : k ∉ [InReg.in0]) (h1 : result (setLatch .in1 r s) = result s) (h2 : result (setLatch .in2 r s) = result s) :
    runCommand [.in0] result (setLatch k r s) =
      mapNext (fun t => { t with lin := s.lin.set k r }) (runCommand [.in0] result s) := by
  cases k with
  | in0 => exact absurd (by decide) hk
  | in1 => exact runCommand_setLatch hk h1
  | in2 => exact runCommand_setLatch hk h2

/-- A command that lists IN0 and IN1. -/
theorem runCommand_setLatch_of_two {result : State → Except Code Commit} {k : InReg} {r : Reg} {s : State}
    (hk : k ∉ [InReg.in0, .in1]) (h2 : result (setLatch .in2 r s) = result s) :
    runCommand [.in0, .in1] result (setLatch k r s) =
      mapNext (fun t => { t with lin := s.lin.set k r }) (runCommand [.in0, .in1] result s) := by
  cases k with
  | in0 => exact absurd (by decide) hk
  | in1 => exact absurd (by decide) hk
  | in2 => exact runCommand_setLatch hk h2

/-- Every operand register is listed for a command of three operands. -/
theorem mem_in0_in1_in2 (k : InReg) : k ∈ [InReg.in0, .in1, .in2] := by cases k <;> decide

/-- Settles O21: a command's result is computed from its listed latches alone, by computation for each other latch. -/
theorem unlistedOperandsAreNotUsed : Obligations.UnlistedOperandsAreNotUsed := by
  intro i s k r hk
  cases i with
  | sin => exact runCommand_setLatch_of_one hk rfl rfl
  | cos => exact runCommand_setLatch_of_one hk rfl rfl
  | norm => exact runCommand_setLatch_of_one hk rfl rfl
  | clarke => exact runCommand_setLatch_of_two hk rfl
  | iclarke => exact runCommand_setLatch_of_two hk rfl
  | park => exact absurd (mem_in0_in1_in2 k) hk
  | ipark => exact absurd (mem_in0_in1_in2 k) hk
  | sector => exact runCommand_setLatch_of_two hk rfl
  | vtime sec =>
    simp only [exec, execVtime]
    cases sectorOfBits sec with
    | none => rfl
    | some x => exact runCommand_setLatch_of_two hk rfl
  | cmap sec => exact absurd (mem_in0_in1_in2 k) hk
  | svpwm => exact runCommand_setLatch_of_two hk rfl

/-! ### Rounding -/

/-- Settles O31: the machine's rounding is an `ENC` of the real, and `ENC` names one outcome. -/
theorem surdRoundingIsExact : Obligations.SurdRoundingIsExact := fun x _ =>
  ⟨fun h => h ▸ surd_enc_isEnc x, fun h => surd_enc_of_isEnc rfl h⟩

/-- Settles O32: as O31, with every table and every `ENC`. -/
theorem everyRoundingIsExact : Obligations.EveryRoundingIsExact := by
  intro cfg e r hlegal
  have hn : 2 ≤ cfg.logN := (configLegal_logN hlegal).1
  exact ⟨fun h => h ▸ enc_encodes hn e, fun h => enc_eq_of_encodes hn rfl h⟩

end Sys2Proof.Machine

/-! Proofs about the delivered words of the commands in every legal configuration (spec/30_encoding.md R78): each command's
results against its own tolerance, and the sector, the saturation outcome and the times that a tolerant block may choose. -/

namespace Sys2Proof.Machine

open Reference (value surd)

/-! ### What a run with CODE 0 leaves -/

/-- A command that answers a next state has committed its result (10_state.md R30). -/
theorem eq_commit_of_runCommand {reads : List InReg} {f : State → Except Code Commit} {s t : State}
    (h : runCommand reads f s = .next t) : t = commit (f s) s := by
  obtain hrun | hrun := runCommand_cases reads f s
  · rw [hrun, Host.Outcome.next.injEq] at h
    exact h.symm
  · rw [hrun] at h
    cases h

/-- A command that ends with CODE 0 has computed no fault. -/
theorem ne_error_of_runCommand {reads : List InReg} {f : State → Except Code Commit} {s t : State}
    (h : runCommand reads f s = .next t) (hc : t.code = .ok) {c : Code} (hne : c ≠ .ok) : f s ≠ .error c := by
  intro hf
  rw [eq_commit_of_runCommand h, hf] at hc
  exact hne hc

/-- A command that ends with CODE 0 leaves its delivery's sector and SAT, where it has them (10_state.md R25, R28). -/
theorem sector_sat_of_runCommand {reads : List InReg} {f : State → Except Code Commit} {s t : State}
    {how : OutReg → Conformance} {rs : List (OutReg × Exact)} {sec : Option (BitVec 3)} {sat : Option Bool}
    (h : runCommand reads f s = .next t) (hc : t.code = .ok) (hf : f s = deliver s reads how rs sec sat) :
    t.sector = sec.getD s.sector ∧ t.sat = sat.getD s.sat := by
  obtain hover | ⟨ws, -, hws⟩ := deliver_cases s reads how rs sec sat
  · exact absurd (hf.trans hover) (ne_error_of_runCommand h hc (by decide))
  · rw [eq_commit_of_runCommand h, hf, hws]
    exact ⟨rfl, rfl⟩

/-- Of two deliveries the one that stands is one of the two. -/
theorem unlessOverflow_eq_or (drawn undrawn : Except Code Commit) :
    unlessOverflow drawn undrawn = drawn ∨ unlessOverflow drawn undrawn = undrawn := by
  cases drawn with
  | ok c => exact .inl rfl
  | error e => exact .inr rfl

/-- A command writes each of its registers once (R79). -/
theorem resultRegisters_nodup (i : Instr) : (resultRegisters i).Nodup := by cases i <;> simp [resultRegisters]

/-- A command that ends with CODE 0 leaves in each of its registers a word delivered for its result (R78, R79). -/
theorem deliveredWord_of_runCommand (i : Instr) {reads : List InReg} {f : State → Except Code Commit} {s t : State}
    {how : OutReg → Conformance} {rs : List (OutReg × Exact)} {sec : Option (BitVec 3)} {sat : Option Bool}
    (h : runCommand reads f s = .next t) (hc : t.code = .ok) (hf : f s = deliver s reads how rs sec sat)
    (hregs : rs.map Prod.fst = resultRegisters i) {r : OutReg} {e : Exact} (hm : (r, e) ∈ rs) :
    deliveredWord s.cfg s.lcmd (operandWords s reads) (how r) (outIndex r) e = some (t.out.get r).word := by
  obtain rfl := eq_commit_of_runCommand h
  rw [hf] at hc ⊢
  exact deliver_writes (hregs ▸ resultRegisters_nodup i) hc hm

/-- The word of SIN and COS (R78, R112). -/
theorem deliveredUnit_of_runCommand {f : State → Except Code Commit} {s t : State} {tol : RealParam} {x a b : Rat}
    (hn : 2 ≤ s.cfg.logN) (h : runCommand [.in0] f s = .next t) (hc : t.code = .ok)
    (hf : f s = deliver s [.in0] (fun _ => .unitRange tol (beyondAccuracy s.cfg x)) [(.out0, .table x a b)]) :
    DeliveredUnit s.cfg tol (BeyondAccuracy s.cfg x) (a * Reference.sine s.cfg x + b * Reference.cosine s.cfg x)
      t.out.out0.word := by
  have hd := deliveredWord_unitRange_delivered hn (deliveredWord_of_runCommand .sin h hc hf rfl List.mem_cons_self)
  rwa [beyondAccuracy_iff, value_table hn] at hd

/-- The reals a command's exact results stand for, with their registers. -/
noncomputable def exactValues (cfg : Config) (rs : List (OutReg × Exact)) : List (OutReg × ℝ) :=
  rs.map fun p => (p.1, value cfg p.2)

/-- How results within `tol` conform: each may overflow, or is promised in `[0, hi]` (R78, R161, R169). -/
def Within (tol : RealParam) (hi : OutReg → Option Rat) (how : OutReg → Conformance) : Prop :=
  ∀ r, how r = .plain tol ∨ ∃ b, hi r = some b ∧ how r = .bounded tol b

theorem within_plain (tol : RealParam) (hi : OutReg → Option Rat) : Within tol hi fun _ => .plain tol := fun _ => .inl rfl

/-- The words of the other commands that write numeric results (R78). -/
theorem delivered_of_runCommand (i : Instr) {reads : List InReg} {f : State → Except Code Commit} {s t : State}
    {how : OutReg → Conformance} {rs : List (OutReg × Exact)} {sec : Option (BitVec 3)} {sat : Option Bool}
    {tol : RealParam} {hi : OutReg → Option Rat} (hn : 2 ≤ s.cfg.logN) (h : runCommand reads f s = .next t)
    (hc : t.code = .ok) (hf : f s = deliver s reads how rs sec sat) (hregs : rs.map Prod.fst = resultRegisters i)
    (hhow : Within tol hi how) :
    ∀ p ∈ exactValues s.cfg rs, Delivered s.cfg tol (hi p.1) p.2 (t.out.get p.1).word := by
  intro p hp
  obtain ⟨⟨r, e⟩, hm, rfl⟩ := List.mem_map.1 hp
  have hd := deliveredWord_of_runCommand i h hc hf hregs hm
  obtain hplain | ⟨b, hb, hbounded⟩ := hhow r
  · rw [hplain] at hd
    exact deliveredWord_plain_delivered hn hd _
  · rw [hbounded] at hd
    exact hb ▸ deliveredWord_bounded_delivered hn hd

/-! ### The exact results over the reals -/

/-- CLARKE's results (42_clarke_park.md R130). -/
theorem exactValues_clarke (cfg : Config) (u v : Rat) :
    exactValues cfg (clarkeResults u v) = [(.out0, (u : ℝ)), (.out1, (u + 2 * v) / Real.sqrt 3)] := by
  have hbeta : surd (.sqrt3 ((u + 2 * v) / 3)) = (u + 2 * v) / Real.sqrt 3 := by
    rw [surd_sqrt3, eq_div_iff sqrt3_pos.ne', mul_assoc, sqrt3_sq]
    push_cast
    ring
  simp [exactValues, clarkeResults, value, hbeta, -surd_sqrt3]

/-- ICLARKE's results (42_clarke_park.md R132). -/
theorem exactValues_iclarke (cfg : Config) (a b : Rat) :
    exactValues cfg (iclarkeResults a b) =
      [(.out0, (a : ℝ)), (.out1, (-a + Real.sqrt 3 * b) / 2), (.out2, (-a - Real.sqrt 3 * b) / 2)] := by
  have hv : surd ⟨-a / 2, b / 2⟩ = (-a + Real.sqrt 3 * b) / 2 := by
    simp only [surd]
    push_cast
    ring
  have hw : surd ⟨-a / 2, -b / 2⟩ = (-a - Real.sqrt 3 * b) / 2 := by
    simp only [surd]
    push_cast
    ring
  simp [exactValues, iclarkeResults, value, hv, hw]

/-- PARK's results (42_clarke_park.md R134). -/
theorem exactValues_park {cfg : Config} (hn : 2 ≤ cfg.logN) (a b θ : Rat) :
    exactValues cfg (parkResults a b θ) =
      [(.out0, Reference.cosine cfg θ * a + Reference.sine cfg θ * b),
        (.out1, -Reference.sine cfg θ * a + Reference.cosine cfg θ * b)] := by
  simp only [exactValues, parkResults, List.map_cons, List.map_nil, value_table hn, List.cons.injEq, Prod.mk.injEq,
    true_and, and_true]
  constructor
  · ring
  · push_cast
    ring

/-- IPARK's results (42_clarke_park.md R135). -/
theorem exactValues_ipark {cfg : Config} (hn : 2 ≤ cfg.logN) (d q θ : Rat) :
    exactValues cfg (iparkResults d q θ) =
      [(.out0, Reference.cosine cfg θ * d - Reference.sine cfg θ * q),
        (.out1, Reference.sine cfg θ * d + Reference.cosine cfg θ * q)] := by
  simp only [exactValues, iparkResults, List.map_cons, List.map_nil, value_table hn, List.cons.injEq, Prod.mk.injEq,
    true_and, and_true]
  constructor
  · push_cast
    ring
  · ring

/-- VTIME's results (43_svpwm.md R161). -/
theorem exactValues_timeResults (cfg : Config) (x : Times) :
    exactValues cfg (timeResults x) =
      [(.out0, surd x.t0), (.out1, surd x.t1), (.out2, surd x.t2), (.out3, surd x.tx), (.out4, surd x.ty)] := rfl

/-- The counters (43_svpwm.md R165, R166). -/
theorem exactValues_counterResults (cfg : Config) (sec : Sector) (t0 t1 t2 : Surd) :
    exactValues cfg (counterResults cfg sec t0 t1 t2) =
      let p := Reference.permute sec (surd t0, surd t1, surd t2)
      [(.out0, p.1 * maxCount cfg / switchingPeriod cfg), (.out1, p.2.1 * maxCount cfg / switchingPeriod cfg),
        (.out2, p.2.2 * maxCount cfg / switchingPeriod cfg)] := by
  have hcounter : ∀ x, surd (counter cfg x) = surd x * maxCount cfg / switchingPeriod cfg := fun x => by
    rw [counter_surd, maxCount, Rat.cast_natCast]
  simp only [← permute_surd, exactValues, counterResults, List.map_cons, List.map_nil, value, hcounter]

/-- SVPWM's results: the counters and the three instants (43_svpwm.md R169). -/
theorem exactValues_switching (cfg : Config) (sec : Sector) (x : Times) :
    exactValues cfg (counterResults cfg sec x.t0 x.t1 x.t2 ++
        [(.out3, .surd x.t0), (.out4, .surd x.t1), (.out5, .surd x.t2)]) =
      exactValues cfg (counterResults cfg sec x.t0 x.t1 x.t2) ++
        [(.out3, surd x.t0), (.out4, surd x.t1), (.out5, surd x.t2)] := by
  simp only [exactValues, List.map_append, List.map_cons, List.map_nil, value]

/-! ### Times a tolerant block may choose (43_svpwm.md R155, R164) -/

/-- Times with an admitted outcome, an admitted SAT and the instants of R160. -/
structure AdmittedDraw (cfg : Config) (sec : Sector) (alpha beta : Rat) (x : Times) : Prop where
  times : AdmittedTimes cfg sec alpha beta (surd x.tx, surd x.ty)
  sat   : AdmittedOutcome cfg sec alpha beta x.sat
  split : (surd x.t0, surd x.t1, surd x.t2) = Reference.split (switchingPeriod cfg) (surd x.tx, surd x.ty)

/-- The drawn times are such (R164). -/
theorem vectorTimes_admittedDraw {s : State} (hlegal : configLegal s.cfg = true) (reads : List InReg) (sec : Sector)
    (alpha beta : Rat) : AdmittedDraw s.cfg sec alpha beta (vectorTimes s reads sec alpha beta) := by
  obtain ⟨htimes, hsplit⟩ := vectorTimes_admitted s reads sec alpha beta (switchingPeriod_spec hlegal).2
  exact ⟨htimes, vectorTimes_sat s reads sec alpha beta, hsplit⟩

/-- The strict outcome's times report the SAT that the drawn ones report. -/
theorem strictTimes_admittedDraw {s : State} (hlegal : configLegal s.cfg = true) (reads : List InReg) (sec : Sector)
    (alpha beta : Rat) : AdmittedDraw s.cfg sec alpha beta (strictTimes s reads sec alpha beta) := by
  obtain ⟨htimes, hsplit⟩ := strictTimes_admitted s reads sec alpha beta (switchingPeriod_spec hlegal).2
  exact ⟨htimes, vectorTimes_sat s reads sec alpha beta, hsplit⟩

/-! ### Each command -/

/-- A legal sector operand runs VTIME on that sector (R72). -/
theorem exec_vtime_of_sector {bits : BitVec 3} {sec : Sector} (h : sectorOfBits bits = some sec) (s : State) :
    exec (.vtime bits) s = runCommand [.in0, .in1] (vtimeResult sec) s := by
  simp only [exec, execVtime, h]

/-- A legal sector operand runs CMAP on that sector (R72). -/
theorem exec_cmap_of_sector {bits : BitVec 3} {sec : Sector} (h : sectorOfBits bits = some sec) (s : State) :
    exec (.cmap bits) s = runCommand [.in0, .in1, .in2] (cmapResult sec) s := by
  simp only [exec, execCmap, h]

/-- The range that R169 promises each result of SVPWM: a counter, or an instant. -/
def switchingBound (cfg : Config) : OutReg → Rat
  | .out0 => maxCount cfg / 2
  | .out1 => maxCount cfg / 2
  | .out2 => maxCount cfg / 2
  | .out3 => switchingPeriod cfg / 2
  | .out4 => switchingPeriod cfg / 2
  | .out5 => switchingPeriod cfg / 2

/-- SVPWM's results without draws conform within R169's ranges. -/
theorem within_svpwmConformance (cfg : Config) :
    Within cfg.tolOp.svpwm (fun r => some (switchingBound cfg r)) (svpwmConformance cfg) := by
  intro r
  refine .inr ⟨switchingBound cfg r, rfl, ?_⟩
  cases r <;> rfl

/-- VTIME delivers the drawn times, or in the vector's own sector the strict outcome's within `[0, Ts]` (R161, log 22). -/
theorem vtimeResult_admitted {s : State} (hlegal : configLegal s.cfg = true) {a b : Rat} (ha : operand s .in0 = some a)
    (hb : operand s .in1 = some b) (sec : Sector) :
    ∃ how x, vtimeResult sec s = deliverTimes s how x ∧ AdmittedDraw s.cfg sec a b x ∧
      Within s.cfg.tolOp.vtime (fun _ => if sec = ownSector a b then some (switchingPeriod s.cfg) else none)
        fun _ => how := by
  have hdrawn := vectorTimes_admittedDraw hlegal [.in0, .in1] sec a b
  have hstrict := strictTimes_admittedDraw hlegal [.in0, .in1] sec a b
  simp only [vtimeResult, ha, hb]
  split
  case isFalse => exact ⟨_, _, rfl, hdrawn, within_plain _ _⟩
  case isTrue =>
    obtain h | h := unlessOverflow_eq_or _ _
    · exact ⟨_, _, h, hdrawn, within_plain _ _⟩
    · exact ⟨_, _, h, hstrict, fun _ => .inr ⟨_, rfl, rfl⟩⟩

/-- SVPWM delivers the drawn sector and times, or the own sector's with the strict outcome in R169's ranges (log 22). -/
theorem svpwmResult_admitted {s : State} (hlegal : configLegal s.cfg = true) {a b : Rat} (ha : operand s .in0 = some a)
    (hb : operand s .in1 = some b) :
    ∃ how sec x, svpwmResult s = deliverSwitching s how sec x ∧ AdmittedSector s.cfg a b sec ∧
      AdmittedDraw s.cfg sec a b x ∧ Within s.cfg.tolOp.svpwm (fun r => some (switchingBound s.cfg r)) how := by
  simp only [svpwmResult, ha, hb]
  obtain h | h := unlessOverflow_eq_or _ _
  · exact ⟨_, _, _, h, classify_admitted s _ a b, vectorTimes_admittedDraw hlegal _ _ a b, within_plain _ _⟩
  · exact ⟨_, _, _, h, ownSector_admitted s.cfg a b, strictTimes_admittedDraw hlegal _ _ a b,
      within_svpwmConformance s.cfg⟩

/-- The condition under which R161 promises VTIME's range: the sector is the vector's own. -/
theorem sectorBits_eq_sectorNumber_iff (sec : Sector) (a b : Rat) :
    sectorBits sec = BitVec.ofNat 3 (Reference.sectorNumber a b) ↔ sec = ownSector a b := by
  rw [← ownSector_number]
  exact ⟨sectorBits_inj, fun h => h ▸ rfl⟩

/-- SECTOR writes no numeric result, so no configuration needs to be legal (R156). -/
theorem sector_conforms {s t : State} (h : exec .sector s = .next t) : ResultsConform s t .sector := by
  intro a b ha hb
  have ht : t = commit (sectorResult s) s := eq_commit_of_runCommand h
  simp only [sectorResult, ha, hb] at ht
  subst ht
  exact ⟨_, rfl, classify_admitted s _ a b⟩

section
variable {s t : State} (hlegal : configLegal s.cfg = true)
include hlegal

theorem sin_conforms (h : exec .sin s = .next t) (hc : t.code = .ok) : ResultsConform s t .sin := by
  intro x hx
  have hf : sinResult s = deliver s [.in0]
      (fun _ => .unitRange s.cfg.tolOp.sin (beyondAccuracy s.cfg x)) [(.out0, .table x 1 0)] := by
    simp only [sinResult, hx]
  simpa using deliveredUnit_of_runCommand (configLegal_logN hlegal).1 h hc hf

theorem cos_conforms (h : exec .cos s = .next t) (hc : t.code = .ok) : ResultsConform s t .cos := by
  intro x hx
  have hf : cosResult s = deliver s [.in0]
      (fun _ => .unitRange s.cfg.tolOp.cos (beyondAccuracy s.cfg x)) [(.out0, .table x 0 1)] := by
    simp only [cosResult, hx]
  simpa using deliveredUnit_of_runCommand (configLegal_logN hlegal).1 h hc hf

theorem norm_conforms (h : exec .norm s = .next t) (hc : t.code = .ok) : ResultsConform s t .norm := by
  intro θ hθ
  have hf : normResult s = deliver s [.in0] (fun _ => .circle s.cfg.tolOp.norm) [(.out0, .wrap θ)] := by
    simp only [normResult, hθ]
  exact deliveredWord_circle_delivered (configLegal_logN hlegal).1
    (deliveredWord_of_runCommand .norm h hc hf rfl List.mem_cons_self)

theorem clarke_conforms (h : exec .clarke s = .next t) (hc : t.code = .ok) : ResultsConform s t .clarke := by
  intro u v hu hv
  have hf : clarkeResult s = deliver s [.in0, .in1] (fun _ => .plain s.cfg.tolOp.clarke) (clarkeResults u v) := by
    simp only [clarkeResult, hu, hv]
  have hd := delivered_of_runCommand .clarke (configLegal_logN hlegal).1 h hc hf rfl (within_plain _ fun _ => none)
  simpa [exactValues_clarke, OutRegs.get] using hd

theorem iclarke_conforms (h : exec .iclarke s = .next t) (hc : t.code = .ok) : ResultsConform s t .iclarke := by
  intro a b ha hb
  have hf : iclarkeResult s = deliver s [.in0, .in1] (fun _ => .plain s.cfg.tolOp.iclarke) (iclarkeResults a b) := by
    simp only [iclarkeResult, ha, hb]
  have hd := delivered_of_runCommand .iclarke (configLegal_logN hlegal).1 h hc hf rfl (within_plain _ fun _ => none)
  simpa [exactValues_iclarke, OutRegs.get] using hd

/-- CODE 0 says that the angle check has passed (R136). -/
theorem park_conforms (h : exec .park s = .next t) (hc : t.code = .ok) : ResultsConform s t .park := by
  intro a b θ ha hb hθ
  have hn := (configLegal_logN hlegal).1
  have hrange : angleInRange θ = true := by
    by_contra hr
    exact ne_error_of_runCommand (c := .angleRange) h hc (by decide) (by simp only [parkResult, ha, hb, hθ, if_neg hr])
  have hf : parkResult s = deliver s [.in0, .in1, .in2] (fun _ => .plain s.cfg.tolOp.park) (parkResults a b θ) := by
    simp only [parkResult, ha, hb, hθ, if_pos hrange]
  have hd := delivered_of_runCommand .park hn h hc hf rfl (within_plain _ fun _ => none)
  simpa [exactValues_park hn, OutRegs.get] using hd

/-- As for PARK (R136). -/
theorem ipark_conforms (h : exec .ipark s = .next t) (hc : t.code = .ok) : ResultsConform s t .ipark := by
  intro d q θ hid hiq hθ
  have hn := (configLegal_logN hlegal).1
  have hrange : angleInRange θ = true := by
    by_contra hr
    exact ne_error_of_runCommand (c := .angleRange) h hc (by decide) (by simp only [iparkResult, hid, hiq, hθ, if_neg hr])
  have hf : iparkResult s = deliver s [.in0, .in1, .in2] (fun _ => .plain s.cfg.tolOp.ipark) (iparkResults d q θ) := by
    simp only [iparkResult, hid, hiq, hθ, if_pos hrange]
  have hd := delivered_of_runCommand .ipark hn h hc hf rfl (within_plain _ fun _ => none)
  simpa [exactValues_ipark hn, OutRegs.get] using hd

theorem vtime_conforms (bits : BitVec 3) (h : exec (.vtime bits) s = .next t) (hc : t.code = .ok) :
    ResultsConform s t (.vtime bits) := by
  intro sec a b hsec ha hb
  rw [exec_vtime_of_sector hsec] at h
  obtain ⟨how, x, hf, ⟨htimes, hsat, hsplit⟩, hhow⟩ := vtimeResult_admitted hlegal ha hb sec
  have hd := delivered_of_runCommand (.vtime bits) (configLegal_logN hlegal).1 h hc hf rfl hhow
  have htsat : t.sat = x.sat := (sector_sat_of_runCommand h hc hf).2
  refine ⟨_, htimes, htsat ▸ hsat, ?_⟩
  simp only [← hsplit, sectorBits_eq_sectorNumber_iff]
  simpa [exactValues_timeResults, OutRegs.get] using hd

theorem cmap_conforms (bits : BitVec 3) (h : exec (.cmap bits) s = .next t) (hc : t.code = .ok) :
    ResultsConform s t (.cmap bits) := by
  intro sec t0 t1 t2 hsec h0 h1 h2
  rw [exec_cmap_of_sector hsec] at h
  have hf : cmapResult sec s = deliver s [.in0, .in1, .in2] (fun _ => .plain s.cfg.tolOp.cmap)
      (counterResults s.cfg sec (.ofRat t0) (.ofRat t1) (.ofRat t2)) := by
    simp only [cmapResult, h0, h1, h2]
  have hd := delivered_of_runCommand (.cmap bits) (configLegal_logN hlegal).1 h hc hf rfl (within_plain _ fun _ => none)
  simpa [exactValues_counterResults, OutRegs.get] using hd

theorem svpwm_conforms (h : exec .svpwm s = .next t) (hc : t.code = .ok) : ResultsConform s t .svpwm := by
  intro a b ha hb
  obtain ⟨how, sec, x, hf, hsec, ⟨htimes, hsat, hsplit⟩, hhow⟩ := svpwmResult_admitted hlegal ha hb
  have hd := delivered_of_runCommand .svpwm (configLegal_logN hlegal).1 h hc hf rfl hhow
  obtain ⟨htsector, htsat⟩ : t.sector = sectorBits sec ∧ t.sat = x.sat := sector_sat_of_runCommand h hc hf
  refine ⟨sec, _, htsector, hsec, htimes, htsat ▸ hsat, ?_⟩
  simp only [← hsplit]
  simpa [exactValues_switching, exactValues_counterResults, OutRegs.get, switchingBound] using hd

/-- Every command that ends with CODE 0 writes words, a sector, times and a SAT that conform (R78, R155, R164). -/
theorem resultsConform (i : Instr) (h : exec i s = .next t) (hc : t.code = .ok) : ResultsConform s t i := by
  cases i with
  | sin => exact sin_conforms hlegal h hc
  | cos => exact cos_conforms hlegal h hc
  | norm => exact norm_conforms hlegal h hc
  | clarke => exact clarke_conforms hlegal h hc
  | iclarke => exact iclarke_conforms hlegal h hc
  | park => exact park_conforms hlegal h hc
  | ipark => exact ipark_conforms hlegal h hc
  | sector => exact sector_conforms h
  | vtime bits => exact vtime_conforms hlegal bits h hc
  | cmap bits => exact cmap_conforms hlegal bits h hc
  | svpwm => exact svpwm_conforms hlegal h hc

end

/-- SVPWM on finite operands ends with CODE 0: its bounded results cannot overflow (R169, R201). -/
theorem svpwm_code {s t : State} (h : exec .svpwm s = .next t) (h0 : operand s .in0 ≠ none)
    (h1 : operand s .in1 ≠ none) : t.code = .ok := by
  obtain ⟨a, ha⟩ := Option.ne_none_iff_exists'.1 h0
  obtain ⟨b, hb⟩ := Option.ne_none_iff_exists'.1 h1
  obtain rfl := eq_commit_of_runCommand h
  obtain ⟨c, hok⟩ : ∃ c, svpwmResult s = .ok c := by
    simp only [svpwmResult, ha, hb]
    refine unlessOverflow_ok ?_
    have hbounded : ∀ r, (svpwmConformance s.cfg r).mayOverflow = false := fun r => by cases r <;> rfl
    obtain ⟨ws, hws⟩ := deliver_total fun p _ => .inl (hbounded p.1)
    exact ⟨_, hws⟩
  rw [hok]
  rfl

/-- Settles O33: the words by their conformance, the choices by `AdmittedDraw`, and each command by its own results. -/
theorem tolerantChoicesConform : Obligations.TolerantChoicesConform := by
  refine ⟨fun cfg cmd ops j e tol w hlegal => ?_, fun s a b hlegal => ?_, fun s t hlegal => ?_⟩
  · have hn := (configLegal_logN hlegal).1
    exact ⟨fun h => deliveredWord_plain_delivered hn h none, fun _ h => deliveredWord_bounded_delivered hn h,
      fun _ h => deliveredWord_unitRange_delivered hn h, fun h => deliveredWord_circle_delivered hn h,
      fun _ hk h => deliveredWord_ne_negZero hn hk h⟩
  · refine ⟨fun reads => classify_admitted s reads a b, fun reads sec => ?_⟩
    obtain ⟨htimes, hsat, hsplit⟩ := vectorTimes_admittedDraw hlegal reads sec a b
    exact ⟨hsat, htimes, hsplit⟩
  · exact ⟨fun i => resultsConform hlegal i, svpwm_code⟩

end Sys2Proof.Machine

/-! Proofs about SIN, COS and the table interpolation (spec/40_trig.md): the laws of the interpolation, the words that SIN
and COS deliver, and the code NONFINITE of every command. -/

namespace Sys2Proof.Machine

open Reference (tsin indexSpace sine cosine IsEnc Encodes)

/-! ### The interpolation (R100 to R102) -/

/-- `TSIN(s)` between the two table entries that `k = floor(s)` names (R102). -/
theorem tsin_eq (cfg : Config) (s : ℝ) :
    tsin cfg s = (1 - Int.fract s) * Reference.lut cfg (⌊s⌋ % (tableSize cfg : ℤ)).toNat +
      Int.fract s * Reference.lut cfg ((⌊s⌋ % (tableSize cfg : ℤ)).toNat + 1) := rfl

/-- Settles O51: a whole period changes neither the fraction nor the index modulo `N`. -/
theorem interpolationIsPeriodic : Obligations.InterpolationIsPeriodic := by
  intro cfg s
  rw [tsin_eq, tsin_eq, Int.fract_add_natCast, Int.floor_add_natCast, Int.add_emod_right]

/-- The reference table's entries are sines, the sentinel too, since `sin 2π = 0` (R100). -/
theorem lut_reference {cfg : Config} (h : cfg.rom = .reference) (i : ℕ) :
    Reference.lut cfg i = Real.sin (2 * Real.pi * i / tableSize cfg) := by
  have hn : (tableSize cfg : ℝ) ≠ 0 := by exact_mod_cast (tableSize_pos cfg).ne'
  simp only [Reference.lut, h]
  split_ifs with hi
  · rw [hi, mul_div_assoc, div_self hn, mul_one, Real.sin_two_pi]
  · rfl

theorem abs_lut_le_one {cfg : Config} (h : cfg.rom = .reference) (i : ℕ) : |Reference.lut cfg i| ≤ 1 := by
  rw [lut_reference h]
  exact Real.abs_sin_le_one _

/-- Settles O50: a weighted mean of two sines lies between them. -/
theorem interpolationStaysInUnitRange : Obligations.InterpolationStaysInUnitRange := by
  intro cfg s href
  have hf0 : 0 ≤ Int.fract s := Int.fract_nonneg s
  have hf1 : Int.fract s ≤ 1 := (Int.fract_lt_one s).le
  rw [tsin_eq, abs_le]
  exact convex_Icc (-1 : ℝ) 1 (abs_le.1 (abs_lut_le_one href _)) (abs_le.1 (abs_lut_le_one href _))
    (sub_nonneg.2 hf1) hf0 (sub_add_cancel 1 _)

/-! ### The interpolation's error (R110) -/

/-- An entry at an index modulo `N`, or the one after it, is the sine at the whole number itself (R100, R102). -/
theorem lut_emod {cfg : Config} (h : cfg.rom = .reference) (k : ℤ) (j : ℕ) :
    Reference.lut cfg ((k % (tableSize cfg : ℤ)).toNat + j) = Real.sin (2 * Real.pi / tableSize cfg * (k + j)) := by
  have hn : (tableSize cfg : ℝ) ≠ 0 := by exact_mod_cast (tableSize_pos cfg).ne'
  have hi : (((k % (tableSize cfg : ℤ)).toNat : ℕ) : ℤ) = k - tableSize cfg * (k / tableSize cfg) := by
    rw [Int.toNat_of_nonneg (Int.emod_nonneg _ (by exact_mod_cast (tableSize_pos cfg).ne')), Int.emod_def]
  have hi' : (((k % (tableSize cfg : ℤ)).toNat : ℕ) : ℝ) = k - tableSize cfg * (k / tableSize cfg : ℤ) := by
    exact_mod_cast hi
  have hangle : 2 * Real.pi / tableSize cfg * (k + j) =
      2 * Real.pi * ((k % (tableSize cfg : ℤ)).toNat + j : ℕ) / tableSize cfg +
        (k / tableSize cfg : ℤ) * (2 * Real.pi) := by
    push_cast
    rw [hi']
    field_simp
    ring
  rw [lut_reference h, hangle, Real.sin_add_int_mul_two_pi]

/-- `sin t + t² / 2` is convex: its second derivative is `1 - sin t`. -/
theorem convexOn_sin_add_sq : ConvexOn ℝ Set.univ fun t : ℝ => Real.sin t + t ^ 2 / 2 := by
  have hderiv : ∀ t : ℝ, HasDerivAt (fun t : ℝ => Real.sin t + t ^ 2 / 2) (Real.cos t + t) t := fun t => by
    simpa using (Real.hasDerivAt_sin t).fun_add ((hasDerivAt_pow 2 t).div_const 2)
  have hderiv2 : ∀ t : ℝ, HasDerivAt (fun t : ℝ => Real.cos t + t) (-Real.sin t + 1) t := fun t =>
    (Real.hasDerivAt_cos t).fun_add (hasDerivAt_id t)
  refine Monotone.convexOn_univ_of_deriv (fun t => (hderiv t).differentiableAt) ?_
  rw [funext fun t => (hderiv t).deriv]
  refine monotone_of_deriv_nonneg (fun t => (hderiv2 t).differentiableAt) fun t => ?_
  rw [(hderiv2 t).deriv]
  linarith [Real.sin_le_one t]

/-- The sine lies at most `h² / 8` above its chord over a step of length `h`. -/
theorem sin_sub_chord_le (a h : ℝ) {f : ℝ} (hf0 : 0 ≤ f) (hf1 : f ≤ 1) :
    Real.sin (a + f * h) - ((1 - f) * Real.sin a + f * Real.sin (a + h)) ≤ h ^ 2 / 8 := by
  have hconvex := convexOn_sin_add_sq.2 (Set.mem_univ a) (Set.mem_univ (a + h)) (sub_nonneg.2 hf1) hf0
    (sub_add_cancel 1 f)
  have hpoint : (1 - f) * a + f * (a + h) = a + f * h := by ring
  simp only [smul_eq_mul, hpoint] at hconvex
  have hquarter : f * (1 - f) * h ^ 2 ≤ h ^ 2 / 4 := by nlinarith [sq_nonneg ((2 * f - 1) * h)]
  linarith

/-- The chord of the sine over a step of length `h` is within `h² / 8` of it: below the chord as above it, half a turn
on. -/
theorem abs_chord_sub_sin_le (a h : ℝ) {f : ℝ} (hf0 : 0 ≤ f) (hf1 : f ≤ 1) :
    |(1 - f) * Real.sin a + f * Real.sin (a + h) - Real.sin (a + f * h)| ≤ h ^ 2 / 8 := by
  have habove := sin_sub_chord_le a h hf0 hf1
  have hbelow := sin_sub_chord_le (a + Real.pi) h hf0 hf1
  rw [add_right_comm, add_right_comm a Real.pi h] at hbelow
  simp only [Real.sin_add_pi] at hbelow
  rw [abs_le]
  constructor <;> linarith

/-- Settles O52: the interpolation is the chord of the sine over one table step, of length `2π/N`. -/
theorem interpolationErrorBound : Obligations.InterpolationErrorBound := by
  intro cfg x href _
  have hn : (tableSize cfg : ℝ) ≠ 0 := by exact_mod_cast (tableSize_pos cfg).ne'
  have hpi := Real.pi_ne_zero
  set s := indexSpace cfg x with hs
  have hx : x = 2 * Real.pi / tableSize cfg * ⌊s⌋ + Int.fract s * (2 * Real.pi / tableSize cfg) := by
    have hsplit := Int.floor_add_fract s
    rw [mul_comm (Int.fract s), ← mul_add, hsplit, hs, indexSpace]
    field_simp
  have hleft := lut_emod href ⌊s⌋ 0
  have hright := lut_emod href ⌊s⌋ 1
  simp only [Nat.cast_zero, add_zero, Nat.cast_one, mul_add, mul_one] at hleft hright
  have hchord := abs_chord_sub_sin_le (2 * Real.pi / tableSize cfg * ⌊s⌋) (2 * Real.pi / tableSize cfg)
    (Int.fract_nonneg s) (Int.fract_lt_one s).le
  rw [← hx, ← hleft, ← hright, ← tsin_eq] at hchord
  exact hchord

/-! ### The words of SIN and COS (R105, R106) -/

/-- What SIN and COS deliver: one combination of the interpolated sine and cosine, to OUT0, in `[-1, 1]` (R78, R112). -/
def deliverUnit (s : State) (tol : RealParam) (x a b : Rat) : Except Code Commit :=
  deliver s [.in0] (fun _ => .unitRange tol (beyondAccuracy s.cfg x)) [(.out0, .table x a b)]

section
variable {s : State} {x : Rat} (hrun : runnable s [.in0] = true) (hx : operand s .in0 = some x)
include hrun hx

theorem exec_sin_eq : exec .sin s = .next (commit (deliverUnit s s.cfg.tolOp.sin x 1 0) s) := by
  have hresult : sinResult s = deliverUnit s s.cfg.tolOp.sin x 1 0 := by simp only [sinResult, hx, deliverUnit]
  exact hresult ▸ runCommand_of_runnable hrun sinResult

theorem exec_cos_eq : exec .cos s = .next (commit (deliverUnit s s.cfg.tolOp.cos x 0 1) s) := by
  have hresult : cosResult s = deliverUnit s s.cfg.tolOp.cos x 0 1 := by simp only [cosResult, hx, deliverUnit]
  exact hresult ▸ runCommand_of_runnable hrun cosResult

end

/-- The one word of such a delivery. -/
theorem deliverUnit_of_deliveredWord {s : State} {tol : RealParam} {x a b : Rat} {w : Word}
    (h : deliveredWord s.cfg s.lcmd (operandWords s [.in0]) (.unitRange tol (beyondAccuracy s.cfg x)) 0 (.table x a b) =
      some w) :
    deliverUnit s tol x a b = .ok ⟨[(.out0, w)], none, none⟩ := by
  simp [deliverUnit, deliver, outWords, outIndex, h]

/-- SIN and COS never overflow, and their word lies in `[-1, 1]` in every legal configuration (R78, R107, R201). -/
theorem deliverUnit_completes {s : State} (hlegal : configLegal s.cfg = true) (tol : RealParam) (x a b : Rat) :
    ∃ (w : Word) (v : Rat), deliverUnit s tol x a b = .ok ⟨[(.out0, w)], none, none⟩ ∧ decodeReal w = some v ∧
      -1 ≤ v ∧ v ≤ 1 := by
  obtain ⟨w, hw⟩ := deliveredWord_isSome (k := .unitRange tol (beyondAccuracy s.cfg x)) rfl s.cfg s.lcmd
    (operandWords s [.in0]) 0 (.table x a b)
  obtain ⟨v, hv, hlo, hhi, -⟩ := deliveredWord_unitRange_delivered (configLegal_logN hlegal).1 hw
  exact ⟨w, v, deliverUnit_of_deliveredWord hw, hv, hlo, hhi⟩

/-- In a block that draws nothing the word is `ENC` of the result, where that lies in `[-1, 1]` (R77, R78). -/
theorem deliverUnit_of_encodes {s : State} (hlegal : configLegal s.cfg = true) (hacc : s.cfg.xAcc = none)
    {tol : RealParam} (htol : tol.isZero = true) {x a b v : Rat} {y : ℝ} {w : Word}
    (hy : a * sine s.cfg x + b * cosine s.cfg x = y) (hw : Encodes s.cfg.enc y (some w)) (hv : decodeReal w = some v)
    (hlo : -1 ≤ v) (hhi : v ≤ 1) :
    deliverUnit s tol x a b = .ok ⟨[(.out0, w)], none, none⟩ := by
  have hn := (configLegal_logN hlegal).1
  have hfar : beyondAccuracy s.cfg x = false := by simp [beyondAccuracy, hacc]
  have hrange : (Conformance.unitRange tol false).inRange w = true := by simp [Conformance.inRange, hv, hlo, hhi]
  apply deliverUnit_of_deliveredWord
  rw [hfar, deliveredWord_exact _ _ _ (by simp [Conformance.tolerant, htol])]
  exact exactWord_unitRange (enc_eq_of_encodes hn ((value_table hn x a b).trans hy) hw) _ _ _ hrange

/-- The tolerances of SIN and COS in a block that draws nothing (R78). -/
theorem tolOp_of_drawsNothing {cfg : Config} (h : drawsNothing cfg = true) :
    cfg.tolOp.sin.isZero = true ∧ cfg.tolOp.cos.isZero = true ∧ cfg.xAcc = none := by
  obtain ⟨hop, -, -, hacc⟩ := drawsNothing_spec h
  simp only [tolOpZero, Bool.and_eq_true] at hop
  obtain ⟨⟨⟨⟨⟨⟨⟨⟨⟨hsin, hcos⟩, -⟩, -⟩, -⟩, -⟩, -⟩, -⟩, -⟩, -⟩ := hop
  exact ⟨hsin, hcos, hacc⟩

/-- Settles O34: SIN's one result is the interpolated sine. -/
theorem sinWritesTheInterpolatedSine : Obligations.SinWritesTheInterpolatedSine := by
  intro s x w v hdraw hlegal hrun hx hw hv hlo hhi
  obtain ⟨htol, -, hacc⟩ := tolOp_of_drawsNothing hdraw
  rw [exec_sin_eq hrun hx, deliverUnit_of_encodes hlegal hacc htol (by simp) hw hv hlo hhi, commit_ok]

/-- Settles O35: COS's one result is the interpolated cosine. -/
theorem cosWritesTheInterpolatedCosine : Obligations.CosWritesTheInterpolatedCosine := by
  intro s x w v hdraw hlegal hrun hx hw hv hlo hhi
  obtain ⟨-, htol, hacc⟩ := tolOp_of_drawsNothing hdraw
  rw [exec_cos_eq hrun hx, deliverUnit_of_encodes hlegal hacc htol (by simp) hw hv hlo hhi, commit_ok]

/-- The default `ENC` of a real in `[-1, 1]` is a word in `[-1, 1]`, since `-1` and `1` are words (R77). -/
theorem isEnc_of_abs_le_one {y : ℝ} (h : |y| ≤ 1) :
    ∃ (w : Word) (v : Rat), IsEnc y (some w) ∧ decodeReal w = some v ∧ -1 ≤ v ∧ v ≤ 1 := by
  have hminus : decodeReal 0xBF800000 = some (-1) := by decide +kernel
  have hone : decodeReal 0x3F800000 = some 1 := by decide +kernel
  obtain ⟨hlo, hhi⟩ := abs_le.1 h
  obtain ⟨r, hr⟩ := isEnc_exists y
  obtain ⟨w, v, rfl, hv, hvlo, hvhi⟩ := isEnc_bounds hr hminus hone (by simpa using hlo) (by simpa using hhi)
  exact ⟨w, v, hr, hv, hvlo, hvhi⟩

/-- A command that delivers one such result completes with a word in `[-1, 1]`; and in the exact model with the default
`ENC` that word is `ENC` of the result, where the exact model's result lies in `[-1, 1]` (R78, R101, R107). -/
theorem exec_deliverUnit_completes {i : Instr} {s : State} {tol : RealParam} {x a b : Rat} {y : ℝ}
    (hlegal : configLegal s.cfg = true) (hexec : exec i s = .next (commit (deliverUnit s tol x a b) s))
    (hy : a * sine s.cfg x + b * cosine s.cfg x = y) (htol : drawsNothing s.cfg = true → tol.isZero = true)
    (hunit : s.cfg.rom = .reference → |y| ≤ 1) :
    ∃ (w : Word) (v : Rat), exec i s = .next (commitOk ⟨[(.out0, w)], none, none⟩ s) ∧ decodeReal w = some v ∧
      -1 ≤ v ∧ v ≤ 1 ∧ (exactModel s.cfg = true → s.cfg.enc = .nearestEven → IsEnc y (some w)) := by
  obtain ⟨w, v, hw, hv, hlo, hhi⟩ := deliverUnit_completes hlegal tol x a b
  refine ⟨w, v, by rw [hexec, hw, commit_ok], hv, hlo, hhi, fun hexact henc => ?_⟩
  obtain ⟨hdraw, -, href⟩ := exactModel_spec hexact
  obtain ⟨-, -, hacc⟩ := tolOp_of_drawsNothing hdraw
  obtain ⟨u, q, hu, hq, hqlo, hqhi⟩ := isEnc_of_abs_le_one (hunit href)
  have hu' := deliverUnit_of_encodes hlegal hacc (htol hdraw) hy (henc ▸ hu) hq hqlo hqhi
  obtain rfl : u = w := by simpa using hu'.symm.trans hw
  exact hu

/-- Settles O36: SIN and COS deliver one word in `[-1, 1]`, and the interpolation of the reference table lies there. -/
theorem sinAndCosAlwaysComplete : Obligations.SinAndCosAlwaysComplete := by
  intro i s x hi hlegal hrun hx
  obtain rfl | rfl := hi
  · obtain ⟨w, v, hexec, hv, hlo, hhi, henc⟩ := exec_deliverUnit_completes (y := sine s.cfg x) hlegal
      (exec_sin_eq hrun hx) (by simp) (fun h => (tolOp_of_drawsNothing h).1) (interpolationStaysInUnitRange s.cfg _)
    exact ⟨w, v, hexec, hv, hlo, hhi, fun hexact hnear => ⟨fun _ => henc hexact hnear, nofun⟩⟩
  · obtain ⟨w, v, hexec, hv, hlo, hhi, henc⟩ := exec_deliverUnit_completes (y := cosine s.cfg x) hlegal
      (exec_cos_eq hrun hx) (by simp) (fun h => (tolOp_of_drawsNothing h).2.1) (interpolationStaysInUnitRange s.cfg _)
    exact ⟨w, v, hexec, hv, hlo, hhi, fun hexact hnear => ⟨nofun, fun _ => henc hexact hnear⟩⟩

/-! ### NONFINITE (R111) -/

/-- An operand is a number exactly where its word is finite (30_encoding.md R76). -/
theorem operand_eq_none_iff (s : State) (k : InReg) : operand s k = none ↔ isFinite (operandWord s k) = false := by
  rw [← Bool.not_eq_true, ← decodeReal_isSome_iff, Option.not_isSome_iff_eq_none]
  rfl

/-- Settles O26: NONFINITE is the first check of a command that runs, and its commit is the fault entry. -/
theorem nonfiniteOperandIsReported : Obligations.NonfiniteOperandIsReported := by
  intro i s k hwf hrun hk hfin
  obtain ⟨r, hr, hshape⟩ := exec_of_runnable hwf hrun
  rw [hr, hshape.nonfinite k hk ((operand_eq_none_iff s k).2 hfin), commit_error, faultEntry_eq (by decide)]

end Sys2Proof.Machine

/-! Proofs about NORM (spec/41_angle.md): the word it writes in a block that draws nothing, and the range of its word in
every legal configuration. -/

namespace Sys2Proof.Machine

open Reference (Encodes normalized)

/-! ### The last line of R120 -/

/-- A word below `2π` stays. -/
theorem clampTwoPi_of_lt {w : Word} {v : Rat} (hv : decodeReal w = some v) (hlt : (v : ℝ) < 2 * Real.pi) :
    clampTwoPi w = w := by
  simp only [clampTwoPi, hv]
  exact if_pos ((belowTwoPi_iff hv).2 hlt)

/-- A word that reaches `2π` becomes 0. -/
theorem clampTwoPi_of_le {w : Word} {v : Rat} (hv : decodeReal w = some v) (hle : 2 * Real.pi ≤ (v : ℝ)) :
    clampTwoPi w = 0 := by
  simp only [clampTwoPi, hv]
  exact if_neg fun hb => hle.not_gt ((belowTwoPi_iff hv).1 hb)

/-- A number from 0 on lies in `[0, 2π)` after that line. -/
theorem inRange_circle_clampTwoPi {w : Word} {v : Rat} (hv : decodeReal w = some v) (h0 : 0 ≤ v) (tol : RealParam) :
    (Conformance.circle tol).inRange (clampTwoPi w) = true := by
  rcases lt_or_ge (v : ℝ) (2 * Real.pi) with hlt | hge
  · rw [clampTwoPi_of_lt hv hlt]
    simp [Conformance.inRange, hv, h0, (belowTwoPi_iff hv).2 hlt]
  · rw [clampTwoPi_of_le hv hge]
    exact inRange_zero _

/-! ### The word of NORM (R120, R123) -/

/-- The tolerance of NORM in a block that draws nothing (30_encoding.md R78). -/
theorem tolOp_norm_of_drawsNothing {cfg : Config} (h : drawsNothing cfg = true) : cfg.tolOp.norm.isZero = true := by
  obtain ⟨hop, -, -, -⟩ := drawsNothing_spec h
  simp only [tolOpZero, Bool.and_eq_true] at hop
  obtain ⟨⟨⟨⟨⟨⟨⟨⟨-, hnorm⟩, -⟩, -⟩, -⟩, -⟩, -⟩, -⟩, -⟩ := hop
  exact hnorm

/-- In a block that draws nothing the word delivered for the wrapped angle is its `ENC` with R120's last line. -/
theorem deliveredWord_wrap_of_encodes {cfg : Config} (hdraw : drawsNothing cfg = true) (hn : 2 ≤ cfg.logN) (cmd : Word)
    (ops : List Word) (j : Nat) {θ v : Rat} {w : Word} (hw : Encodes cfg.enc (normalized θ) (some w))
    (hv : decodeReal w = some v) (h0 : 0 ≤ v) :
    deliveredWord cfg cmd ops (.circle cfg.tolOp.norm) j (.wrap θ) = some (clampTwoPi w) := by
  have henc : (Exact.wrap θ).enc cfg = some w := enc_eq_of_encodes hn rfl hw
  rw [deliveredWord_exact _ _ _ (by simp [Conformance.tolerant, tolOp_norm_of_drawsNothing hdraw])]
  exact exactWord_circle henc _ _ (inRange_circle_clampTwoPi hv h0 _)

section
variable {s : State} {θ : Rat} (hrun : runnable s [.in0] = true) (hθ : operand s .in0 = some θ)
include hrun hθ

/-- NORM commits the one word delivered for the wrapped angle. -/
theorem exec_norm_of_deliveredWord {w : Word}
    (h : deliveredWord s.cfg s.lcmd (operandWords s [.in0]) (.circle s.cfg.tolOp.norm) 0 (.wrap θ) = some w) :
    exec .norm s = .next (commitOk ⟨[(.out0, w)], none, none⟩ s) := by
  have hresult : normResult s = .ok ⟨[(.out0, w)], none, none⟩ := by
    simp [normResult, hθ, deliver, outWords, outIndex, h]
  calc exec .norm s = .next (commit (normResult s) s) := runCommand_of_runnable hrun normResult
    _ = .next (commitOk ⟨[(.out0, w)], none, none⟩ s) := by rw [hresult, commit_ok]

/-- NORM never overflows, and its word lies in `[0, 2π)` (R123, 60_exceptions.md R201). -/
theorem exec_norm_completes (hlegal : configLegal s.cfg = true) :
    ∃ (w : Word) (v : Rat), exec .norm s = .next (commitOk ⟨[(.out0, w)], none, none⟩ s) ∧ decodeReal w = some v ∧
      0 ≤ v ∧ (v : ℝ) < 2 * Real.pi := by
  obtain ⟨w, hw⟩ := deliveredWord_isSome (k := .circle s.cfg.tolOp.norm) rfl s.cfg s.lcmd (operandWords s [.in0]) 0
    (.wrap θ)
  obtain ⟨v, hv, h0, hlt, -⟩ := deliveredWord_circle_delivered (configLegal_logN hlegal).1 hw
  exact ⟨w, v, exec_norm_of_deliveredWord hrun hθ hw, hv, h0, hlt⟩

end

/-- Settles O37: `ENC` of the wrapped angle, with R120's last line on each side of `2π`. -/
theorem normWritesTheWrappedAngle : Obligations.NormWritesTheWrappedAngle := by
  intro s θ w v hdraw hlegal hrun hθ hw hv h0
  have hexec := exec_norm_of_deliveredWord hrun hθ
    (deliveredWord_wrap_of_encodes hdraw (configLegal_logN hlegal).1 _ _ _ hw hv h0)
  exact ⟨fun hlt => clampTwoPi_of_lt hv hlt ▸ hexec, fun hle => clampTwoPi_of_le hv hle ▸ hexec⟩

/-- Settles O38: NORM's word is below `2π`, and 0x40C90FDA is the greatest word that is. -/
theorem normOutputPassesTheAngleCheck : Obligations.NormOutputPassesTheAngleCheck := by
  intro s θ hlegal hrun hθ
  obtain ⟨w, v, hexec, hv, h0, hlt⟩ := exec_norm_completes hrun hθ hlegal
  have hbelow : belowTwoPi v = true := (belowTwoPi_iff hv).2 hlt
  exact ⟨w, v, hexec, hv, h0, (belowTwoPi_iff_le hv).1 hbelow, by simp [angleInRange, h0, hbelow]⟩

end Sys2Proof.Machine

/-! Proofs about CLARKE, ICLARKE, PARK and IPARK (spec/42_clarke_park.md): the angle check, and the words that a block which
draws nothing writes, or its OVERFLOW. -/

namespace Sys2Proof.Machine

open Reference (Encodes value)

/-! ### The sum of ICLARKE's results (R133 (a)) -/

/-- Settles O53: the halves of `-alpha` cancel `alpha`, and the `√3 beta` terms each other. -/
theorem iclarkeResultsSumToZero : Obligations.IclarkeResultsSumToZero := by
  intro cfg alpha beta
  have hsum : ((iclarkeResults alpha beta).map fun r => value cfg r.2).sum =
      ((exactValues cfg (iclarkeResults alpha beta)).map Prod.snd).sum := by
    rw [exactValues, List.map_map]
    rfl
  rw [hsum, exactValues_iclarke]
  simp only [List.map_cons, List.map_nil, List.sum_cons, List.sum_nil]
  ring

/-! ### The angle check (R136) -/

/-- The check fails exactly where the decoded angle is not in `[0, 2π)`. -/
theorem angleFails_iff {i : Instr} {s : State} {θ : Rat} (hi : i = .park ∨ i = .ipark) (hθ : operand s .in2 = some θ) :
    AngleFails i s ↔ ¬ (0 ≤ (θ : ℝ) ∧ (θ : ℝ) < 2 * Real.pi) := by
  rw [← angleInRange_iff hθ]
  simp [AngleFails, hi, hθ]

/-- Settles O27: on finite operands the angle check decides alone, and a command that passes it ends with OVERFLOW or
with CODE 0 (R202). -/
theorem angleRangeIsChecked : Obligations.AngleRangeIsChecked := by
  intro i s a b θ hi hrun ha hb hθ
  have hreads : i.wellFormed = true ∧ operandsOf i = [.in0, .in1, .in2] := by
    obtain rfl | rfl := hi <;> exact ⟨rfl, rfl⟩
  obtain ⟨hwf, hops⟩ := hreads
  obtain ⟨r, hexec, hshape⟩ := exec_of_runnable hwf (hops ▸ hrun)
  have hfin : ∀ k ∈ operandsOf i, operand s k ≠ none := by simp [hops, ha, hb, hθ]
  refine ⟨fun hout => ?_, fun hin => ⟨_, hexec, ?_⟩⟩
  · rw [hexec, hshape.angle hfin ((angleFails_iff hi hθ).2 hout), commit_error, faultEntry_eq (by decide)]
  · obtain rfl | ⟨c, rfl, -⟩ := hshape.commits hfin fun hf => (angleFails_iff hi hθ).1 hf hin
    · rw [commit_error, faultEntry_code]
      decide
    · rw [commit_ok, commitOk_code]
      decide

/-! ### Deliveries in a block that draws nothing (30_encoding.md R77, R78) -/

/-- The machine rounds each of these results to `ENC` of its real. -/
def RoundsExactly (cfg : Config) (rs : List (OutReg × Exact)) : Prop :=
  ∀ p ∈ rs, Encodes cfg.enc (value cfg p.2) (p.2.enc cfg)

/-- With a table of a legal size, any results are rounded so. -/
theorem roundsExactly_of_logN {cfg : Config} (hn : 2 ≤ cfg.logN) (rs : List (OutReg × Exact)) : RoundsExactly cfg rs :=
  fun p _ => enc_encodes hn p.2

/-- CLARKE's results are surds, so they are rounded so with any table. -/
theorem roundsExactly_clarkeResults (cfg : Config) (u v : Rat) : RoundsExactly cfg (clarkeResults u v) := by
  simp [RoundsExactly, clarkeResults, value, enc_encodes_surd, -surd_ofRat, -surd_sqrt3]

/-- ICLARKE's results are surds too. -/
theorem roundsExactly_iclarkeResults (cfg : Config) (a b : Rat) : RoundsExactly cfg (iclarkeResults a b) := by
  simp [RoundsExactly, iclarkeResults, value, enc_encodes_surd, -surd_ofRat]

/-- `ws` names for each register `ENC` of its real. -/
def AreEncodings (cfg : Config) (xs : List (OutReg × ℝ)) (ws : List (OutReg × Word)) : Prop :=
  List.Forall₂ (fun x w => x.1 = w.1 ∧ Encodes cfg.enc x.2 (some w.2)) xs ws

section
variable {cfg : Config} {tol : RealParam} {rs : List (OutReg × Exact)} (htol : tol.isZero = true)
  (hround : RoundsExactly cfg rs)
include htol hround

/-- With a tolerance of 0 the words of such results are their encodings. -/
theorem outWords_of_areEncodings (cmd : Word) (ops : List Word) {ws : List (OutReg × Word)}
    (h : AreEncodings cfg (exactValues cfg rs) ws) : outWords cfg cmd ops (fun _ => .plain tol) rs = some ws := by
  induction rs generalizing ws with
  | nil =>
    cases h
    rfl
  | cons p rest ih =>
    obtain ⟨r, e⟩ := p
    obtain ⟨hhead, hrest⟩ := List.forall_mem_cons.1 hround
    obtain ⟨⟨_, w⟩, ws, ⟨rfl, hw⟩, htail, rfl⟩ := List.forall₂_cons_left_iff.1 h
    have hdelivered : deliveredWord cfg cmd ops (.plain tol) (outIndex r) e = some w :=
      (deliveredWord_plain _ _ _ htol _ _).trans (encodes_unique hhead hw)
    exact outWords_cons_iff.2 ⟨w, _, hdelivered, ih hrest htail, rfl⟩

end

section
variable {s : State} {i : Instr} {reads : List InReg} {f : State → Except Code Commit} {tol : RealParam}
  {rs : List (OutReg × Exact)} (hexec : exec i s = runCommand reads f s) (hrun : runnable s reads = true)
  (hf : f s = deliver s reads (fun _ => .plain tol) rs) (htol : tol.isZero = true) (hround : RoundsExactly s.cfg rs)
include hexec hrun hf htol hround

/-- A command with a tolerance of 0 commits the encodings of its results, where all are words; where one of them
overflows, it ends with OVERFLOW (60_exceptions.md R204). -/
theorem exec_of_roundsExactly :
    (∀ ws, AreEncodings s.cfg (exactValues s.cfg rs) ws → exec i s = .next (commitOk ⟨ws, none, none⟩ s)) ∧
      ∀ x ∈ exactValues s.cfg rs, Encodes s.cfg.enc x.2 none →
        exec i s = .next { s with code := .overflow, fault := true, busy := false } := by
  rw [hexec, runCommand_of_runnable hrun, hf]
  refine ⟨fun ws h => ?_, fun x hx h => ?_⟩
  · have hok : deliver s reads (fun _ => .plain tol) rs = .ok ⟨ws, none, none⟩ := by
      simp only [deliver, outWords_of_areEncodings htol hround _ _ h]
    rw [hok, commit_ok]
  · obtain ⟨⟨r, e⟩, he, rfl⟩ := List.mem_map.1 hx
    have hnone : e.enc s.cfg = none := encodes_unique (hround _ he) h
    have hover : deliver s reads (fun _ => .plain tol) rs = .error .overflow :=
      deliver_overflow he ((deliveredWord_plain _ _ _ htol _ _).trans hnone)
    rw [hover, commit_error, faultEntry_eq (by decide)]

end

/-- The tolerances of the four transforms in a block that draws nothing. -/
theorem tolOp_transforms_of_drawsNothing {cfg : Config} (h : drawsNothing cfg = true) :
    cfg.tolOp.clarke.isZero = true ∧ cfg.tolOp.iclarke.isZero = true ∧ cfg.tolOp.park.isZero = true ∧
      cfg.tolOp.ipark.isZero = true := by
  obtain ⟨hop, -, -, -⟩ := drawsNothing_spec h
  simp only [tolOpZero, Bool.and_eq_true] at hop
  obtain ⟨⟨⟨⟨⟨⟨⟨-, hclarke⟩, hiclarke⟩, hpark⟩, hipark⟩, -⟩, -⟩, -⟩ := hop
  exact ⟨hclarke, hiclarke, hpark, hipark⟩

/-! ### Clarke (R130, R132) -/

/-- Settles O39: CLARKE's two results over the reals are surds. -/
theorem clarkeWritesTheTransform : Obligations.ClarkeWritesTheTransform := by
  intro s u v hdraw hrun hu hv
  obtain ⟨htol, -⟩ := tolOp_transforms_of_drawsNothing hdraw
  have hf : clarkeResult s = deliver s [.in0, .in1] (fun _ => .plain s.cfg.tolOp.clarke) (clarkeResults u v) := by
    simp only [clarkeResult, hu, hv]
  obtain ⟨hok, hover⟩ :=
    exec_of_roundsExactly (i := .clarke) rfl hrun hf htol (roundsExactly_clarkeResults s.cfg u v)
  simp only [exactValues_clarke, List.forall_mem_cons] at hok hover
  obtain ⟨halpha, hbeta, -⟩ := hover
  exact ⟨fun wa wb hwa hwb => hok _ (.cons ⟨rfl, hwa⟩ (.cons ⟨rfl, hwb⟩ .nil)), fun h => h.elim halpha hbeta⟩

/-- Settles O40: ICLARKE's three results over the reals are surds. -/
theorem iclarkeWritesTheInverseTransform : Obligations.IclarkeWritesTheInverseTransform := by
  intro s a b hdraw hrun ha hb
  obtain ⟨-, htol, -⟩ := tolOp_transforms_of_drawsNothing hdraw
  have hf : iclarkeResult s = deliver s [.in0, .in1] (fun _ => .plain s.cfg.tolOp.iclarke) (iclarkeResults a b) := by
    simp only [iclarkeResult, ha, hb]
  obtain ⟨hok, hover⟩ :=
    exec_of_roundsExactly (i := .iclarke) rfl hrun hf htol (roundsExactly_iclarkeResults s.cfg a b)
  simp only [exactValues_iclarke, List.forall_mem_cons] at hok hover
  obtain ⟨hu, hv, hw, -⟩ := hover
  exact ⟨fun wu wv ww hwu hwv hww => hok _ (.cons ⟨rfl, hwu⟩ (.cons ⟨rfl, hwv⟩ (.cons ⟨rfl, hww⟩ .nil))),
    fun h => h.elim hu fun h => h.elim hv hw⟩

/-! ### Park (R134, R135) -/

/-- Settles O41: with the angle in range PARK delivers its two combinations of the interpolated sine and cosine. -/
theorem parkWritesTheRotation : Obligations.ParkWritesTheRotation := by
  intro s a b θ hdraw hlegal hrun ha hb hθ h0 hlt
  have hn := (configLegal_logN hlegal).1
  obtain ⟨-, -, htol, -⟩ := tolOp_transforms_of_drawsNothing hdraw
  have hrange : angleInRange θ = true := (angleInRange_iff hθ).2 ⟨h0, hlt⟩
  have hf : parkResult s = deliver s [.in0, .in1, .in2] (fun _ => .plain s.cfg.tolOp.park) (parkResults a b θ) := by
    simp only [parkResult, ha, hb, hθ, if_pos hrange]
  obtain ⟨hok, hover⟩ := exec_of_roundsExactly (i := .park) rfl hrun hf htol (roundsExactly_of_logN hn _)
  simp only [exactValues_park hn, List.forall_mem_cons] at hok hover
  obtain ⟨hx, hy, -⟩ := hover
  exact ⟨fun w0 w1 hw0 hw1 => hok _ (.cons ⟨rfl, hw0⟩ (.cons ⟨rfl, hw1⟩ .nil)), fun h => h.elim hx hy⟩

/-- Settles O42: with the angle in range IPARK delivers its two combinations of the interpolated sine and cosine. -/
theorem iparkWritesTheInverseRotation : Obligations.IparkWritesTheInverseRotation := by
  intro s d q θ hdraw hlegal hrun hid hiq hθ h0 hlt
  have hn := (configLegal_logN hlegal).1
  obtain ⟨-, -, -, htol⟩ := tolOp_transforms_of_drawsNothing hdraw
  have hrange : angleInRange θ = true := (angleInRange_iff hθ).2 ⟨h0, hlt⟩
  have hf : iparkResult s = deliver s [.in0, .in1, .in2] (fun _ => .plain s.cfg.tolOp.ipark) (iparkResults d q θ) := by
    simp only [iparkResult, hid, hiq, hθ, if_pos hrange]
  obtain ⟨hok, hover⟩ := exec_of_roundsExactly (i := .ipark) rfl hrun hf htol (roundsExactly_of_logN hn _)
  simp only [exactValues_ipark hn, List.forall_mem_cons] at hok hover
  obtain ⟨hx, hy, -⟩ := hover
  exact ⟨fun w0 w1 hw0 hw1 => hok _ (.cons ⟨rfl, hw0⟩ (.cons ⟨rfl, hw1⟩ .nil)), fun h => h.elim hx hy⟩

end Sys2Proof.Machine

/-! Proofs about SECTOR, VTIME, CMAP and SVPWM (spec/43_svpwm.md): the code of the discriminants, the order of a vector's
times in its own sector, the range of the counters, and the words that a block which draws nothing writes, or its OVERFLOW. -/

namespace Sys2Proof.Machine

open Reference (Encodes IsEnc surd value)

/-! ### The code of the discriminants (R150, R151, R153) -/

/-- The discriminants sum to 0 (R153). -/
theorem discriminants_sum (alpha beta : ℝ) :
    (Reference.discriminants alpha beta).1 + (Reference.discriminants alpha beta).2.1 +
      (Reference.discriminants alpha beta).2.2 = 0 := by
  simp only [Reference.discriminants]
  ring

/-- All three are 0 only at the origin (R153). -/
theorem eq_zero_of_discriminants_nonpos {alpha beta : ℝ} (h1 : (Reference.discriminants alpha beta).1 ≤ 0)
    (h2 : (Reference.discriminants alpha beta).2.1 ≤ 0) (h3 : (Reference.discriminants alpha beta).2.2 ≤ 0) :
    alpha = 0 ∧ beta = 0 := by
  simp only [Reference.discriminants] at h1 h2 h3
  have hbeta : beta = 0 := by linarith
  have halpha : Real.sqrt 3 * alpha = 0 := by linarith
  exact ⟨(mul_eq_zero.1 halpha).resolve_left sqrt3_pos.ne', hbeta⟩

theorem sectorCode_eq_seven_iff (b0 b1 b2 : Bool) : sectorCode b0 b1 b2 = 7 ↔ b0 = true ∧ b1 = true ∧ b2 = true := by
  revert b0 b1 b2
  decide

theorem sectorCode_eq_zero_iff (b0 b1 b2 : Bool) : sectorCode b0 b1 b2 = 0 ↔ b0 = false ∧ b1 = false ∧ b2 = false := by
  revert b0 b1 b2
  decide

/-- Settles O54: the discriminants sum to 0, so they are not all positive, and are all 0 where none is. -/
theorem degenerateCodes : Obligations.DegenerateCodes := by
  intro alpha beta
  have hsum := discriminants_sum alpha beta
  obtain ⟨e1, e2, e3⟩ := discriminants_surd alpha beta
  simp only [ne_eq, sectorCode_eq_seven_iff, sectorCode_eq_zero_iff, ← Bool.not_eq_true, pos_iff, e1, e2, e3, not_lt]
  refine ⟨fun ⟨h1, h2, h3⟩ => by linarith, fun ⟨h1, h2, h3⟩ => ?_, ?_⟩
  · exact_mod_cast eq_zero_of_discriminants_nonpos h1 h2 h3
  · rintro ⟨rfl, rfl⟩
    simp [Reference.discriminants]

/-! ### A vector's times in its own sector (R162) -/

/-- The signs of the discriminants that the code of a sector stands for, with 0 on either side. -/
def SectorSigns (sec : Sector) (d : ℝ × ℝ × ℝ) : Prop :=
  match sec with
  | .s1 => 0 ≤ d.1 ∧ d.2.1 ≤ 0 ∧ d.2.2 ≤ 0
  | .s2 => d.1 ≤ 0 ∧ 0 ≤ d.2.1 ∧ d.2.2 ≤ 0
  | .s3 => 0 ≤ d.1 ∧ 0 ≤ d.2.1 ∧ d.2.2 ≤ 0
  | .s4 => d.1 ≤ 0 ∧ d.2.1 ≤ 0 ∧ 0 ≤ d.2.2
  | .s5 => 0 ≤ d.1 ∧ d.2.1 ≤ 0 ∧ 0 ≤ d.2.2
  | .s6 => d.1 ≤ 0 ∧ 0 ≤ d.2.1 ∧ 0 ≤ d.2.2

/-- Bits that are the strict tests of discriminants give a sector of their signs: code 0 stands for all three 0, and code 7
for none (R151, R153). -/
theorem sectorSigns_of_bits {b0 b1 b2 : Bool} {d : ℝ × ℝ × ℝ} (hsum : d.1 + d.2.1 + d.2.2 = 0)
    (h0 : b0 = true ↔ 0 < d.1) (h1 : b1 = true ↔ 0 < d.2.1) (h2 : b2 = true ↔ 0 < d.2.2) :
    SectorSigns (sectorOfCode (sectorCode b0 b1 b2)) d := by
  cases b0 <;> cases b1 <;> cases b2 <;> simp only [Bool.false_eq_true, false_iff, true_iff, not_lt] at h0 h1 h2
  case true.true.true => linarith
  all_goals exact ⟨by linarith, by linarith, by linarith⟩

/-- A vector has the signs of its own sector. -/
theorem ownSector_signs (alpha beta : Rat) :
    SectorSigns (ownSector alpha beta) (Reference.discriminants alpha beta) := by
  obtain ⟨e1, e2, e3⟩ := discriminants_surd alpha beta
  refine sectorSigns_of_bits (discriminants_sum alpha beta) ?_ ?_ ?_
  · rw [pos_iff, e1]
  · rw [pos_iff, e2]
  · rw [pos_iff, e3]

/-- `X`, `Y`, `Z` are multiples of the discriminants (R150, R157). -/
theorem intermediates_eq_discriminants (k alpha beta : ℝ) :
    let d := Reference.discriminants alpha beta
    Real.sqrt 3 * beta * k = Real.sqrt 3 * k * d.1 ∧
      (3 / 2 * alpha + Real.sqrt 3 / 2 * beta) * k = -(Real.sqrt 3 * k * d.2.2) ∧
      (-(3 / 2) * alpha + Real.sqrt 3 / 2 * beta) * k = -(Real.sqrt 3 * k * d.2.1) := by
  simp only [Reference.discriminants]
  refine ⟨by ring, ?_, ?_⟩
  · linear_combination -(k * alpha / 2) * sqrt3_sq
  · linear_combination (k * alpha / 2) * sqrt3_sq

/-- R162 (a): with the signs of its sector a vector has on-times from 0 on. -/
theorem activeTimes_nonneg {sec : Sector} {k alpha beta : ℝ} (hk : 0 ≤ k)
    (h : SectorSigns sec (Reference.discriminants alpha beta)) :
    0 ≤ (Reference.activeTimes sec k alpha beta).1 ∧ 0 ≤ (Reference.activeTimes sec k alpha beta).2 := by
  obtain ⟨hx, hy, hz⟩ := intermediates_eq_discriminants k alpha beta
  have hc : 0 ≤ Real.sqrt 3 * k := mul_nonneg sqrt3_pos.le hk
  cases sec <;> obtain ⟨h1, h2, h3⟩ := h <;>
    simp only [Reference.activeTimes, hx, hy, hz, neg_neg, Left.nonneg_neg_iff]
  · exact ⟨mul_nonpos_of_nonneg_of_nonpos hc h2, mul_nonpos_of_nonneg_of_nonpos hc h3⟩
  · exact ⟨mul_nonpos_of_nonneg_of_nonpos hc h3, mul_nonpos_of_nonneg_of_nonpos hc h1⟩
  · exact ⟨mul_nonneg hc h2, mul_nonneg hc h1⟩
  · exact ⟨mul_nonpos_of_nonneg_of_nonpos hc h1, mul_nonpos_of_nonneg_of_nonpos hc h2⟩
  · exact ⟨mul_nonneg hc h1, mul_nonneg hc h3⟩
  · exact ⟨mul_nonneg hc h3, mul_nonneg hc h2⟩

section
variable {sec : Sector} {ts udc alpha beta : ℝ}

/-- Saturation rescales the on-times to the period (R159). -/
theorem onTimes_sum_of_saturates (hts : 0 < ts) (h : Reference.Saturates sec ts udc alpha beta) :
    (Reference.onTimes sec ts udc alpha beta).1 + (Reference.onTimes sec ts udc alpha beta).2 = ts := by
  have hsum := hts.trans h
  rw [show Reference.onTimes sec ts udc alpha beta = _ from if_pos h, ← add_div, ← add_mul,
    mul_div_cancel_left₀ _ hsum.ne']

/-- R162 (b), and R162 (a) after saturation. -/
theorem onTimes_bounds (hts : 0 < ts) (h1 : 0 ≤ (Reference.activeTimes sec (ts / udc) alpha beta).1)
    (h2 : 0 ≤ (Reference.activeTimes sec (ts / udc) alpha beta).2) :
    let t := Reference.onTimes sec ts udc alpha beta
    0 ≤ t.1 ∧ 0 ≤ t.2 ∧ t.1 + t.2 ≤ ts := by
  intro t
  by_cases h : Reference.Saturates sec ts udc alpha beta
  · have ht : t = _ := if_pos h
    refine ⟨?_, ?_, (onTimes_sum_of_saturates hts h).le⟩ <;> rw [ht] <;> positivity
  · have ht : t = _ := if_neg h
    rw [ht]
    exact ⟨h1, h2, not_lt.1 h⟩

end

/-- R162 (c): the instants of on-times from 0 on whose sum is at most the period. -/
theorem split_ordered {ts : ℝ} {t : ℝ × ℝ} (h1 : 0 ≤ t.1) (h2 : 0 ≤ t.2) (hsum : t.1 + t.2 ≤ ts) :
    let i := Reference.split ts t
    0 ≤ i.1 ∧ i.1 ≤ i.2.1 ∧ i.2.1 ≤ i.2.2 ∧ i.2.2 ≤ ts / 2 ∧ (i.2.2 = ts / 2 ↔ t.1 + t.2 = ts) := by
  simp only [Reference.split]
  refine ⟨?_, ?_, ?_, ?_, ?_, ?_⟩ <;> intros <;> linarith

/-- Settles O55: the vector's signs order its times, and a saturated sum is the period. -/
theorem matchingSectorTimesAreOrdered : Obligations.MatchingSectorTimesAreOrdered := by
  intro s alpha beta hdraw hlegal t ts
  obtain ⟨-, hsector, htolSat, -⟩ := drawsNothing_spec hdraw
  have hts : 0 < ts := Rat.cast_pos.2 (switchingPeriod_spec hlegal).2
  have hudc : (0 : ℝ) < busVoltage s.cfg := Rat.cast_pos.2 (busVoltage_spec hlegal).2
  obtain ⟨hsat, hon, hinst⟩ := vectorTimes_exact s [.in0, .in1] (classify s [.in0, .in1] alpha beta) alpha beta htolSat
    (switchingPeriod_spec hlegal).2
  have hsigns : SectorSigns (classify s [.in0, .in1] alpha beta) (Reference.discriminants alpha beta) :=
    classify_exact s _ alpha beta hsector ▸ ownSector_signs alpha beta
  obtain ⟨ha1, ha2⟩ := activeTimes_nonneg (div_pos hts hudc).le hsigns
  obtain ⟨hx, hy, hsum⟩ := onTimes_bounds hts ha1 ha2
  obtain ⟨h0, h01, h12, h2, hhalf⟩ := split_ordered hx hy hsum
  have hfull := onTimes_sum_of_saturates (alpha := alpha) (beta := beta) hts ∘ hsat.1
  unfold Reference.instants at hinst
  rw [← hinst] at h0 h01 h12 h2 hhalf
  rw [← hon] at hx hy hsum hhalf hfull
  exact ⟨hx, hy, hsum, h0, h01, h12, h2, hhalf.trans ⟨.inr, fun h => h.elim hfull id⟩⟩

/-! ### The range of the counters (R165, R166, R168) -/

/-- Each counter is the scaled value of one of the three times (R165). -/
theorem mem_counterResults {cfg : Config} {sec : Sector} {t0 t1 t2 : Surd} {r : OutReg × Exact}
    (h : r ∈ counterResults cfg sec t0 t1 t2) : ∃ t ∈ [t0, t1, t2], r.2 = .surd (counter cfg t) := by
  simp only [counterResults, List.mem_cons, List.not_mem_nil, or_false] at h
  have hperm : ∀ t ∈ [(permute sec t0 t1 t2).1, (permute sec t0 t1 t2).2.1, (permute sec t0 t1 t2).2.2],
      t ∈ [t0, t1, t2] := by
    cases sec <;> simp [permute]
  obtain rfl | rfl | rfl := h <;> exact ⟨_, hperm _ (by simp), rfl⟩

/-- The scaling maps `[0, Ts]` into `[0, MAX_COUNTER]` (R166). -/
theorem counter_range {cfg : Config} {t : Surd} (hts : 0 < switchingPeriod cfg) (h0 : 0 ≤ surd t)
    (h1 : surd t ≤ switchingPeriod cfg) :
    0 ≤ surd (counter cfg t) ∧ surd (counter cfg t) ≤ cfg.maxCounter.toNat := by
  have hts' : (0 : ℝ) < switchingPeriod cfg := Rat.cast_pos.2 hts
  rw [counter_surd, div_le_iff₀ hts', mul_comm]
  exact ⟨by positivity, mul_le_mul_of_nonneg_left h1 (Nat.cast_nonneg _)⟩

/-- Settles O56: each of the three times lies in `[0, Ts]`. -/
theorem countersStayInRange : Obligations.CountersStayInRange := by
  intro cfg sec t0 t1 t2 hlegal h0 h01 h12 h2 r hr
  have hmem : ∀ t ∈ [t0, t1, t2], 0 ≤ surd t ∧ surd t ≤ switchingPeriod cfg := by
    simp only [List.forall_mem_cons, List.not_mem_nil, false_implies, implies_true, and_true]
    exact ⟨⟨h0, by linarith⟩, ⟨by linarith, by linarith⟩, by linarith, h2⟩
  obtain ⟨t, ht, hrt⟩ := mem_counterResults hr
  obtain ⟨hlo, hhi⟩ := hmem t ht
  rw [hrt]
  exact counter_range (switchingPeriod_spec hlegal).2 hlo hhi

/-! ### Deliveries in a block that draws nothing (30_encoding.md R77, R78) -/

/-- The tolerances of the commands with numeric results. -/
theorem tolOp_svpwm_of_drawsNothing {cfg : Config} (h : drawsNothing cfg = true) :
    cfg.tolOp.vtime.isZero = true ∧ cfg.tolOp.cmap.isZero = true ∧ cfg.tolOp.svpwm.isZero = true := by
  obtain ⟨hop, -, -, -⟩ := drawsNothing_spec h
  simp only [tolOpZero, Bool.and_eq_true] at hop
  obtain ⟨⟨⟨-, hvtime⟩, hcmap⟩, hsvpwm⟩ := hop
  exact ⟨hvtime, hcmap, hsvpwm⟩

section
variable {s : State} {reads : List InReg} {tol : RealParam} {rs : List (OutReg × Exact)} (htol : tol.isZero = true)
  (hround : RoundsExactly s.cfg rs)
include htol hround

/-- With a tolerance of 0 a delivery of results that are words names their encodings. -/
theorem deliver_of_areEncodings {ws : List (OutReg × Word)} (h : AreEncodings s.cfg (exactValues s.cfg rs) ws)
    (sec : Option (BitVec 3)) (sat : Option Bool) :
    deliver s reads (fun _ => .plain tol) rs sec sat = .ok ⟨ws, sec, sat⟩ := by
  simp only [deliver, outWords_of_areEncodings htol hround _ _ h]

/-- With a tolerance of 0 a delivery with a result that overflows is OVERFLOW (60_exceptions.md R204). -/
theorem deliver_of_encodes_none {x : OutReg × ℝ} (hx : x ∈ exactValues s.cfg rs) (h : Encodes s.cfg.enc x.2 none)
    (sec : Option (BitVec 3)) (sat : Option Bool) :
    deliver s reads (fun _ => .plain tol) rs sec sat = .error .overflow := by
  obtain ⟨⟨r, e⟩, he, rfl⟩ := List.mem_map.1 hx
  have hnone : e.enc s.cfg = none := encodes_unique (hround _ he) h
  exact deliver_overflow he ((deliveredWord_plain _ _ _ htol _ _).trans hnone)

end

/-! ### SECTOR (R156) -/

/-- Settles O43: without a band SECTOR writes the vector's own sector. -/
theorem sectorWritesTheClassification : Obligations.SectorWritesTheClassification := by
  intro s alpha beta hdraw hrun ha hb
  obtain ⟨-, hsector, -, -⟩ := drawsNothing_spec hdraw
  have hresult : sectorResult s = .ok ⟨[], some (BitVec.ofNat 3 (Reference.sectorNumber alpha beta)), none⟩ := by
    simp only [sectorResult, ha, hb, classify_exact s _ alpha beta hsector, ownSector_number]
  calc exec .sector s = .next (commit (sectorResult s) s) := runCommand_of_runnable hrun sectorResult
    _ = _ := by rw [hresult, commit_ok]

/-! ### CMAP (R167) -/

/-- `MAX_COUNTER` as a real. -/
theorem maxCount_real (cfg : Config) : (maxCount cfg : ℝ) = cfg.maxCounter.toNat := Rat.cast_natCast _

/-- Settles O45: CMAP's three results over the reals are the scaled times of the sector. -/
theorem cmapWritesTheCounters : Obligations.CmapWritesTheCounters := by
  intro s b sec t0 t1 t2 hsec hdraw hlegal hrun h0 h1 h2
  obtain ⟨-, htol, -⟩ := tolOp_svpwm_of_drawsNothing hdraw
  have hf : cmapResult sec s = deliver s [.in0, .in1, .in2] (fun _ => .plain s.cfg.tolOp.cmap)
      (counterResults s.cfg sec (.ofRat t0) (.ofRat t1) (.ofRat t2)) := by
    simp only [cmapResult, h0, h1, h2]
  obtain ⟨hok, hover⟩ := exec_of_roundsExactly (exec_cmap_of_sector hsec s) hrun hf htol
    (roundsExactly_of_logN (configLegal_logN hlegal).1 _)
  simp only [exactValues_counterResults, surd_ofRat, maxCount_real, List.forall_mem_cons] at hok hover
  obtain ⟨hu, hv, hw, -⟩ := hover
  exact ⟨fun wu wv ww hwu hwv hww => hok _ (.cons ⟨rfl, hwu⟩ (.cons ⟨rfl, hwv⟩ (.cons ⟨rfl, hww⟩ .nil))),
    fun h => h.elim hu fun h => h.elim hv hw⟩

/-! ### VTIME (R161) -/

section
variable {s : State} {sec : Sector} {alpha beta : Rat} (ha : operand s .in0 = some alpha)
  (hb : operand s .in1 = some beta)
include ha hb

/-- A commit of the drawn times stands in every sector. -/
theorem vtimeResult_of_ok {c : Commit}
    (h : deliverTimes s (.plain s.cfg.tolOp.vtime) (vectorTimes s [.in0, .in1] sec alpha beta) = .ok c) :
    vtimeResult sec s = .ok c := by
  simp only [vtimeResult, ha, hb, h]
  split <;> rfl

/-- In a sector that is not the vector's the drawn times decide (R163). -/
theorem vtimeResult_of_ne (h : sec ≠ ownSector alpha beta) :
    vtimeResult sec s =
      deliverTimes s (.plain s.cfg.tolOp.vtime) (vectorTimes s [.in0, .in1] sec alpha beta) := by
  simp only [vtimeResult, ha, hb]
  exact if_neg h

end

section
variable {s : State} (hdraw : drawsNothing s.cfg = true) (hlegal : configLegal s.cfg = true)
include hdraw hlegal

/-- VTIME's results over the reals, without draws (R157 to R160). -/
theorem exactValues_vectorTimes (reads : List InReg) (sec : Sector) (alpha beta : Rat) :
    exactValues s.cfg (timeResults (vectorTimes s reads sec alpha beta)) =
      let t := Reference.onTimes sec (switchingPeriod s.cfg) (busVoltage s.cfg) alpha beta
      let i := Reference.instants sec (switchingPeriod s.cfg) (busVoltage s.cfg) alpha beta
      [(.out0, i.1), (.out1, i.2.1), (.out2, i.2.2), (.out3, t.1), (.out4, t.2)] := by
  obtain ⟨-, -, hsat, -⟩ := drawsNothing_spec hdraw
  obtain ⟨-, hon, hinst⟩ := vectorTimes_exact s reads sec alpha beta hsat (switchingPeriod_spec hlegal).2
  rw [exactValues_timeResults, ← hon, ← hinst]

/-- The SAT of a block without a band is the strict outcome (R159, R164). -/
theorem vectorTimes_sat_eq (reads : List InReg) {sec : Sector} {alpha beta : Rat} {sat : Bool}
    (h : sat = true ↔ Reference.Saturates sec (switchingPeriod s.cfg) (busVoltage s.cfg) alpha beta) :
    (vectorTimes s reads sec alpha beta).sat = sat := by
  obtain ⟨-, -, hsat, -⟩ := drawsNothing_spec hdraw
  obtain ⟨hstrict, -⟩ := vectorTimes_exact s reads sec alpha beta hsat (switchingPeriod_spec hlegal).2
  exact Bool.eq_iff_iff.2 (hstrict.trans h.symm)

end

/-- Settles O44: VTIME's five results over the reals, and its OVERFLOW in a sector that is not the vector's. -/
theorem vtimeWritesTheVectorTimes : Obligations.VtimeWritesTheVectorTimes := by
  intro s b sec alpha beta hsec hdraw hlegal hrun ha hb
  obtain ⟨htol, -⟩ := tolOp_svpwm_of_drawsNothing hdraw
  have hround := roundsExactly_of_logN (configLegal_logN hlegal).1
    (timeResults (vectorTimes s [.in0, .in1] sec alpha beta))
  have hexec : exec (.vtime b) s = .next (commit (vtimeResult sec s) s) :=
    (exec_vtime_of_sector hsec s).trans (runCommand_of_runnable hrun _)
  have hvalues := exactValues_vectorTimes hdraw hlegal [.in0, .in1] sec alpha beta
  refine ⟨fun w0 w1 w2 wx wy sat h0 h1 h2 hx hy hsat => ?_, fun hne hnone => ?_⟩
  · have hwords : AreEncodings s.cfg (exactValues s.cfg (timeResults (vectorTimes s [.in0, .in1] sec alpha beta)))
        [(.out0, w0), (.out1, w1), (.out2, w2), (.out3, wx), (.out4, wy)] := by
      rw [hvalues]
      exact .cons ⟨rfl, h0⟩ (.cons ⟨rfl, h1⟩ (.cons ⟨rfl, h2⟩ (.cons ⟨rfl, hx⟩ (.cons ⟨rfl, hy⟩ .nil))))
    rw [hexec, vtimeResult_of_ok ha hb (deliver_of_areEncodings htol hround hwords _ _),
      vectorTimes_sat_eq hdraw hlegal _ hsat, commit_ok]
  · have hover : ∀ x ∈ exactValues s.cfg (timeResults (vectorTimes s [.in0, .in1] sec alpha beta)),
        Encodes s.cfg.enc x.2 none →
          exec (.vtime b) s = .next { s with code := .overflow, fault := true, busy := false } :=
      fun x hx h => by
        rw [hexec, vtimeResult_of_ne ha hb (mt (sectorBits_eq_sectorNumber_iff sec alpha beta).2 hne), deliverTimes,
          deliver_of_encodes_none htol hround hx h, commit_error, faultEntry_eq (by decide)]
    simp only [hvalues, List.forall_mem_cons] at hover
    obtain ⟨h0, h1, h2, hx, hy, -⟩ := hover
    exact hnone.elim h0 fun h => h.elim h1 fun h => h.elim h2 fun h => h.elim hx hy

/-! ### SVPWM (R169, R170) -/

/-- A real from 0 to the value of a word has a default `ENC` (R77). -/
theorem exists_isEnc_of_nonneg_of_le {x : ℝ} {u : Word} {b : Rat} (hu : decodeReal u = some b) (h0 : 0 ≤ x)
    (hb : x ≤ b) : ∃ w, IsEnc x (some w) := by
  have hzero : decodeReal 0 = some 0 := by decide +kernel
  obtain ⟨r, hr⟩ := isEnc_exists x
  obtain ⟨w, -, rfl, -⟩ := isEnc_bounds hr hzero hu (by simpa using h0) hb
  exact ⟨w, hr⟩

/-- SVPWM's results over the reals on a vector's own sector, without draws (R169): the counters and the instants. -/
noncomputable def switchingValues (cfg : Config) (alpha beta : Rat) : List (OutReg × ℝ) :=
  let i := Reference.instants (ownSector alpha beta) (switchingPeriod cfg) (busVoltage cfg) alpha beta
  let p := Reference.permute (ownSector alpha beta) i
  let m : ℝ := cfg.maxCounter.toNat
  let ts : ℝ := switchingPeriod cfg
  [(.out0, p.1 * m / ts), (.out1, p.2.1 * m / ts), (.out2, p.2.2 * m / ts), (.out3, i.1), (.out4, i.2.1), (.out5, i.2.2)]

section
variable {s : State} (hdraw : drawsNothing s.cfg = true) (hlegal : configLegal s.cfg = true)
include hdraw hlegal

/-- They are what the machine rounds. -/
theorem exactValues_eq_switchingValues (reads : List InReg) (alpha beta : Rat) :
    let x := vectorTimes s reads (ownSector alpha beta) alpha beta
    exactValues s.cfg (counterResults s.cfg (ownSector alpha beta) x.t0 x.t1 x.t2 ++
        [(.out3, .surd x.t0), (.out4, .surd x.t1), (.out5, .surd x.t2)]) = switchingValues s.cfg alpha beta := by
  obtain ⟨-, -, hsat, -⟩ := drawsNothing_spec hdraw
  obtain ⟨-, -, hinst⟩ := vectorTimes_exact s reads (ownSector alpha beta) alpha beta hsat
    (switchingPeriod_spec hlegal).2
  simp only [exactValues_switching, exactValues_counterResults, switchingValues, maxCount_real, ← hinst,
    List.cons_append, List.nil_append]

/-- Without draws SVPWM commits the encodings of its results, where all are words, with the vector's own sector and
the strict SAT. -/
theorem exec_svpwm_of_areEncodings {alpha beta : Rat} (hrun : runnable s [.in0, .in1] = true)
    (ha : operand s .in0 = some alpha) (hb : operand s .in1 = some beta) {ws : List (OutReg × Word)} {sat : Bool}
    (hws : AreEncodings s.cfg (switchingValues s.cfg alpha beta) ws)
    (hsat : sat = true ↔
      Reference.Saturates (ownSector alpha beta) (switchingPeriod s.cfg) (busVoltage s.cfg) alpha beta) :
    exec .svpwm s = .next (commitOk ⟨ws, some (sectorBits (ownSector alpha beta)), some sat⟩ s) := by
  obtain ⟨-, hsector, -, -⟩ := drawsNothing_spec hdraw
  obtain ⟨-, -, htol⟩ := tolOp_svpwm_of_drawsNothing hdraw
  rw [← exactValues_eq_switchingValues hdraw hlegal [.in0, .in1]] at hws
  have hdrawn := deliver_of_areEncodings (reads := [.in0, .in1]) htol
    (roundsExactly_of_logN (configLegal_logN hlegal).1 _) hws (some (sectorBits (ownSector alpha beta))) (some sat)
  have hresult : svpwmResult s = .ok ⟨ws, some (sectorBits (ownSector alpha beta)), some sat⟩ := by
    simp only [svpwmResult, ha, hb, classify_exact s _ alpha beta hsector, deliverSwitching,
      vectorTimes_sat_eq hdraw hlegal _ hsat, hdrawn, unlessOverflow]
  calc exec .svpwm s = .next (commit (svpwmResult s) s) := runCommand_of_runnable hrun svpwmResult
    _ = _ := by rw [hresult, commit_ok]

/-- R169: with the default `ENC` no result of SVPWM overflows, since the counters are at most `MAX_COUNTER`, below the word
of `2^32`, and the instants at most `Ts`, which is a word. -/
theorem switchingValues_isEnc (alpha beta : Rat) :
    ∀ x ∈ switchingValues s.cfg alpha beta, ∃ w, IsEnc x.2 (some w) := by
  obtain ⟨-, hsector, -, -⟩ := drawsNothing_spec hdraw
  obtain ⟨hts, hts0⟩ := switchingPeriod_spec hlegal
  have hts0' : (0 : ℝ) < switchingPeriod s.cfg := Rat.cast_pos.2 hts0
  have hpow : decodeReal 0x4F800000 = some (2 ^ 32) := by decide +kernel
  obtain ⟨-, -, -, h0, h01, h12, h2, -⟩ := matchingSectorTimesAreOrdered s alpha beta hdraw hlegal
  rw [classify_exact s _ alpha beta hsector] at h0 h01 h12 h2
  rw [← exactValues_eq_switchingValues hdraw hlegal [.in0, .in1]]
  intro x hx
  obtain ⟨p, hp, rfl⟩ := List.mem_map.1 hx
  obtain hc | ht := List.mem_append.1 hp
  · obtain ⟨hlo, hhi⟩ := countersStayInRange _ _ _ _ _ hlegal h0 h01 h12 (by linarith) p hc
    have hmax : (s.cfg.maxCounter.toNat : ℝ) ≤ 2 ^ 32 := by exact_mod_cast s.cfg.maxCounter.isLt.le
    exact exists_isEnc_of_nonneg_of_le hpow hlo (by push_cast; linarith)
  · simp only [List.mem_cons, List.not_mem_nil, or_false] at ht
    obtain rfl | rfl | rfl := ht <;> exact exists_isEnc_of_nonneg_of_le hts (by simp only [value]; linarith)
      (by simp only [value]; linarith)

end

/-- Settles O46: every result of the exact chain on the vector's own sector is in range, so it has a word. -/
theorem svpwmWritesTheComposedResults : Obligations.SvpwmWritesTheComposedResults := by
  intro s alpha beta hdraw henc hlegal hrun ha hb
  have hwords := switchingValues_isEnc hdraw hlegal alpha beta
  simp only [switchingValues, List.forall_mem_cons] at hwords
  obtain ⟨⟨wu, hu⟩, ⟨wv, hv⟩, ⟨ww, hw⟩, ⟨w0, h0⟩, ⟨w1, h1⟩, ⟨w2, h2⟩, -⟩ := hwords
  have hall : AreEncodings s.cfg (switchingValues s.cfg alpha beta)
      [(.out0, wu), (.out1, wv), (.out2, ww), (.out3, w0), (.out4, w1), (.out5, w2)] := by
    unfold AreEncodings
    rw [henc]
    exact .cons ⟨rfl, hu⟩ (.cons ⟨rfl, hv⟩ (.cons ⟨rfl, hw⟩ (.cons ⟨rfl, h0⟩ (.cons ⟨rfl, h1⟩ (.cons ⟨rfl, h2⟩ .nil)))))
  classical
  exact ⟨ownSector alpha beta, decide (Reference.Saturates _ _ _ _ _), wu, wv, ww, w0, w1, w2,
    ownSector_number alpha beta, decide_eq_true_iff, hu, hv, hw, h0, h1, h2,
    exec_svpwm_of_areEncodings hdraw hlegal hrun ha hb hall decide_eq_true_iff⟩

/-- The origin has the default sector (R151, R153). -/
theorem ownSector_origin : ownSector 0 0 = .s6 := by decide +kernel

/-- At the origin no vector is active (R170). -/
theorem activeTimes_origin (sec : Sector) (k : ℝ) : Reference.activeTimes sec k 0 0 = (0, 0) := by
  cases sec <;> simp [Reference.activeTimes]

theorem not_saturates_origin {ts : ℝ} (hts : 0 < ts) (sec : Sector) (udc : ℝ) :
    ¬ Reference.Saturates sec ts udc 0 0 := by
  simpa [Reference.Saturates, activeTimes_origin] using hts.le

/-- The whole period is zero-vector time, a quarter of it before each instant (R160, R170). -/
theorem instants_origin {ts : ℝ} (hts : 0 < ts) (sec : Sector) (udc : ℝ) :
    Reference.instants sec ts udc 0 0 = (ts / 4, ts / 4, ts / 4) := by
  have hon : Reference.onTimes sec ts udc 0 0 = (0, 0) :=
    (if_neg (not_saturates_origin hts sec udc)).trans (activeTimes_origin sec _)
  simp [Reference.instants, hon, Reference.split]

/-- All three counters are a quarter of `MAX_COUNTER` (R170). -/
theorem switchingValues_origin {cfg : Config} (hts : 0 < switchingPeriod cfg) :
    let c : ℝ := cfg.maxCounter.toNat / 4
    let t : ℝ := switchingPeriod cfg / 4
    switchingValues cfg 0 0 = [(.out0, c), (.out1, c), (.out2, c), (.out3, t), (.out4, t), (.out5, t)] := by
  have hts' : (0 : ℝ) < switchingPeriod cfg := Rat.cast_pos.2 hts
  have hcounter : (switchingPeriod cfg : ℝ) / 4 * cfg.maxCounter.toNat / switchingPeriod cfg =
      cfg.maxCounter.toNat / 4 := by
    field_simp
  simp only [switchingValues, ownSector_origin, Rat.cast_zero, instants_origin hts', Reference.permute, hcounter]

/-- Settles O47: at the origin all counters and all instants are quarters, in the default sector 6. -/
theorem svpwmAtTheOrigin : Obligations.SvpwmAtTheOrigin := by
  intro s wc wt hdraw hlegal hrun h0 h1 hc ht
  have hts := (switchingPeriod_spec hlegal).2
  have hall : AreEncodings s.cfg (switchingValues s.cfg 0 0)
      [(.out0, wc), (.out1, wc), (.out2, wc), (.out3, wt), (.out4, wt), (.out5, wt)] := by
    rw [switchingValues_origin hts]
    exact .cons ⟨rfl, hc⟩ (.cons ⟨rfl, hc⟩ (.cons ⟨rfl, hc⟩ (.cons ⟨rfl, ht⟩ (.cons ⟨rfl, ht⟩ (.cons ⟨rfl, ht⟩ .nil)))))
  have hsat : false = true ↔
      Reference.Saturates (ownSector 0 0) (switchingPeriod s.cfg) (busVoltage s.cfg) (0 : Rat) (0 : Rat) := by
    simpa using not_saturates_origin (Rat.cast_pos.2 hts) (ownSector 0 0) (busVoltage s.cfg)
  have hexec := exec_svpwm_of_areEncodings hdraw hlegal hrun h0 h1 hall hsat
  rwa [ownSector_origin] at hexec

end Sys2Proof.Machine

/-! Proofs about the completion codes (spec/60_exceptions.md): what the fault entry and a commit write, the model-only fault
of an operand never written, the order of the checks, and where OVERFLOW is possible. -/

namespace Sys2Proof.Machine

/-! ### What a completion writes (R203, R204) -/

/-- SECTOR reads its three bits with 0 above (10_state.md R28). -/
theorem readRegister_sector (s : State) : readRegister s .sector = s.sector.setWidth 32 := by
  show (0 : BitVec 29) ++ s.sector = s.sector.setWidth 32
  generalize s.sector = x
  revert x
  decide

/-- An OUT register reads its word once it is written (10_state.md R27, R31). -/
theorem readRegister_out_of_written {s : State} {k : OutReg} {w : Word} (h : s.out.get k = ⟨w, true⟩) :
    readRegister s (.out k) = w := by
  simp [readRegister, contents, h]

/-- What a commit without a fault does to everything but the OUT registers (10_state.md R30). -/
theorem commitOk_eq_outside_out (c : Commit) (s : State) :
    { commitOk c s with out := s.out } =
      { s with code := .ok, busy := false, sector := c.sector.getD s.sector, sat := c.sat.getD s.sat } := by
  simp [commitOk, completeStatus]

/-- Settles O22: the fault entry has no register to write, and a commit writes each of its distinct registers once. -/
theorem commitWritesWhatItNames : Obligations.CommitWritesWhatItNames := by
  refine fun s => ⟨fun c hc => faultEntry_eq hc s, fun c hnodup => ?_⟩
  have hnamed : ∀ k w, (k, w) ∈ c.outs → (commitOk c s).out.get k = ⟨w, true⟩ := fun k w hm =>
    writeOuts_get_of_mem c.outs s.out k w hnodup hm
  have hother : ∀ k, k ∉ c.outs.map Prod.fst → (commitOk c s).out.get k = s.out.get k := fun k hk =>
    writeOuts_get_of_not_mem c.outs s.out k hk
  obtain ⟨hbusy, -⟩ := statusWord_flags (commitOk c s)
  refine ⟨fun k w hm => ⟨hnamed k w hm, readRegister_out_of_written (hnamed k w hm)⟩,
    fun k hk => ⟨hother k hk, ?_⟩, fun x hx => ?_, rfl, statusWord_code _, hbusy, commitOk_eq_outside_out c s⟩
  · simp only [commit_ok, readRegister, hother k hk, commitOk_resets]
  · simp only [commit_ok, readRegister_sector, commitOk_sector, hx, Option.getD_some]

/-- SECTOR and SVPWM are the commands that write SECTOR (30_encoding.md R79). -/
theorem namesSector_iff (i : Instr) : namesSector i = true ↔ i = .sector ∨ i = .svpwm := by
  cases i <;> simp [namesSector]

/-- VTIME and SVPWM are the commands that write SAT (30_encoding.md R79). -/
theorem namesSat_iff (i : Instr) : namesSat i = true ↔ (∃ b, i = .vtime b) ∨ i = .svpwm := by
  cases i <;> simp [namesSat]

/-- Settles O23: a command that answers a next state made the fault entry or a commit of its shape. -/
theorem everyCommandIsAllOrNothing : Obligations.EveryCommandIsAllOrNothing := by
  intro i s t h
  obtain ⟨c, hc, rfl⟩ | ⟨c, ⟨houts, -, -, hsector, hsat⟩, rfl⟩ := exec_next_cases h
  · exact .inr ⟨hc, faultEntry_eq hc s⟩
  · exact .inl ⟨c, rfl, rfl, houts, hsector ▸ namesSector_iff i, hsat ▸ namesSat_iff i⟩

/-! ### The model-only fault (R210) -/

/-- A well-formed command whose operands do not let it run ends in the model-only fault (R202). -/
theorem exec_of_not_runnable {i : Instr} {s : State} (hwf : i.wellFormed = true)
    (hrun : runnable s (operandsOf i) = false) : exec i s = .fault .unwrittenOperand := by
  obtain ⟨g, hg, -⟩ := exec_runs i s hwf
  exact hg.trans (runCommand_of_not_runnable hrun g)

/-- With the check on, one operand latched without its written mark stops the command (10_state.md R31). -/
theorem runnable_eq_false {s : State} {reads : List InReg} {k : InReg} (hcheck : s.cfg.operandCheck = true)
    (hk : k ∈ reads) (hmark : (s.lin.get k).written = false) : runnable s reads = false := by
  have hall : operandsWritten s reads = false := List.all_eq_false.2 ⟨k, hk, by simp [hmark]⟩
  simp [runnable, hall, hcheck]

/-- Settles O25: the unwritten operand makes the command not runnable. -/
theorem unwrittenOperandIsTheModelFault : Obligations.UnwrittenOperandIsTheModelFault :=
  fun _ _ _ hwf hcheck hk hmark => exec_of_not_runnable hwf (runnable_eq_false hcheck hk hmark)

/-! ### The order of the checks (R202) -/

/-- A word that does not decode completes with ILLEGAL_OP (30_encoding.md R73). -/
theorem complete_of_decode_error {s : State} {e : Reject} (h : decode s.lcmd = .error e) :
    complete s = .next (faultEntry .illegalOp s) := by
  unfold complete
  rw [h]

/-- The last check of R202: a command that passes all the others ends with CODE 0 or OVERFLOW. -/
theorem ResultShape.code_of_commits {i : Instr} {s : State} {r : Except Code Commit} (h : ResultShape i s r)
    (hfin : ∀ k ∈ operandsOf i, operand s k ≠ none) (hang : ¬ AngleFails i s) :
    (commit r s).code = .ok ∨ (commit r s).code = .overflow := by
  obtain rfl | ⟨c, rfl, -⟩ := h.commits hfin hang
  · exact .inr rfl
  · exact .inl rfl

/-- Settles O28: each branch of the order is the command's result where the checks before it have passed. -/
theorem faultPriority : Obligations.FaultPriority := by
  refine fun s => ⟨fun e he => by rw [complete_of_decode_error he, faultEntry_eq (by decide)], fun i hi => ?_⟩
  rw [complete_of_decode hi]
  split
  case isTrue hwf => rw [exec_ill_formed i s hwf, faultEntry_eq (by decide)]
  case isFalse hwf =>
    replace hwf := Bool.eq_true_of_not_eq_false hwf
    split
    case isTrue hrun => exact exec_of_not_runnable hwf hrun
    case isFalse hrun =>
      obtain ⟨r, hexec, hshape⟩ := exec_of_runnable hwf (Bool.eq_true_of_not_eq_false hrun)
      rw [hexec]
      split
      case isTrue hany =>
        obtain ⟨k, hk, hnonfinite⟩ := List.any_eq_true.1 hany
        have hnone : operand s k = none := (operand_eq_none_iff s k).2 (by simpa using hnonfinite)
        rw [hshape.nonfinite k hk hnone, commit_error, faultEntry_eq (by decide)]
      case isFalse hany =>
        have hfin : ∀ k ∈ operandsOf i, operand s k ≠ none := fun k hk hnone =>
          hany (List.any_eq_true.2 ⟨k, hk, by simp [(operand_eq_none_iff s k).1 hnone]⟩)
        split
        case isTrue hangle => rw [hshape.angle hfin hangle, commit_error, faultEntry_eq (by decide)]
        case isFalse hangle => exact ⟨_, rfl, hshape.code_of_commits hfin hangle⟩

/-! ### Where OVERFLOW is possible (R201) -/

/-- A command that ends with OVERFLOW has computed it. -/
theorem eq_overflow_of_runCommand {reads : List InReg} {f : State → Except Code Commit} {s t : State}
    (h : runCommand reads f s = .next t) (hc : t.code = .overflow) : f s = .error .overflow := by
  obtain rfl := eq_commit_of_runCommand h
  cases hf : f s with
  | ok c => rw [hf] at hc; cases hc
  | error c => rw [hf] at hc; exact congrArg _ hc

/-- A delivery none of whose results may overflow is a commit, in every configuration (30_encoding.md R78, log 22). -/
theorem deliver_ne_overflow {how : OutReg → Conformance} (hhow : ∀ r, (how r).mayOverflow = false) (s : State)
    (reads : List InReg) (rs : List (OutReg × Exact)) (sec : Option (BitVec 3)) (sat : Option Bool) :
    deliver s reads how rs sec sat ≠ .error .overflow := by
  obtain ⟨ws, hws⟩ : ∃ ws, deliver s reads how rs sec sat = .ok ⟨ws, sec, sat⟩ :=
    deliver_total fun p _ => .inl (hhow p.1)
  simp [hws]

/-- A draw that gives way leaves no OVERFLOW where the delivery without draws ends with none (log 22). -/
theorem unlessOverflow_ne_overflow {drawn undrawn : Except Code Commit} (h : undrawn ≠ .error .overflow) :
    unlessOverflow drawn undrawn ≠ .error .overflow := by
  obtain ⟨c, -, hu⟩ | ⟨-, hu⟩ := unlessOverflow_cases drawn undrawn
  · simp [hu]
  · rwa [hu]

/-- SIN, COS and NORM keep their ranges (40_trig.md R107, 41_angle.md R123). -/
theorem result_ne_overflow_of_one_operand (s : State) :
    sinResult s ≠ .error .overflow ∧ cosResult s ≠ .error .overflow ∧ normResult s ≠ .error .overflow := by
  simp only [sinResult, cosResult, normResult]
  cases operand s .in0 with
  | none => simp
  | some x =>
    exact ⟨deliver_ne_overflow (fun _ => rfl) _ _ _ _ _, deliver_ne_overflow (fun _ => rfl) _ _ _ _ _,
      deliver_ne_overflow (fun _ => rfl) _ _ _ _ _⟩

/-- SECTOR rounds nothing (43_svpwm.md R156). -/
theorem sectorResult_ne_overflow (s : State) : sectorResult s ≠ .error .overflow := by
  unfold sectorResult
  split <;> simp

/-- SVPWM falls back on its own sector and the strict outcome, whose results are bounded (43_svpwm.md R169). -/
theorem svpwmResult_ne_overflow (s : State) : svpwmResult s ≠ .error .overflow := by
  unfold svpwmResult
  split
  · exact unlessOverflow_ne_overflow (deliver_ne_overflow (fun r => by cases r <;> rfl) _ _ _ _ _)
  · simp

/-- VTIME overflows only on finite operands and in a sector that is not the vector's own (43_svpwm.md R161). -/
theorem ne_ownSector_of_vtimeResult_overflow {sec : Sector} {s : State} (h : vtimeResult sec s = .error .overflow) :
    ∃ alpha beta, operand s .in0 = some alpha ∧ operand s .in1 = some beta ∧ sec ≠ ownSector alpha beta := by
  unfold vtimeResult at h
  split at h
  case h_1 alpha beta ha hb =>
    refine ⟨alpha, beta, ha, hb, fun hown => ?_⟩
    rw [if_pos hown] at h
    exact unlessOverflow_ne_overflow (deliver_ne_overflow (fun _ => rfl) _ _ _ _ _) h
  case h_2 => cases h

/-- VTIME that ends with another code than ILLEGAL_SECTOR names a sector (30_encoding.md R72). -/
theorem sectorOfBits_of_exec_vtime {bits : BitVec 3} {s t : State} (h : exec (.vtime bits) s = .next t)
    (hc : t.code ≠ .illegalSector) : ∃ sec, sectorOfBits bits = some sec := by
  cases hsec : sectorOfBits bits with
  | some sec => exact ⟨sec, rfl⟩
  | none =>
    simp only [exec, execVtime, hsec, Host.Outcome.next.injEq] at h
    exact absurd (h ▸ faultEntry_code _ s) hc

/-- Settles O49: the commands whose results are all promised in a range deliver a word for each, in every configuration. -/
theorem overflowOnlyWhereItIsPossible : Obligations.OverflowOnlyWhereItIsPossible := by
  intro i s t h hc
  obtain ⟨hsin, hcos, hnorm⟩ := result_ne_overflow_of_one_operand s
  cases i with
  | sin => exact absurd (eq_overflow_of_runCommand h hc) hsin
  | cos => exact absurd (eq_overflow_of_runCommand h hc) hcos
  | norm => exact absurd (eq_overflow_of_runCommand h hc) hnorm
  | sector => exact absurd (eq_overflow_of_runCommand h hc) (sectorResult_ne_overflow s)
  | svpwm => exact absurd (eq_overflow_of_runCommand h hc) (svpwmResult_ne_overflow s)
  | vtime bits =>
    obtain ⟨sec, hsec⟩ := sectorOfBits_of_exec_vtime h (by simp [hc])
    rw [exec_vtime_of_sector hsec] at h
    obtain ⟨alpha, beta, ha, hb, hne⟩ := ne_ownSector_of_vtimeResult_overflow (eq_overflow_of_runCommand h hc)
    exact .inr (.inr (.inr (.inr (.inr ⟨bits, sec, alpha, beta, rfl, hsec, ha, hb,
      mt (sectorBits_eq_sectorNumber_iff sec alpha beta).1 hne⟩))))
  | clarke => simp
  | iclarke => simp
  | park => simp
  | ipark => simp
  | cmap bits => simp

end Sys2Proof.Machine

/-! Proofs about reset and configurations (spec/70_reset_and_hazards.md): what a step may refuse, which configurations have a
machine, what the reset event leaves, and the invariant after power-up. -/

namespace Sys2Proof.Machine

open Reference (param)

/-! ### What a step may refuse -/

/-- The host is refused for an access R51 does not define or for a variable it has not read into. -/
theorem hostMove_refused_cases {s : State} {r : Refusal} (h : hostMove s = .refused r) :
    (∃ addr size, r = .busError addr size) ∨ ∃ name, r = .hostVariableUnset name := by
  unfold hostMove at h
  split at h
  case h_1 => cases h
  case h_2 =>
    unfold hostWrite at h
    split at h
    · cases h; exact .inr ⟨_, rfl⟩
    · split at h <;> cases h
      exact .inl ⟨_, _, rfl⟩
  case h_3 =>
    unfold hostRead at h
    split at h <;> cases h
    exact .inl ⟨_, _, rfl⟩
  case h_4 =>
    unfold hostBranch at h
    split at h <;> cases h
    exact .inr ⟨_, rfl⟩

/-- A completion is a commit, the fault entry or the model-only fault (R30, R71, R210). -/
theorem complete_ne_refused (s : State) (r : Refusal) : complete s ≠ .refused r := by
  obtain ⟨i, -, hi⟩ | hill := complete_cases s
  · obtain ⟨c, hc⟩ | hfault := exec_cases i s
    · simp [hi, hc]
    · simp [hi, hfault]
  · simp [hill]

/-- No agent's move is refused for the configuration: R233 is the step's own check. -/
theorem move_ne_illegalConfiguration (m : Move) (s : State) : move m s ≠ .refused .illegalConfiguration := by
  cases m with
  | host =>
    intro h
    obtain ⟨_, _, hr⟩ | ⟨_, hr⟩ := hostMove_refused_cases h <;> cases hr
  | block =>
    show blockMove s ≠ _
    unfold blockMove
    split
    · exact complete_ne_refused s _
    · simp
  | reset => simp [move]

/-- A step is refused for its configuration exactly where the check of R233 fails. -/
theorem step_eq_illegalConfiguration_iff (s : State) :
    step s = .refused .illegalConfiguration ↔ ¬ configLegal s.cfg = true := by
  refine ⟨fun h hlegal => ?_, fun h => if_neg h⟩
  exact move_ne_illegalConfiguration _ _ ((step_of_legal hlegal).symm.trans h)

/-! ### Which configurations have a machine (R5, R55, R101, R233) -/

/-- The tolerances of the commands are legal exactly where each is at least 0 (R5). -/
theorem tolOpLegal_iff (t : TolOp) :
    tolOpLegal t = true ↔
      ∀ p ∈ [t.sin, t.cos, t.norm, t.clarke, t.iclarke, t.park, t.ipark, t.vtime, t.cmap, t.svpwm], 0 ≤ param p := by
  simp [tolOpLegal, RealParam.isNonneg_iff, and_assoc]

/-- Settles O6: the step's check, condition by condition; the one on a stored table uses that `N` is at least 4. -/
theorem illegalConfigurationIsRefused : Obligations.IllegalConfigurationIsRefused := by
  intro s
  refine (step_eq_illegalConfiguration_iff s).trans (not_congr ?_)
  simp only [configLegal, Bool.and_eq_true, decide_eq_true_eq, bne_iff_ne, beq_iff_eq, positiveWord_iff,
    RealParam.isNonneg_iff, tolOpLegal_iff, and_assoc]
  refine and_congr_right fun hlogN => ?_
  rw [romLegal_iff hlogN, tableSize]
  cases s.cfg.xAcc with
  | none => simp only [reduceCtorEq, false_implies, implies_true]
  | some x => simp only [RealParam.isPos_iff, Option.some.injEq, forall_eq']

/-! ### What the reset event leaves (R230 to R232) -/

/-- The reset move is the reset event, whether a command is in flight or not (R230, R231). -/
theorem step_of_reset {s : State} (h : configLegal s.cfg = true) (hm : nextMove s = .reset) :
    step s = .next (resetBlock (popAgenda s)) := by
  rw [step_of_legal h, hm]
  rfl

/-- After a reset no flag is set and CODE is OK (R230). -/
@[simp] theorem statusWord_resetBlock (s : State) : statusWord (resetBlock s) = 0 := by
  simp [statusWord, codeBits]

/-- Settles O8: each register shows a field that the reset event clears. -/
theorem resetClearsTheBlock : Obligations.ResetClearsTheBlock := by
  intro s hlegal hnext
  refine ⟨_, step_of_reset hlegal hnext, rfl, statusWord_resetBlock _, by simp [readRegister], rfl, fun k => ?_,
    fun k => ?_, rfl⟩
  · simp [Reg.unwritten]
  · simp [Reg.unwritten]

/-- Settles O59: at power-up no command is in flight, no register is written and the host has no variable. -/
theorem resetHasTheInvariant : Obligations.ResetHasTheInvariant where
  sector := by simp [sectorLegalInState, State.reset]
  fault := fun hcode => absurd rfl hcode
  latches := fun hb => absurd hb (by simp [State.reset])
  results := fun k hk => absurd hk (by simp [State.reset, Reg.unwritten])
  vars := rfl

end Sys2Proof.Machine
